-- ==== Sys2Proof/Word.lean ====
section
/-! DEFINITION. The word types of SYSX-B32C. -/

namespace Sys2Proof

/-- One byte of MEM or of a byte payload (20_memory.md R50, 10_state.md R24). -/
abbrev Byte := BitVec 8

/-- The command word CMD (10_state.md R20, 30_encoding.md R70). -/
abbrev CmdWord := BitVec 32

/-- An operand register A[0] or A[1] (10_state.md R22). -/
abbrev Word64 := BitVec 64

/-- The write-data register DIN and the result register DOUT (10_state.md R20). -/
abbrev Word128 := BitVec 128

/-- A text code unit, a natural below 2^CHAR_W (10_state.md R24, 41_base32.md R100). CHAR_W is a
parameter of the block, so the bound is a check (`Payload.fits`), not part of the type. -/
abbrev CodeUnit := Nat

/-- A decoded text, the sequence of its code points (10_state.md R20 "a text value").
DESIGN CHOICE (log 16): the spec does not say what a text is made of. -/
abbrev Text := List Nat

end Sys2Proof
end

