-- ==== Sys2Proof/Config.lean ====
section
/-! DEFINITION. The implementation parameters of 00_scope.md R7, and the free values.

A parameter the spec leaves OPEN is a field of `Config`, which State carries and no step changes,
so that a claim over all states is a claim over all parameter values ("A model takes each `OPEN`
one as an argument", R7). The block right after reset takes free values for them: the constants
`Config.launch…` have no body. Log 1. -/

namespace Sys2Proof

/-- A byte order (20_memory.md R54). -/
inductive Endian where
  | little
  | big
  deriving DecidableEq, Repr, Inhabited

/-- The text encodings RD.STR can name: ENC = 0 is UTF-8, 1 to 3 are reserved (30_encoding.md R74). -/
inductive TextEncoding where
  | utf8
  deriving DecidableEq, Repr, Inhabited

/-- Which function TEXT_DECODE is (00_scope.md R7: "OPEN function"). State is plain data, so the
parameter is named here and applied by `textDecode` (Machine/Operands.lean). Log 2. -/
inductive TextDecoder where
  /-- Any decoder of a platform: the k-th value of a function with no body. -/
  | platform (k : Nat)
  /-- Standard UTF-8, strict. PRESUMED (log 2): the spec's examples speak of it, its rules do not
  define it. -/
  | standardUtf8
  deriving DecidableEq, Repr, Inhabited

/-- What the bytes of MEM that State lists no entry for hold: the launch contents of MEM, "a launch
parameter with no assumed value" (70_reset_and_hazards.md R282). Log 3. -/
inductive LaunchMem where
  /-- Any contents: the k-th value of a function with no body. -/
  | unknown (k : Nat)
  /-- Every such byte holds b (a host that cleared its memory). -/
  | filled (b : Byte)
  deriving DecidableEq, Repr, Inhabited

/-- The block's parameters (00_scope.md R7). -/
structure Config where
  /-- CHAR_W, the width of a text code unit. -/
  charW : Nat
  /-- ADDR_W, the width of a MEM address. -/
  addrW : Nat
  /-- NSLOT, the number of cursor slots. -/
  nslot : Nat
  /-- HOST_ORDER, the byte order of the native variants. -/
  hostOrder : Endian
  /-- TEXT_DECODE. -/
  text : TextDecoder
  /-- The launch contents of MEM. -/
  fill : LaunchMem
  /-- BLOCK_BASE, a platform address if any; "no rule depends on it". -/
  blockBase : Option Nat
  deriving DecidableEq, Repr

/-- The bounds 00_scope.md R7 sets: `CHAR_W >= 8` and `1 <= NSLOT <= 16`. -/
def Config.wf (c : Config) : Bool :=
  decide (8 ≤ c.charW) && decide (1 ≤ c.nslot) && decide (c.nslot ≤ 16)

/-- ACC_W, the width of the Base32 accumulator (00_scope.md R7). -/
abbrev accW : Nat := 16

/-- LEN_MAX, the largest region length, count or payload length (00_scope.md R7). -/
def lenMax : Nat := 2 ^ 63 - 1

/-! ## The parameters at launch: free values, no body (log 1, log 3) -/

/-- CHAR_W less its least value 8. -/
opaque Config.launchCharWExtra : Nat
/-- ADDR_W. -/
opaque Config.launchAddrW : Nat
/-- NSLOT less 1. -/
opaque Config.launchNslotExtra : Fin 16
/-- HOST_ORDER. -/
opaque Config.launchHostOrder : Endian
/-- TEXT_DECODE. -/
opaque Config.launchText : TextDecoder
/-- The contents of MEM. -/
opaque Config.launchFill : LaunchMem
/-- BLOCK_BASE. -/
opaque Config.launchBlockBase : Option Nat

/-- The parameters of the block right after reset: any values within R7's bounds. -/
def Config.launch : Config where
  charW := 8 + Config.launchCharWExtra
  addrW := Config.launchAddrW
  nslot := Config.launchNslotExtra.val + 1
  hostOrder := Config.launchHostOrder
  text := Config.launchText
  fill := Config.launchFill
  blockBase := Config.launchBlockBase

/-! ## The other free values -/

/-- The k-th platform's TEXT_DECODE (00_scope.md R7, OPEN). `textDecode` asks it about one byte or
more only. -/
opaque Config.platformDecode : Nat → TextEncoding → List Byte → Option Text

/-- The byte the k-th launch image of MEM holds at an address (70_reset_and_hazards.md R282). -/
opaque Config.launchByte : Nat → Nat → Byte

end Sys2Proof
end

