-- ==== Sys2Proof/Syntax.lean ====
section
/-! DEFINITION. The commands of the block (one constructor per row of spec/opcode_table.json), the
numeric types, and the request that carries a command. -/

namespace Sys2Proof

/-- The ORD field of a numeric command (30_encoding.md R73): 0, 1, 2; 3 is reserved. -/
inductive Order where
  | native
  | little
  | big
  deriving DecidableEq, Repr, Inhabited

/-- The type index t of a numeric command, 0 to 11 (30_encoding.md R71). -/
inductive NumType where
  | u8 | i8 | u16 | i16 | u32 | i32 | u64 | i64 | u128 | i128 | f32 | f64
  deriving DecidableEq, Repr, Inhabited

/-- The 41 commands (30_encoding.md R76). `slot` is the SLOT field, `ord` the ORD field, `enc` the
ENC field. -/
inductive Instr where
  -- Base32 codec (41_base32.md)
  | b32Enclen
  | b32Declen
  | b32Encode
  | b32Decode
  | b32Strip
  | b32Decodep
  -- cursor control (42_cursor_control.md)
  | curOpenr (slot : Nat)
  | curOpenw (slot : Nat)
  | curGetpos (slot : Nat)
  | curSetpos (slot : Nat)
  | curRem (slot : Nat)
  | curClose (slot : Nat)
  -- numeric reads (43_cursor_read.md)
  | rdU8 (slot : Nat) (ord : Order)
  | rdI8 (slot : Nat) (ord : Order)
  | rdU16 (slot : Nat) (ord : Order)
  | rdI16 (slot : Nat) (ord : Order)
  | rdU32 (slot : Nat) (ord : Order)
  | rdI32 (slot : Nat) (ord : Order)
  | rdU64 (slot : Nat) (ord : Order)
  | rdI64 (slot : Nat) (ord : Order)
  | rdU128 (slot : Nat) (ord : Order)
  | rdI128 (slot : Nat) (ord : Order)
  | rdF32 (slot : Nat) (ord : Order)
  | rdF64 (slot : Nat) (ord : Order)
  -- byte-range reads (43_cursor_read.md)
  | rdBytes (slot : Nat)
  | rdSlice (slot : Nat)
  | rdCstr (slot : Nat)
  | rdStr (slot : Nat) (enc : TextEncoding)
  -- numeric writes (44_cursor_write.md)
  | wrU8 (slot : Nat) (ord : Order)
  | wrI8 (slot : Nat) (ord : Order)
  | wrU16 (slot : Nat) (ord : Order)
  | wrI16 (slot : Nat) (ord : Order)
  | wrU32 (slot : Nat) (ord : Order)
  | wrI32 (slot : Nat) (ord : Order)
  | wrU64 (slot : Nat) (ord : Order)
  | wrI64 (slot : Nat) (ord : Order)
  | wrU128 (slot : Nat) (ord : Order)
  | wrI128 (slot : Nat) (ord : Order)
  | wrF32 (slot : Nat) (ord : Order)
  | wrF64 (slot : Nat) (ord : Order)
  -- byte-range write (44_cursor_write.md)
  | wrBytes (slot : Nat)
  deriving DecidableEq, Repr, Inhabited

/-- A payload: a list of units, bytes or text code units ("a model's request type carries the unit
type", 10_state.md R24; 92_eei_decisions.md D46). -/
inductive Payload where
  | bytes (bs : List Byte)
  | chars (cs : List CodeUnit)
  deriving DecidableEq, Repr, Inhabited

/-- A request (10_state.md R20). -/
structure Request where
  /-- CMD -/
  cmd : CmdWord
  /-- A[0] -/
  a0 : Word64
  /-- A[1] -/
  a1 : Word64
  /-- DIN -/
  din : Word128
  /-- IPAY -/
  ipay : Payload
  deriving DecidableEq, Repr, Inhabited

end Sys2Proof
end

