-- ==== Sys2Proof/WellFormed.lean ====
section
/-! DEFINITION. The checks on the syntax: an instruction's fields fit its word, and a request's
payload can be formed. -/

namespace Sys2Proof

/-- The SLOT field of a cursor command; none for the codec commands, which have none
(30_encoding.md R72). -/
def Instr.slot? : Instr → Option Nat
  | .b32Enclen | .b32Declen | .b32Encode | .b32Decode | .b32Strip | .b32Decodep => none
  | .curOpenr k | .curOpenw k | .curGetpos k | .curSetpos k | .curRem k | .curClose k => some k
  | .rdU8 k _ | .rdI8 k _ | .rdU16 k _ | .rdI16 k _ | .rdU32 k _ | .rdI32 k _ => some k
  | .rdU64 k _ | .rdI64 k _ | .rdU128 k _ | .rdI128 k _ | .rdF32 k _ | .rdF64 k _ => some k
  | .rdBytes k | .rdSlice k | .rdCstr k | .rdStr k _ => some k
  | .wrU8 k _ | .wrI8 k _ | .wrU16 k _ | .wrI16 k _ | .wrU32 k _ | .wrI32 k _ => some k
  | .wrU64 k _ | .wrI64 k _ | .wrU128 k _ | .wrI128 k _ | .wrF32 k _ | .wrF64 k _ => some k
  | .wrBytes k => some k

/-- The SLOT field has 4 bits (30_encoding.md R70). -/
def Instr.wf (i : Instr) : Bool :=
  match i.slot? with
  | none => true
  | some k => decide (k < 16)

/-- The unit type a command's IPAY has (10_state.md R24). -/
inductive PayloadKind where
  /-- The command ignores IPAY. -/
  | ignored
  | bytes
  | chars
  deriving DecidableEq, Repr

/-- Which commands read which units (10_state.md R24, 30_encoding.md R80). -/
def Instr.payloadKind : Instr → PayloadKind
  | .b32Encode | .wrBytes _ => .bytes
  | .b32Decode | .b32Strip | .b32Decodep => .chars
  | _ => .ignored

/-- How many units a payload has. -/
def Payload.length : Payload → Nat
  | .bytes bs => bs.length
  | .chars cs => cs.length

/-- A payload holds at most LEN_MAX units, and each code unit is below 2^CHAR_W
(10_state.md R24). -/
def Payload.fits (c : Config) (p : Payload) : Bool :=
  decide (p.length ≤ lenMax) &&
    match p with
    | .bytes _ => true
    | .chars cs => cs.all fun u => decide (u < 2 ^ c.charW)

/-- A request for i can be formed: its payload has i's unit type and fits (10_state.md R24). -/
def Request.formed (c : Config) (i : Instr) (r : Request) : Bool :=
  match i.payloadKind, r.ipay with
  | .ignored, _ => true
  | .bytes, .bytes bs => (Payload.bytes bs).fits c
  | .chars, .chars cs => (Payload.chars cs).fits c
  | .bytes, .chars _ => false
  | .chars, .bytes _ => false

end Sys2Proof
end

