-- ==== Sys2Proof/Decode.lean ====
section
/-! DEFINITION. The decoder of the command word, then the encoder, both from the tables of
30_encoding.md. -/

namespace Sys2Proof

/-! ## Fields (30_encoding.md R70) -/

/-- OPC = CMD[7:0]. -/
def opcField (w : CmdWord) : BitVec 8 := w.extractLsb' 0 8
/-- SLOT = CMD[11:8]. -/
def slotField (w : CmdWord) : Nat := (w.extractLsb' 8 4).toNat
/-- ORD = CMD[13:12]. -/
def ordField (w : CmdWord) : BitVec 2 := w.extractLsb' 12 2
/-- ENC = CMD[15:14]. -/
def encField (w : CmdWord) : BitVec 2 := w.extractLsb' 14 2
/-- RSV = CMD[31:16]. -/
def rsvField (w : CmdWord) : BitVec 16 := w.extractLsb' 16 16

/-- ORD: 0 native, 1 little, 2 big, 3 reserved (30_encoding.md R73). -/
def orderOfField (o : BitVec 2) : Option Order :=
  match o.toNat with
  | 0 => some .native
  | 1 => some .little
  | 2 => some .big
  | _ => none

/-! ## The opcode map (30_encoding.md R76) with the masks of R77 -/

/-- The groups of 30_encoding.md R77. -/
inductive Group where
  | codec
  | control
  | numeric
  | byteRange
  | string
  deriving DecidableEq, Repr

/-- The mask of a group's rows (30_encoding.md R77): a bit of the mask is fixed by the row. -/
def Group.mask : Group → CmdWord
  | .codec => 0xFFFFFFFF#32
  | .control => 0xFFFFF0FF#32
  | .numeric => 0xFFFFC0FF#32
  | .byteRange => 0xFFFFF0FF#32
  | .string => 0xFFFFF0FF#32

/-- One row of the opcode map: its match value, its group and the command it selects for a SLOT
and an ORD field. -/
structure Row where
  pattern : CmdWord
  group : Group
  build : Nat → Order → Instr

/-- The codec rows. -/
def codecRows : List Row :=
  [ ⟨0x01#32, .codec, fun _ _ => .b32Enclen⟩,
    ⟨0x02#32, .codec, fun _ _ => .b32Declen⟩,
    ⟨0x03#32, .codec, fun _ _ => .b32Encode⟩,
    ⟨0x04#32, .codec, fun _ _ => .b32Decode⟩,
    ⟨0x05#32, .codec, fun _ _ => .b32Strip⟩,
    ⟨0x06#32, .codec, fun _ _ => .b32Decodep⟩ ]

/-- The cursor control rows. -/
def controlRows : List Row :=
  [ ⟨0x10#32, .control, fun k _ => .curOpenr k⟩,
    ⟨0x11#32, .control, fun k _ => .curOpenw k⟩,
    ⟨0x12#32, .control, fun k _ => .curGetpos k⟩,
    ⟨0x13#32, .control, fun k _ => .curSetpos k⟩,
    ⟨0x14#32, .control, fun k _ => .curRem k⟩,
    ⟨0x15#32, .control, fun k _ => .curClose k⟩ ]

/-- The numeric read rows, in the order of the type index t (30_encoding.md R71). -/
def numericReadRows : List Row :=
  [ ⟨0x20#32, .numeric, .rdU8⟩,
    ⟨0x21#32, .numeric, .rdI8⟩,
    ⟨0x22#32, .numeric, .rdU16⟩,
    ⟨0x23#32, .numeric, .rdI16⟩,
    ⟨0x24#32, .numeric, .rdU32⟩,
    ⟨0x25#32, .numeric, .rdI32⟩,
    ⟨0x26#32, .numeric, .rdU64⟩,
    ⟨0x27#32, .numeric, .rdI64⟩,
    ⟨0x28#32, .numeric, .rdU128⟩,
    ⟨0x29#32, .numeric, .rdI128⟩,
    ⟨0x2A#32, .numeric, .rdF32⟩,
    ⟨0x2B#32, .numeric, .rdF64⟩ ]

/-- The byte-range and string read rows. -/
def rangeReadRows : List Row :=
  [ ⟨0x30#32, .byteRange, fun k _ => .rdBytes k⟩,
    ⟨0x31#32, .byteRange, fun k _ => .rdSlice k⟩,
    ⟨0x32#32, .byteRange, fun k _ => .rdCstr k⟩,
    ⟨0x33#32, .string, fun k _ => .rdStr k .utf8⟩ ]

/-- The numeric write rows, in the order of the type index t (30_encoding.md R71). -/
def numericWriteRows : List Row :=
  [ ⟨0x40#32, .numeric, .wrU8⟩,
    ⟨0x41#32, .numeric, .wrI8⟩,
    ⟨0x42#32, .numeric, .wrU16⟩,
    ⟨0x43#32, .numeric, .wrI16⟩,
    ⟨0x44#32, .numeric, .wrU32⟩,
    ⟨0x45#32, .numeric, .wrI32⟩,
    ⟨0x46#32, .numeric, .wrU64⟩,
    ⟨0x47#32, .numeric, .wrI64⟩,
    ⟨0x48#32, .numeric, .wrU128⟩,
    ⟨0x49#32, .numeric, .wrI128⟩,
    ⟨0x4A#32, .numeric, .wrF32⟩,
    ⟨0x4B#32, .numeric, .wrF64⟩ ]

/-- The byte-range write row. -/
def rangeWriteRows : List Row :=
  [ ⟨0x50#32, .byteRange, fun k _ => .wrBytes k⟩ ]

/-- The opcode map (30_encoding.md R76, spec/opcode_table.json). -/
def opcodeRows : List Row :=
  codecRows ++ controlRows ++ numericReadRows ++ rangeReadRows ++ numericWriteRows ++ rangeWriteRows

/-- A word matches a row when its bits under the row's mask are the row's match value
(30_encoding.md R77). -/
def Row.matches (row : Row) (w : CmdWord) : Bool :=
  (w &&& row.group.mask) == row.pattern

/-- The decoder: total over all words; none is ILLEGAL (30_encoding.md R78). A numeric row takes no
word with ORD = 3; the other rows' masks hold ORD at 0. -/
def decode (w : CmdWord) : Option Instr :=
  match opcodeRows.find? (·.matches w) with
  | none => none
  | some row =>
    match orderOfField (ordField w) with
    | none => none
    | some o => some (row.build (slotField w) o)

/-! ## The encoder -/

/-- The ORD field of a byte order (30_encoding.md R73). -/
def Order.field : Order → BitVec 32
  | .native => 0#32
  | .little => 1#32
  | .big => 2#32

/-- The ENC field of a text encoding (30_encoding.md R74). -/
def TextEncoding.field : TextEncoding → BitVec 32
  | .utf8 => 0#32

/-- A command word from its opcode and fields (30_encoding.md R70); RSV is zero (R75). -/
def cmdWord (opc : BitVec 32) (slot : Nat) (ord enc : BitVec 32) : CmdWord :=
  opc ||| (BitVec.ofNat 32 slot <<< 8) ||| (ord <<< 12) ||| (enc <<< 14)

/-- The word of a command with no fields. -/
def bareWord (opc : BitVec 32) : CmdWord := cmdWord opc 0 0#32 0#32
/-- The word of a command with a SLOT field only. -/
def slotWord (opc : BitVec 32) (k : Nat) : CmdWord := cmdWord opc k 0#32 0#32
/-- The word of a numeric command. -/
def numWord (opc : BitVec 32) (k : Nat) (o : Order) : CmdWord := cmdWord opc k o.field 0#32

/-- The command word of an instruction (30_encoding.md R70 to R77). -/
def encode : Instr → CmdWord
  | .b32Enclen => bareWord 0x01#32
  | .b32Declen => bareWord 0x02#32
  | .b32Encode => bareWord 0x03#32
  | .b32Decode => bareWord 0x04#32
  | .b32Strip => bareWord 0x05#32
  | .b32Decodep => bareWord 0x06#32
  | .curOpenr k => slotWord 0x10#32 k
  | .curOpenw k => slotWord 0x11#32 k
  | .curGetpos k => slotWord 0x12#32 k
  | .curSetpos k => slotWord 0x13#32 k
  | .curRem k => slotWord 0x14#32 k
  | .curClose k => slotWord 0x15#32 k
  | .rdU8 k o => numWord 0x20#32 k o
  | .rdI8 k o => numWord 0x21#32 k o
  | .rdU16 k o => numWord 0x22#32 k o
  | .rdI16 k o => numWord 0x23#32 k o
  | .rdU32 k o => numWord 0x24#32 k o
  | .rdI32 k o => numWord 0x25#32 k o
  | .rdU64 k o => numWord 0x26#32 k o
  | .rdI64 k o => numWord 0x27#32 k o
  | .rdU128 k o => numWord 0x28#32 k o
  | .rdI128 k o => numWord 0x29#32 k o
  | .rdF32 k o => numWord 0x2A#32 k o
  | .rdF64 k o => numWord 0x2B#32 k o
  | .rdBytes k => slotWord 0x30#32 k
  | .rdSlice k => slotWord 0x31#32 k
  | .rdCstr k => slotWord 0x32#32 k
  | .rdStr k e => cmdWord 0x33#32 k 0#32 e.field
  | .wrU8 k o => numWord 0x40#32 k o
  | .wrI8 k o => numWord 0x41#32 k o
  | .wrU16 k o => numWord 0x42#32 k o
  | .wrI16 k o => numWord 0x43#32 k o
  | .wrU32 k o => numWord 0x44#32 k o
  | .wrI32 k o => numWord 0x45#32 k o
  | .wrU64 k o => numWord 0x46#32 k o
  | .wrI64 k o => numWord 0x47#32 k o
  | .wrU128 k o => numWord 0x48#32 k o
  | .wrI128 k o => numWord 0x49#32 k o
  | .wrF32 k o => numWord 0x4A#32 k o
  | .wrF64 k o => numWord 0x4B#32 k o
  | .wrBytes k => slotWord 0x50#32 k

/-- The instruction the decoder reads from the table word w of nbits bits. A command is one 32-bit
word (30_encoding.md R70), which arrives as a value, not as bytes (20_memory.md R57); the bits
above nbits are 0. -/
def decodeTableWord (nbits w : Nat) : Option Instr :=
  if nbits ≤ 32 then decode (BitVec.ofNat 32 (w % 2 ^ nbits)) else none

/-- The empty payload of the unit type the command of a word reads (10_state.md R24). -/
def emptyPayload (w : CmdWord) : Payload :=
  match (decode w).map Instr.payloadKind with
  | some .chars => .chars []
  | _ => .bytes []

/-- The request that carries the command word w with zero operands and an empty payload. -/
def Request.ofWord (w : CmdWord) : Request :=
  { cmd := w, a0 := 0#64, a1 := 0#64, din := 0#128, ipay := emptyPayload w }

end Sys2Proof
end

