-- ==== Sys2Proof/Machine/State.lean ====
section
/-! DEFINITION. The state of the block, of its request and response, and of the host's coming moves;
the reasons a step can stop; the state right after reset. -/

namespace Sys2Proof.Machine

/-- The mode of a slot: reader (0) or writer (1), fixed at construction (10_state.md R30). -/
inductive Mode where
  | reader
  | writer
  deriving DecidableEq, Repr, Inhabited

/-- The cursor a bound slot holds (10_state.md R30). An unbound slot holds none (R36). -/
structure Cursor where
  mode : Mode
  /-- The MEM address of the first byte of the region. -/
  origin : Nat
  /-- The byte extent of the region. -/
  length : Nat
  /-- The cursor offset. -/
  pos : Nat
  deriving DecidableEq, Repr, Inhabited

/-- The completion codes (60_exceptions.md R250); `Status.code` (Machine/Flags.lean) numbers them. -/
inductive Status where
  | ok
  | invalidCharacter
  | bufferUnderrun
  | bufferOverrun
  | malformedData
  | invalidArgument
  | illegalCommand
  deriving DecidableEq, Repr, Inhabited

/-- A response (10_state.md R20). A field that holds no value is absent (R28 "A model represents it
as absent"). -/
structure Response where
  /-- STATUS -/
  status : Status
  /-- EINFO -/
  einfo : Option CodeUnit := none
  /-- DOUT -/
  dout : Option Word128 := none
  /-- OPAY -/
  opay : Option Payload := none
  /-- OTEXT -/
  otext : Option Text := none
  deriving DecidableEq, Repr

/-- The fields of a response a host can read. -/
inductive Field where
  | status
  | einfo
  | dout
  | opay
  | otext
  deriving DecidableEq, Repr

/-- The phase of the encoder FSM (10_state.md R38). -/
inductive EncPhase where
  | loop
  | pad
  | done
  deriving DecidableEq, Repr

/-- The encoder's registers (10_state.md R38), for an accumulator of w bits (the block's w is
ACC_W = 16), and the output list being built (41_base32.md section 3). -/
structure EncRegs (w : Nat) where
  /-- ACC -/
  acc : BitVec w
  /-- REM, the count of valid bits in ACC -/
  rem : Nat
  /-- I, the index of the next source byte to load -/
  i : Nat
  /-- O, the count of output units written so far -/
  o : Nat
  /-- PHASE -/
  phase : EncPhase
  /-- out -/
  out : List CodeUnit
  deriving DecidableEq, Repr

/-- The phase of the decoder FSM (10_state.md R39). -/
inductive DecPhase where
  | loop
  | done
  deriving DecidableEq, Repr

/-- The decoder's registers (10_state.md R39), for an accumulator of w bits, and the output list
being built (41_base32.md section 4). -/
structure DecRegs (w : Nat) where
  /-- ACC -/
  acc : BitVec w
  /-- REM, the count of valid bits in ACC -/
  rem : Nat
  /-- J, the index of the next source character -/
  j : Nat
  /-- O, the count of output bytes written so far -/
  o : Nat
  /-- PHASE -/
  phase : DecPhase
  /-- out -/
  out : List Byte
  deriving DecidableEq, Repr

/-- The Base32 unit's internal registers. They live inside one codec command and do not survive it
(10_state.md R40): at every command boundary the unit is idle. Log 6. -/
inductive Codec where
  | idle
  | encoder (r : EncRegs accW)
  | decoder (r : DecRegs accW)
  deriving DecidableEq, Repr

/-- MEM: the bytes that differ from the launch contents, by rising address (20_memory.md R50). -/
abbrev Memory := List Host.Cell

/-- What the host does to the block between commands. Log 4. -/
inductive HostAction where
  /-- Issue a request (10_state.md R20). -/
  | issue (r : Request)
  /-- Store bytes to MEM directly (20_memory.md R64). -/
  | store (addr : Nat) (bs : List Byte)
  /-- Read a field of the last response (10_state.md R28). -/
  | readField (f : Field)
  /-- Assert reset (70_reset_and_hazards.md R280). -/
  | reset
  deriving DecidableEq, Repr

/-- The whole state. Plain data. -/
structure State where
  /-- The block's parameters (00_scope.md R7); no step changes them. Log 1. -/
  cfg : Config
  /-- The bound slots, by rising slot number, each with its cursor (10_state.md R30, R36). Log 15. -/
  slots : List (Nat × Cursor)
  /-- MEM. -/
  mem : Memory
  /-- The request port: the pending request, if any (10_state.md R20, R42). -/
  req : Option Request
  /-- The response to the last command; none before the first (10_state.md R42). -/
  resp : Option Response
  /-- The Base32 unit's registers (10_state.md R38 to R40). -/
  codec : Codec
  /-- Every response that was not OK, oldest first (60_exceptions.md R262). -/
  history : List Response
  /-- The model's own: the host's coming actions, in the order taken. Log 4. -/
  host : List HostAction
  deriving DecidableEq, Repr

/-- Why the machine stops with a fault. All are safe: the model stops where the spec gives no
value or no move. -/
inductive Fault where
  /-- A meaning was run with no request on the port. Raised by `withRequest`; no step raises it,
  since `step` runs a meaning only for a pending request. Safe. Log 13. -/
  | noRequest
  /-- An access to an address that MEM does not have (20_memory.md R50). Raised by a host store
  outside MEM, and by a command on a cursor whose region is not inside MEM, which no construction
  makes (42_cursor_control.md R152). Safe. Log 12. -/
  | outsideMem
  /-- The host read a response field that holds no value (10_state.md R28 "a host read of an absent
  field is a fault of the model"). Raised by HostAction.readField. Safe. Log 8. -/
  | absentField (f : Field)
  deriving DecidableEq, Repr

/-- Why the model gives no meaning. Both are safe: the model stops. -/
inductive Refusal where
  /-- The instruction has no meaning yet: raised only in exec's arms. Safe. -/
  | notModelled (mnemonic : String)
  /-- The request cannot be formed: IPAY has not the command's unit type, more than LEN_MAX units,
  or a code unit of more than CHAR_W bits (10_state.md R24 "A request whose payload units do not
  fit the command's unit type cannot be formed"). Raised by `withBytes` and `withChars`. Safe.
  Log 7. -/
  | unformedRequest
  deriving DecidableEq, Repr

/-- What a command answers. -/
abbrev Result := Host.Outcome State Fault Refusal

/-- The block right after reset (10_state.md R42, 70_reset_and_hazards.md R280 to R282): every slot
unbound, no request pending, no response defined, the codec idle; MEM holds its launch contents.
The history is empty and the host has no coming action (DESIGN CHOICE, log 9 and log 4). -/
def State.reset : State where
  cfg := Config.launch
  slots := []
  mem := []
  req := none
  resp := none
  codec := .idle
  history := []
  host := []

end Sys2Proof.Machine
end

