-- ==== Sys2Proof/Machine/Flags.lean ====
section
/-! DEFINITION. The block has no condition codes and no flags; STATUS is the only status indicator
(10_state.md R43). This file holds the status codes and the responses that carry them. -/

namespace Sys2Proof.Machine

/-- The 8-bit value of STATUS (60_exceptions.md R250). -/
def Status.code : Status → BitVec 8
  | .ok => 0#8
  | .invalidCharacter => 1#8
  | .bufferUnderrun => 2#8
  | .bufferOverrun => 3#8
  | .malformedData => 4#8
  | .invalidArgument => 5#8
  | .illegalCommand => 6#8

/-- `complete()`: OK with no field (00_scope.md notation). -/
def okResponse : Response := { status := .ok }

/-- `complete(DOUT <- v)`. -/
def valueResponse (v : Word128) : Response := { status := .ok, dout := some v }

/-- `complete(DOUT <- v, OPAY <- p)`. -/
def payloadResponse (v : Word128) (p : Payload) : Response :=
  { status := .ok, dout := some v, opay := some p }

/-- `complete(DOUT <- v, OPAY <- p, OTEXT <- t)`. -/
def textResponse (v : Word128) (p : Payload) (t : Text) : Response :=
  { status := .ok, dout := some v, opay := some p, otext := some t }

/-- `raise <Status>()`: the status and no field. -/
def failResponse (st : Status) : Response := { status := st }

/-- `raise InvalidCharacter(EINFO <- c, DOUT <- j)` (41_base32.md R126). -/
def badCharResponse (c : CodeUnit) (j : Nat) : Response :=
  { status := .invalidCharacter, einfo := some c, dout := some (BitVec.ofNat 128 j) }

/-- Whether a response field holds a value (10_state.md R25 to R28). STATUS always does. -/
def Response.has (r : Response) : Field → Bool
  | .status => true
  | .einfo => r.einfo.isSome
  | .dout => r.dout.isSome
  | .opay => r.opay.isSome
  | .otext => r.otext.isSome

end Sys2Proof.Machine
end

