-- ==== Sys2Proof/Machine/Operands.lean ====
section
/-! DEFINITION. Operand forms: signed and unsigned readings, widths and kinds of the numeric types,
byte orders, result extension, text decoding. -/

namespace Sys2Proof.Machine

/-! ## Operand registers (10_state.md R22) -/

/-- `sint_64(A[i])`: a count, position, length or capacity. -/
def signedOperand (a : Word64) : Int := a.toInt

/-- A[i] as a MEM address, a natural below 2^64. -/
def addressOperand (a : Word64) : Nat := a.toNat

/-- `zext_128` of a natural. -/
def zext128 (n : Nat) : Word128 := BitVec.ofNat 128 n

/-! ## Numeric types (30_encoding.md R71) -/

/-- How a read extends its value to DOUT (43_cursor_read.md R182). -/
inductive NumKind where
  | unsigned
  | signed
  | float
  deriving DecidableEq, Repr

/-- W, in bytes. -/
def numWidth : NumType → Nat
  | .u8 | .i8 => 1
  | .u16 | .i16 => 2
  | .u32 | .i32 | .f32 => 4
  | .u64 | .i64 | .f64 => 8
  | .u128 | .i128 => 16

/-- The kind of a type. -/
def numKind : NumType → NumKind
  | .u8 | .u16 | .u32 | .u64 | .u128 => .unsigned
  | .i8 | .i16 | .i32 | .i64 | .i128 => .signed
  | .f32 | .f64 => .float

/-! ## Byte order (20_memory.md R54, 00_scope.md section 4) -/

/-- `LE(bs)`: the byte at the lowest address is least significant. -/
def leValue : List Byte → Nat
  | [] => 0
  | b :: bs => b.toNat + 256 * leValue bs

/-- `BE(bs)`: the byte at the lowest address is most significant. -/
def beValue (bs : List Byte) : Nat := leValue bs.reverse

/-- `toLE(v, n)`: the n low bytes of v, least significant first. -/
def toLE : Nat → Nat → List Byte
  | 0, _ => []
  | n + 1, v => BitVec.ofNat 8 v :: toLE n (v / 256)

/-- `toBE(v, n)`. -/
def toBE (n v : Nat) : List Byte := (toLE n v).reverse

/-- `value(bs, ord)`. -/
def bytesValue (e : Endian) (bs : List Byte) : Nat :=
  match e with
  | .little => leValue bs
  | .big => beValue bs

/-- The bytes of v in the order e, n of them. -/
def valueBytes (e : Endian) (n v : Nat) : List Byte :=
  match e with
  | .little => toLE n v
  | .big => toBE n v

/-- `EffOrder(ord)` (43_cursor_read.md R181). -/
def effOrder (c : Config) : Order → Endian
  | .native => c.hostOrder
  | .little => .little
  | .big => .big

/-! ## Result extension and value written -/

/-- DOUT from the raw value of a numeric read (43_cursor_read.md R182): `sext_128` for the signed
types, `zext_128` for the unsigned and float types. -/
def extendRead (t : NumType) (raw : Nat) : Word128 :=
  match numKind t with
  | .signed => (BitVec.ofNat (8 * numWidth t) raw).signExtend 128
  | .unsigned => zext128 raw
  | .float => zext128 raw

/-- `DIN[8W-1:0]` (10_state.md R23, 44_cursor_write.md R233). -/
def writeValue (t : NumType) (din : Word128) : Nat := din.toNat % 2 ^ (8 * numWidth t)

/-! ## Text (43_cursor_read.md R198, R199; 92_eei_decisions.md D30) -/

/-- A code point UTF-8 may encode: at most 0x10FFFF and no surrogate. PRESUMED (log 2). -/
def scalarValue (cp : Nat) : Bool :=
  decide (cp ≤ 0x10FFFF) && !(decide (0xD800 ≤ cp) && decide (cp ≤ 0xDFFF))

/-- Standard UTF-8, strict: `need` continuation bytes are still to come for the code point whose
bits so far are `acc` and whose least legal value is `least`. PRESUMED (log 2). -/
def utf8Go (need acc least : Nat) : List Byte → Option Text
  | [] => if need = 0 then some [] else none
  | b :: bs =>
    let n := b.toNat
    if need = 0 then
      if n < 0x80 then (utf8Go 0 0 0 bs).map (n :: ·)
      else if 0xC0 ≤ n ∧ n < 0xE0 then utf8Go 1 (n - 0xC0) 0x80 bs
      else if 0xE0 ≤ n ∧ n < 0xF0 then utf8Go 2 (n - 0xE0) 0x800 bs
      else if 0xF0 ≤ n ∧ n < 0xF8 then utf8Go 3 (n - 0xF0) 0x10000 bs
      else none
    else if 0x80 ≤ n ∧ n < 0xC0 then
      let acc' := acc * 64 + (n - 0x80)
      if need = 1 then
        if least ≤ acc' ∧ scalarValue acc' = true then (utf8Go 0 0 0 bs).map (acc' :: ·) else none
      else utf8Go (need - 1) acc' least bs
    else none

/-- Standard UTF-8. PRESUMED (log 2). -/
def utf8Decode (bs : List Byte) : Option Text := utf8Go 0 0 0 bs

/-- TEXT_DECODE (00_scope.md R7): the block's parameter names it. No bytes give the empty text under
every decoder: "`n = 0` gives the empty text" (43_cursor_read.md R199; R198 says the same of k = 0). -/
def textDecode (c : Config) (enc : TextEncoding) (bs : List Byte) : Option Text :=
  match bs with
  | [] => some []
  | b :: rest =>
    match c.text with
    | .platform k => Config.platformDecode k enc (b :: rest)
    | .standardUtf8 =>
      match enc with
      | .utf8 => utf8Decode (b :: rest)

end Sys2Proof.Machine
end

