-- ==== Sys2Proof/Machine/Ops.lean ====
section
/-! DEFINITION. The named operations over MEM, the slot file and the response: how a command
completes, how it fails, how it reaches its request, its slot and its region.

The block has no trap entry and no return from one (60_exceptions.md R261). What stands in their
place is the completion of a command with a status: `State.complete` and `State.fail`. -/

namespace Sys2Proof.Machine

/-! ## Lists of numbered entries, by rising number -/

/-- The value listed for k. -/
def assocGet {α : Type} (k : Nat) : List (Nat × α) → Option α
  | [] => none
  | e :: l => if e.1 = k then some e.2 else assocGet k l

/-- Remove every entry of k. -/
def assocDel {α : Type} (k : Nat) (l : List (Nat × α)) : List (Nat × α) :=
  l.filter fun e => decide (e.1 ≠ k)

/-- List v for k, at its place among rising numbers. -/
def assocPut {α : Type} (k : Nat) (v : α) : List (Nat × α) → List (Nat × α)
  | [] => [(k, v)]
  | e :: l =>
    if e.1 < k then e :: assocPut k v l
    else if e.1 = k then (k, v) :: l
    else (k, v) :: e :: l

/-- The numbers rise strictly. -/
def assocRising {α : Type} : List (Nat × α) → Bool
  | [] => true
  | e :: l => (l.all fun f => decide (e.1 < f.1)) && assocRising l

/-! ## MEM (20_memory.md) -/

/-- What an address that no entry lists reads as: MEM's launch contents, which the spec leaves to
the host (70_reset_and_hazards.md R282). Log 3. -/
def unlistedByte (c : Config) (a : Nat) : Byte :=
  match c.fill with
  | .unknown k => Config.launchByte k a
  | .filled b => b

/-- `MEM[a]`. -/
def memGet (c : Config) (m : Memory) (a : Nat) : Byte :=
  (assocGet a m).getD (unlistedByte c a)

/-- `MEM[a] <- b`, keeping the canonical form: no entry lists what an unlisted address reads as. -/
def memSet (c : Config) (m : Memory) (a : Nat) (b : Byte) : Memory :=
  if b = unlistedByte c a then assocDel a m else assocPut a b m

/-- `MemRead(a, n)` (00_scope.md section 4). -/
def memRead (c : Config) (m : Memory) (a : Nat) : Nat → List Byte
  | 0 => []
  | n + 1 => memGet c m a :: memRead c m (a + 1) n

/-- `MemWrite(a, |bs|, bs)` (00_scope.md section 4). -/
def memWrite (c : Config) (m : Memory) (a : Nat) : List Byte → Memory
  | [] => m
  | b :: bs => memWrite c (memSet c m a b) (a + 1) bs

/-- The canonical form of a memory: addresses rise strictly, and no entry equals what an unlisted
address reads as. -/
def Memory.wf (c : Config) (m : Memory) : Bool :=
  assocRising m && m.all fun e => decide (e.2 ≠ unlistedByte c e.1)

/-- The bytes [a, a + n) exist (20_memory.md R50: addresses 0 .. 2^ADDR_W - 1). -/
def Config.inMem (c : Config) (a n : Nat) : Bool := decide (a + n ≤ 2 ^ c.addrW)

/-- The byte of MEM at a. -/
def State.readByte (s : State) (a : Nat) : Byte := memGet s.cfg s.mem a

/-- MemRead in a state. -/
def State.readBytes (s : State) (a n : Nat) : List Byte := memRead s.cfg s.mem a n

/-- MemWrite in a state. -/
def State.writeBytes (s : State) (a : Nat) (bs : List Byte) : State :=
  { s with mem := memWrite s.cfg s.mem a bs }

/-! ## Cursors and the slot file (10_state.md section 2) -/

/-- `remaining(s)` (10_state.md R34). -/
def Cursor.remaining (c : Cursor) : Nat := c.length - c.pos

/-- The MEM address of the byte at the position (20_memory.md R52). -/
def Cursor.address (c : Cursor) : Nat := c.origin + c.pos

/-- The cursor n bytes further on. -/
def Cursor.advance (c : Cursor) (n : Nat) : Cursor := { c with pos := c.pos + n }

/-- The region lies in MEM (10_state.md R32). -/
def Cursor.regionInMem (c : Cursor) (cfg : Config) : Bool :=
  Config.inMem cfg c.origin c.length

/-- SLOT[k]: its cursor, or none where it is unbound. -/
def State.slot (s : State) (k : Nat) : Option Cursor := assocGet k s.slots

/-- SLOT[k] <- c. -/
def State.setSlot (s : State) (k : Nat) (c : Cursor) : State :=
  { s with slots := assocPut k c s.slots }

/-- SLOT[k].bound <- 0. -/
def State.clearSlot (s : State) (k : Nat) : State :=
  { s with slots := assocDel k s.slots }

/-- The variant of cursor a command needs (42_cursor_control.md R154). -/
inductive Need where
  | reader
  | writer
  | any
  deriving DecidableEq, Repr

/-- Whether a mode is the needed one. -/
def Need.allows : Need → Mode → Bool
  | .any, _ => true
  | .reader, .reader => true
  | .writer, .writer => true
  | .reader, .writer => false
  | .writer, .reader => false

/-- `CheckSlot(k, need)` (42_cursor_control.md R154): the cursor, or none where the command fails
with IllegalCommand (index, bound, mode: one status for all three, 60_exceptions.md R259). -/
def State.checkSlot (s : State) (k : Nat) (need : Need) : Option Cursor :=
  match s.slot k with
  | none => none
  | some c => if k < s.cfg.nslot ∧ need.allows c.mode = true then some c else none

/-! ## Completion (00_scope.md `complete` and `raise`; 60_exceptions.md section 3) -/

/-- The command ends with response r. The request is gone (10_state.md R21, log 17), the codec's
registers do not survive the command (R40), and a response that is not OK is appended to the
history (60_exceptions.md R262). -/
def State.complete (s : State) (r : Response) : State :=
  { s with
    req := none
    resp := some r
    codec := .idle
    history := if r.status = .ok then s.history else s.history ++ [r] }

/-- `raise <Status>()`: nothing but the response changes (60_exceptions.md R256). -/
def State.fail (s : State) (st : Status) : State := s.complete (failResponse st)

/-- The completion of a word that decodes to ILLEGAL (30_encoding.md R78). -/
def State.illegal (s : State) : State := s.fail .illegalCommand

/-! ## Reaching the request, the payload, the slot and the region -/

/-- Run f on the pending request. -/
def withRequest (s : State) (f : Request → Result) : Result :=
  match s.req with
  | none => .fault .noRequest
  | some r => f r

/-- Run f on the bytes of IPAY (10_state.md R24). -/
def withBytes (s : State) (r : Request) (f : List Byte → Result) : Result :=
  match r.ipay with
  | .chars _ => .refused .unformedRequest
  | .bytes bs => if (Payload.bytes bs).fits s.cfg then f bs else .refused .unformedRequest

/-- Run f on the code units of IPAY (10_state.md R24). -/
def withChars (s : State) (r : Request) (f : List CodeUnit → Result) : Result :=
  match r.ipay with
  | .bytes _ => .refused .unformedRequest
  | .chars cs => if (Payload.chars cs).fits s.cfg then f cs else .refused .unformedRequest

/-- A command that only looks at or moves a cursor: CheckSlot, then f. -/
def onSlot (s : State) (k : Nat) (need : Need) (f : Cursor → State) : Result :=
  .next (match s.checkSlot k need with
    | none => s.fail .illegalCommand
    | some c => f c)

/-- A command that reaches MEM through a cursor: CheckSlot, then f. A cursor whose region is not
inside MEM, which no construction makes, faults. Log 12. -/
def onRegion (s : State) (k : Nat) (need : Need) (f : Cursor → State) : Result :=
  match s.checkSlot k need with
  | none => .next (s.fail .illegalCommand)
  | some c => if c.regionInMem s.cfg then .next (f c) else .fault .outsideMem

/-! ## Reset by the host (70_reset_and_hazards.md R280 to R282) -/

/-- Reset: every slot unbound, no response, no request; MEM, the parameters and the history stay.
Log 19. -/
def State.resetBlock (s : State) : State :=
  { s with slots := [], req := none, resp := none, codec := .idle }

/-- One action of the host, taken between commands. Log 4. -/
def hostStep (s : State) : HostAction → Result
  | .issue r => .next { s with req := some r }
  | .store a bs =>
    if Config.inMem s.cfg a bs.length then .next (s.writeBytes a bs) else .fault .outsideMem
  | .readField f =>
    match s.resp with
    | none => .fault (.absentField f)
    | some r => if r.has f then .next s else .fault (.absentField f)
  | .reset => .next s.resetBlock

end Sys2Proof.Machine
end

