-- ==== Sys2Proof/Machine/Base32.lean ====
section
/-! DEFINITION. The Base32 unit (41_base32.md): alphabet, size functions, the encoder and decoder
state machines, and the meanings of the six B32 commands. -/

namespace Sys2Proof.Machine

/-! ## Alphabet and size functions (section 1) -/

/-- `char_to_value` (R101); none is INVALID. -/
def charToValue (c : CodeUnit) : Option Nat :=
  if 0x41 ≤ c ∧ c ≤ 0x5A then some (c - 0x41)
  else if 0x32 ≤ c ∧ c ≤ 0x37 then some (c - 0x32 + 26)
  else none

/-- `ALPHABET[v]` (R102, 10_state.md R41). -/
def alphabet (v : Nat) : CodeUnit :=
  if v ≤ 25 then 0x41 + v else 0x32 + (v - 26)

/-- `PAD`, the character '=' (R103). -/
def padChar : CodeUnit := 0x3D

/-- `encoded_length(n) = ceil(n / 5) * 8` (R104). -/
def encodedLength (n : Nat) : Nat := (n + 4) / 5 * 8

/-- `decoded_length(n) = floor(n * 5 / 8)` (R105). -/
def decodedLength (n : Nat) : Nat := n * 5 / 8

/-! ## The encoder (section 3), for an accumulator of w bits -/

/-- Encoder start (R116). -/
def encStart (w : Nat) (src : List Byte) : EncRegs w :=
  { acc := (src.getD 0 0#8).setWidth w, rem := 8, i := 1, o := 0, phase := .loop, out := [] }

/-- Encoder load (R118) or flush (R119), where one applies. -/
def encFill {w : Nat} (src : List Byte) (r : EncRegs w) : EncRegs w :=
  if r.rem < 5 ∧ r.i < src.length then
    { r with
      acc := (r.acc <<< 8) ||| (src.getD r.i 0#8).setWidth w
      rem := r.rem + 8
      i := r.i + 1 }
  else if r.rem < 5 then
    { r with acc := r.acc <<< (5 - r.rem), rem := 5 }
  else r

/-- Encoder emit (R120). -/
def encEmit {w : Nat} (r : EncRegs w) : EncRegs w :=
  let sym := ((r.acc >>> (r.rem - 5)) &&& BitVec.ofNat w 0x1F).toNat
  { r with out := r.out ++ [alphabet sym], o := r.o + 1, rem := r.rem - 5 }

/-- Encoder padding (R121), one character a step; the step that writes the last one is the last
step. Log 18. -/
def encPad {w : Nat} (src : List Byte) (r : EncRegs w) : EncRegs w :=
  let total := encodedLength src.length
  if r.o < total then
    { r with
      out := r.out ++ [padChar]
      o := r.o + 1
      phase := if r.o + 1 < total then .pad else .done }
  else { r with phase := .done }

/-- One step of the encoder (R117 to R121). -/
def encStep {w : Nat} (src : List Byte) (r : EncRegs w) : EncRegs w :=
  match r.phase with
  | .loop =>
    if r.rem = 0 ∧ r.i = src.length then { r with phase := .pad }
    else encEmit (encFill src r)
  | .pad => encPad src r
  | .done => r

/-- k steps of the encoder. -/
def encSteps {w : Nat} (src : List Byte) : Nat → EncRegs w → EncRegs w
  | 0, r => r
  | k + 1, r => encSteps src k (encStep src r)

/-- How many steps an encoding takes at most (R122, 70_reset_and_hazards.md R291):
`ceil(8n/5) + 7`. -/
def encBound (n : Nat) : Nat := (8 * n + 4) / 5 + 7

/-- The encoder's registers at DONE, for a source of at least one byte. -/
def encRun (w : Nat) (src : List Byte) : EncRegs w :=
  encSteps src (encBound src.length) (encStart w src)

/-! ## The decoder (section 4), for an accumulator of w bits -/

/-- Decoder start (R123). -/
def decStart (w : Nat) : DecRegs w :=
  { acc := 0#w, rem := 0, j := 0, o := 0, phase := .loop, out := [] }

/-- Take in one 5-bit value, and emit a byte where 8 bits are there (R124). -/
def decTake {w : Nat} (r : DecRegs w) (v : Nat) : DecRegs w :=
  let acc := (r.acc <<< 5) ||| BitVec.ofNat w v
  let rem := r.rem + 5
  if 8 ≤ rem then
    { r with
      acc := acc
      rem := rem - 8
      j := r.j + 1
      o := r.o + 1
      out := r.out ++ [((acc >>> (rem - 8)) &&& BitVec.ofNat w 0xFF).setWidth 8] }
  else { r with acc := acc, rem := rem, j := r.j + 1 }

/-- A non-alphabet character and its index (R126). -/
structure BadChar where
  char : CodeUnit
  index : Nat
  deriving DecidableEq, Repr

/-- One step of the decoder in phase LOOP (R124); an error is rule R126's. -/
def decStep {w : Nat} (src : List CodeUnit) (r : DecRegs w) : Except BadChar (DecRegs w) :=
  if r.j = src.length then .ok { r with phase := .done }
  else
    let c := src.getD r.j 0
    match charToValue c with
    | none => .error { char := c, index := r.j }
    | some v => .ok (decTake r v)

/-- At most k steps of the decoder, stopping at DONE or at a non-alphabet character. -/
def decSteps {w : Nat} (src : List CodeUnit) : Nat → DecRegs w → Except BadChar (DecRegs w)
  | 0, r => .ok r
  | k + 1, r =>
    match r.phase with
    | .done => .ok r
    | .loop =>
      match decStep src r with
      | .error e => .error e
      | .ok r' => decSteps src k r'

/-- The decoder's registers at DONE, or the first non-alphabet character: n + 1 steps (R125). -/
def decRun (w : Nat) (src : List CodeUnit) : Except BadChar (DecRegs w) :=
  decSteps src (src.length + 1) (decStart w)

/-! ## Stripping (R110) -/

/-- The number of units left when every trailing '=' is stripped: m from n down. -/
def stripFrom (src : List CodeUnit) : Nat → Nat
  | 0 => 0
  | m + 1 => if src.getD m 0 = padChar then stripFrom src m else m + 1

/-- The stripped count of a text (R110). -/
def strippedCount (src : List CodeUnit) : Nat := stripFrom src src.length

/-! ## The codec's registers in State -/

/-- Hold the FSM's registers in State while the command runs (10_state.md R38, R39). -/
def State.loadCodec (s : State) (c : Codec) : State := { s with codec := c }

/-- The response of a codec command whose FSM is at DONE: the output list and its length. -/
def codecResponse : Codec → Response
  | .encoder r => payloadResponse (zext128 r.out.length) (.chars r.out)
  | .decoder r => payloadResponse (zext128 r.out.length) (.bytes r.out)
  | .idle => okResponse

/-- The command ends with the output of the FSM run whose registers at DONE are c. -/
def State.finishCodec (s : State) (c : Codec) : State :=
  let t := s.loadCodec c
  t.complete (codecResponse t.codec)

/-- Run the decoder on src and complete (R109, R111, R126). -/
def State.runDecoder (s : State) (src : List CodeUnit) : State :=
  match decRun accW src with
  | .error e => s.complete (badCharResponse e.char e.index)
  | .ok r => s.finishCodec (.decoder r)

/-- A capacity that is negative or below the required size (92_eei_decisions.md D10). -/
def capTooSmall (a : Word64) (size : Nat) : Bool :=
  decide (signedOperand a < 0) || decide (signedOperand a < (size : Int))

/-- A size function as a command (R106, R107): `n < 0` is InvalidArgument. -/
def sizeCommand (s : State) (size : Nat → Nat) : Result :=
  withRequest s fun r =>
    .next (if signedOperand r.a0 < 0 then s.fail .invalidArgument
      else s.complete (valueResponse (zext128 (size (signedOperand r.a0).toNat))))

/-! ## The meanings (section 2) -/

/-- B32.ENCLEN (R106). -/
def execB32Enclen (s : State) : Result := sizeCommand s encodedLength

/-- B32.DECLEN (R107). -/
def execB32Declen (s : State) : Result := sizeCommand s decodedLength

/-- B32.ENCODE (R108). -/
def execB32Encode (s : State) : Result :=
  withRequest s fun r => withBytes s r fun bs =>
    .next (if capTooSmall r.a0 (encodedLength bs.length) then s.fail .invalidArgument
      else if bs.length = 0 then s.complete (payloadResponse 0#128 (.chars []))
      else s.finishCodec (.encoder (encRun accW bs)))

/-- B32.DECODE (R109). -/
def execB32Decode (s : State) : Result :=
  withRequest s fun r => withChars s r fun cs =>
    .next (if capTooSmall r.a0 (decodedLength cs.length) then s.fail .invalidArgument
      else s.runDecoder cs)

/-- B32.STRIP (R110). -/
def execB32Strip (s : State) : Result :=
  withRequest s fun r => withChars s r fun cs =>
    .next (s.complete (valueResponse (zext128 (strippedCount cs))))

/-- B32.DECODEP (R111). -/
def execB32Decodep (s : State) : Result :=
  withRequest s fun r => withChars s r fun cs =>
    let m := strippedCount cs
    .next (if capTooSmall r.a0 (decodedLength m) then s.fail .invalidArgument
      else if m = 0 then s.complete (payloadResponse 0#128 (.bytes []))
      else s.runDecoder (cs.take m))

end Sys2Proof.Machine
end

