-- ==== Sys2Proof/Machine/CursorControl.lean ====
section
/-! DEFINITION. Cursor construction and position (42_cursor_control.md): the meanings of the six
CUR commands. None reads or writes MEM. -/

namespace Sys2Proof.Machine

/-- A bad `origin` or `length` of a construction (R152): negative, or a region that starts outside
MEM or passes its top. -/
def badRegion (c : Config) (origin : Nat) (len : Int) : Bool :=
  decide (len < 0) || decide (2 ^ c.addrW ≤ origin) || decide ((2 ^ c.addrW : Int) < origin + len)

/-- `Construct(k, m)` (R152). -/
def construct (m : Mode) (k : Nat) (s : State) : Result :=
  withRequest s fun r =>
    let origin := addressOperand r.a0
    let len := signedOperand r.a1
    .next (if s.cfg.nslot ≤ k then s.fail .illegalCommand
      else if badRegion s.cfg origin len then s.fail .invalidArgument
      else (s.setSlot k { mode := m, origin := origin, length := len.toNat, pos := 0 }).complete
        okResponse)

/-- CUR.OPENR (R150). -/
def execCurOpenr (k : Nat) (s : State) : Result := construct .reader k s

/-- CUR.OPENW (R151). -/
def execCurOpenw (k : Nat) (s : State) : Result := construct .writer k s

/-- CUR.GETPOS (R155). -/
def execCurGetpos (k : Nat) (s : State) : Result :=
  withRequest s fun _ => onSlot s k .any fun c => s.complete (valueResponse (zext128 c.pos))

/-- CUR.SETPOS (R160). -/
def execCurSetpos (k : Nat) (s : State) : Result :=
  withRequest s fun r => onSlot s k .any fun c =>
    let p := signedOperand r.a0
    if p < 0 ∨ (c.length : Int) < p then s.fail .invalidArgument
    else (s.setSlot k { c with pos := p.toNat }).complete okResponse

/-- CUR.REM (R162). -/
def execCurRem (k : Nat) (s : State) : Result :=
  withRequest s fun _ => onSlot s k .any fun c => s.complete (valueResponse (zext128 c.remaining))

/-- CUR.CLOSE (R165). -/
def execCurClose (k : Nat) (s : State) : Result :=
  withRequest s fun _ => onSlot s k .any fun _ => (s.clearSlot k).complete okResponse

end Sys2Proof.Machine
end

