-- ==== Sys2Proof/Machine/CursorRead.lean ====
section
/-! DEFINITION. Cursor reads (43_cursor_read.md): the meanings of the sixteen RD commands. -/

namespace Sys2Proof.Machine

/-! ## Numeric reads (sections 1 and 2) -/

/-- `ReadNum` and the result extension (R180 to R182), shared by the twelve numeric reads. -/
def readNum (t : NumType) (k : Nat) (o : Order) (s : State) : Result :=
  withRequest s fun _ => onRegion s k .reader fun c =>
    if c.remaining < numWidth t then s.fail .bufferUnderrun
    else
      let raw := bytesValue (effOrder s.cfg o) (s.readBytes c.address (numWidth t))
      (s.setSlot k (c.advance (numWidth t))).complete (valueResponse (extendRead t raw))

/-- RD.U8 (R183). -/
def execRdU8 (k : Nat) (o : Order) (s : State) : Result := readNum .u8 k o s
/-- RD.I8 (R184). -/
def execRdI8 (k : Nat) (o : Order) (s : State) : Result := readNum .i8 k o s
/-- RD.U16 (R185). -/
def execRdU16 (k : Nat) (o : Order) (s : State) : Result := readNum .u16 k o s
/-- RD.I16 (R186). -/
def execRdI16 (k : Nat) (o : Order) (s : State) : Result := readNum .i16 k o s
/-- RD.U32 (R187). -/
def execRdU32 (k : Nat) (o : Order) (s : State) : Result := readNum .u32 k o s
/-- RD.I32 (R188). -/
def execRdI32 (k : Nat) (o : Order) (s : State) : Result := readNum .i32 k o s
/-- RD.U64 (R189). -/
def execRdU64 (k : Nat) (o : Order) (s : State) : Result := readNum .u64 k o s
/-- RD.I64 (R190). -/
def execRdI64 (k : Nat) (o : Order) (s : State) : Result := readNum .i64 k o s
/-- RD.U128 (R191). -/
def execRdU128 (k : Nat) (o : Order) (s : State) : Result := readNum .u128 k o s
/-- RD.I128 (R192). -/
def execRdI128 (k : Nat) (o : Order) (s : State) : Result := readNum .i128 k o s
/-- RD.F32 (R193). -/
def execRdF32 (k : Nat) (o : Order) (s : State) : Result := readNum .f32 k o s
/-- RD.F64 (R194). -/
def execRdF64 (k : Nat) (o : Order) (s : State) : Result := readNum .f64 k o s

/-! ## Byte-range reads (section 3) -/

/-- `CheckCount` (R195), then f on the count: the sign before the bounds. -/
def withCount (s : State) (r : Request) (c : Cursor) (f : Nat → State) : State :=
  let n := signedOperand r.a0
  if n < 0 then s.fail .invalidArgument
  else if (c.remaining : Int) < n then s.fail .bufferUnderrun
  else f n.toNat

/-- RD.BYTES (R196). -/
def execRdBytes (k : Nat) (s : State) : Result :=
  withRequest s fun r => onRegion s k .reader fun c => withCount s r c fun n =>
    (s.setSlot k (c.advance n)).complete
      (payloadResponse (zext128 n) (.bytes (s.readBytes c.address n)))

/-- `{zext_64(n), zext_64(a)}` (R197): `{n[63:0], address[63:0]}` (30_encoding.md R80), so the low half
is the address's low 64 bits at every address. -/
def sliceDescriptor (n a : Nat) : Word128 := BitVec.ofNat 64 n ++ BitVec.ofNat 64 a

/-- RD.SLICE (R197). It reads no byte of MEM. -/
def execRdSlice (k : Nat) (s : State) : Result :=
  withRequest s fun r => onSlot s k .reader fun c => withCount s r c fun n =>
    (s.setSlot k (c.advance n)).complete (valueResponse (sliceDescriptor n c.address))

/-- The least j < n such that MEM[a + j] is zero (R198). -/
def State.findZero (s : State) (a : Nat) : Nat → Option Nat
  | 0 => none
  | n + 1 =>
    if s.readByte a = 0#8 then some 0
    else (s.findZero (a + 1) n).map (· + 1)

/-- The end shared by the string reads: decode bs as text, and on success move to `pos + move`
and complete with the count, the raw bytes and the text (R198, R199). -/
def finishText (s : State) (k : Nat) (c : Cursor) (enc : TextEncoding) (bs : List Byte)
    (move : Nat) : State :=
  match textDecode s.cfg enc bs with
  | none => s.fail .malformedData
  | some t =>
    (s.setSlot k (c.advance move)).complete (textResponse (zext128 bs.length) (.bytes bs) t)

/-- RD.CSTR (R198). -/
def execRdCstr (k : Nat) (s : State) : Result :=
  withRequest s fun _ => onRegion s k .reader fun c =>
    match s.findZero c.address c.remaining with
    | none => s.fail .malformedData
    | some n => finishText s k c .utf8 (s.readBytes c.address n) (n + 1)

/-- RD.STR (R199). -/
def execRdStr (k : Nat) (enc : TextEncoding) (s : State) : Result :=
  withRequest s fun r => onRegion s k .reader fun c => withCount s r c fun n =>
    finishText s k c enc (s.readBytes c.address n) n

end Sys2Proof.Machine
end

