-- ==== Sys2Proof/Machine/CursorWrite.lean ====
section
/-! DEFINITION. Cursor writes (44_cursor_write.md): the meanings of the thirteen WR commands. -/

namespace Sys2Proof.Machine

/-- The address a write through slot k stores to: `origin + pos` of its cursor (R220, R234). -/
def State.storeAddress (s : State) (k : Nat) : Option Nat :=
  (s.checkSlot k .writer).map Cursor.address

/-- MemWrite at the cursor, then the new position. -/
def storeAndAdvance (s : State) (k : Nat) (c : Cursor) (bs : List Byte) : State :=
  (s.writeBytes c.address bs).setSlot k (c.advance bs.length)

/-- `WriteNum` (R220, R233), shared by the twelve numeric writes. -/
def writeNum (t : NumType) (k : Nat) (o : Order) (s : State) : Result :=
  withRequest s fun r => onRegion s k .writer fun c =>
    if c.remaining < numWidth t then s.fail .bufferOverrun
    else
      let bs := valueBytes (effOrder s.cfg o) (numWidth t) (writeValue t r.din)
      (storeAndAdvance s k c bs).complete okResponse

/-- WR.U8 (R221). -/
def execWrU8 (k : Nat) (o : Order) (s : State) : Result := writeNum .u8 k o s
/-- WR.I8 (R222). -/
def execWrI8 (k : Nat) (o : Order) (s : State) : Result := writeNum .i8 k o s
/-- WR.U16 (R223). -/
def execWrU16 (k : Nat) (o : Order) (s : State) : Result := writeNum .u16 k o s
/-- WR.I16 (R224). -/
def execWrI16 (k : Nat) (o : Order) (s : State) : Result := writeNum .i16 k o s
/-- WR.U32 (R225). -/
def execWrU32 (k : Nat) (o : Order) (s : State) : Result := writeNum .u32 k o s
/-- WR.I32 (R226). -/
def execWrI32 (k : Nat) (o : Order) (s : State) : Result := writeNum .i32 k o s
/-- WR.U64 (R227). -/
def execWrU64 (k : Nat) (o : Order) (s : State) : Result := writeNum .u64 k o s
/-- WR.I64 (R228). -/
def execWrI64 (k : Nat) (o : Order) (s : State) : Result := writeNum .i64 k o s
/-- WR.U128 (R229). -/
def execWrU128 (k : Nat) (o : Order) (s : State) : Result := writeNum .u128 k o s
/-- WR.I128 (R230). -/
def execWrI128 (k : Nat) (o : Order) (s : State) : Result := writeNum .i128 k o s
/-- WR.F32 (R231). -/
def execWrF32 (k : Nat) (o : Order) (s : State) : Result := writeNum .f32 k o s
/-- WR.F64 (R232). -/
def execWrF64 (k : Nat) (o : Order) (s : State) : Result := writeNum .f64 k o s

/-- WR.BYTES (R234). -/
def execWrBytes (k : Nat) (s : State) : Result :=
  withRequest s fun r => withBytes s r fun bs => onRegion s k .writer fun c =>
    if c.remaining < bs.length then s.fail .bufferOverrun
    else (storeAndAdvance s k c bs).complete (valueResponse (zext128 bs.length))

end Sys2Proof.Machine
end

