-- ==== Sys2Proof/Machine/Dispatch.lean ====
section
/-! DEFINITION. The dispatch: one arm per command (30_encoding.md R76). -/

namespace Sys2Proof.Machine

def exec (i : Instr) (s : State) : Host.Outcome State Fault Refusal :=
  match i with
  | .b32Enclen => Sys2Proof.Machine.execB32Enclen s
  | .b32Declen => Sys2Proof.Machine.execB32Declen s
  | .b32Encode => Sys2Proof.Machine.execB32Encode s
  | .b32Decode => Sys2Proof.Machine.execB32Decode s
  | .b32Strip => Sys2Proof.Machine.execB32Strip s
  | .b32Decodep => Sys2Proof.Machine.execB32Decodep s
  | .curOpenr k => Sys2Proof.Machine.execCurOpenr k s
  | .curOpenw k => Sys2Proof.Machine.execCurOpenw k s
  | .curGetpos k => Sys2Proof.Machine.execCurGetpos k s
  | .curSetpos k => Sys2Proof.Machine.execCurSetpos k s
  | .curRem k => Sys2Proof.Machine.execCurRem k s
  | .curClose k => Sys2Proof.Machine.execCurClose k s
  | .rdU8 k o => Sys2Proof.Machine.execRdU8 k o s
  | .rdI8 k o => Sys2Proof.Machine.execRdI8 k o s
  | .rdU16 k o => Sys2Proof.Machine.execRdU16 k o s
  | .rdI16 k o => Sys2Proof.Machine.execRdI16 k o s
  | .rdU32 k o => Sys2Proof.Machine.execRdU32 k o s
  | .rdI32 k o => Sys2Proof.Machine.execRdI32 k o s
  | .rdU64 k o => Sys2Proof.Machine.execRdU64 k o s
  | .rdI64 k o => Sys2Proof.Machine.execRdI64 k o s
  | .rdU128 k o => Sys2Proof.Machine.execRdU128 k o s
  | .rdI128 k o => Sys2Proof.Machine.execRdI128 k o s
  | .rdF32 k o => Sys2Proof.Machine.execRdF32 k o s
  | .rdF64 k o => Sys2Proof.Machine.execRdF64 k o s
  | .rdBytes k => Sys2Proof.Machine.execRdBytes k s
  | .rdSlice k => Sys2Proof.Machine.execRdSlice k s
  | .rdCstr k => Sys2Proof.Machine.execRdCstr k s
  | .rdStr k e => Sys2Proof.Machine.execRdStr k e s
  | .wrU8 k o => Sys2Proof.Machine.execWrU8 k o s
  | .wrI8 k o => Sys2Proof.Machine.execWrI8 k o s
  | .wrU16 k o => Sys2Proof.Machine.execWrU16 k o s
  | .wrI16 k o => Sys2Proof.Machine.execWrI16 k o s
  | .wrU32 k o => Sys2Proof.Machine.execWrU32 k o s
  | .wrI32 k o => Sys2Proof.Machine.execWrI32 k o s
  | .wrU64 k o => Sys2Proof.Machine.execWrU64 k o s
  | .wrI64 k o => Sys2Proof.Machine.execWrI64 k o s
  | .wrU128 k o => Sys2Proof.Machine.execWrU128 k o s
  | .wrI128 k o => Sys2Proof.Machine.execWrI128 k o s
  | .wrF32 k o => Sys2Proof.Machine.execWrF32 k o s
  | .wrF64 k o => Sys2Proof.Machine.execWrF64 k o s
  | .wrBytes k => Sys2Proof.Machine.execWrBytes k s

end Sys2Proof.Machine
end

