-- ==== Sys2Proof/Machine/Step.lean ====
section
/-! DEFINITION. One step of the machine, and how a command word comes to be the next to run. -/

namespace Sys2Proof.Machine

/-- One step. A pending request is decoded and run to completion, atomically (20_memory.md R60); a
word that decodes to ILLEGAL completes with IllegalCommand (30_encoding.md R78). With no request
pending the host's next action happens (log 4), and with none coming the block stays idle
(60_exceptions.md R267, log 5). -/
def step (s : State) : Result :=
  match s.req with
  | some r =>
    match decode r.cmd with
    | some i => exec i s
    | none => .next s.illegal
  | none =>
    match s.host with
    | [] => .next s
    | a :: rest => hostStep { s with host := rest } a

/-- s with the command word w (nbits bits, the bits above zero) on the request port, where the next
step takes its command from (10_state.md R20); its operands are zero and its payload is empty.
Log 4. -/
def State.withFetchWord (s : State) (nbits w : Nat) : State :=
  { s with req := some (Request.ofWord (BitVec.ofNat 32 (w % 2 ^ nbits))) }

end Sys2Proof.Machine
end

