-- ==== Sys2Proof/Safety.lean ====
section
/-! DEFINITION. The terms the claims are stated in: the invariant, what it is for a command to
complete, the tables of the spec that say which command may do what, and a reference reading of the
Base32 codec as arithmetic. Nothing of the machine depends on this file. -/

namespace Sys2Proof.Safety

open Sys2Proof.Machine

/-! ## The invariant -/

/-- A bound slot's cursor (10_state.md R30 to R32): `pos <= length`, `length <= LEN_MAX`, and the
region lies in MEM. -/
def cursorOk (c : Config) (d : Cursor) : Bool :=
  decide (d.pos ≤ d.length) && decide (d.length ≤ lenMax) && decide (d.origin < 2 ^ c.addrW) &&
    decide (d.origin + d.length ≤ 2 ^ c.addrW)

/-- The slot file: rising slot numbers below NSLOT, each with a cursor that is well formed. -/
def slotsOk (s : State) : Bool :=
  assocRising s.slots && s.slots.all fun e => decide (e.1 < s.cfg.nslot) && cursorOk s.cfg e.2

/-- No byte is listed outside MEM (20_memory.md R50). -/
def memInside (s : State) : Bool :=
  s.mem.all fun e => decide (e.1 < 2 ^ s.cfg.addrW)

/-- What holds of the block at every command boundary. -/
structure Inv (s : State) : Prop where
  /-- The parameters are within 00_scope.md R7's bounds. -/
  params : s.cfg.wf = true
  /-- 10_state.md R30 to R32. -/
  slots : slotsOk s = true
  /-- MEM is in its canonical form. -/
  mem : Memory.wf s.cfg s.mem = true
  /-- MEM lists only addresses it has. -/
  inside : memInside s = true
  /-- The codec's registers do not survive a command (10_state.md R40). -/
  codec : s.codec = .idle

/-- A run that has met no failure: the history of 60_exceptions.md R262 is empty ("A claim that a
run never fails is then a claim about that history"). -/
def NoFailure (s : State) : Prop := s.history = []

/-! ## Completion -/

/-- MEM after the bytes bs are stored at a. -/
def patched (mem : Nat → Byte) (a : Nat) (bs : List Byte) : Nat → Byte := fun x =>
  if a ≤ x ∧ x < a + bs.length then bs.getD (x - a) 0#8 else mem x

/-- The slot file after SLOT[k] <- c. -/
def rebound (slots : Nat → Option Cursor) (k : Nat) (c : Option Cursor) : Nat → Option Cursor :=
  fun j => if j = k then c else slots j

/-- i completes in s with response r, slot file `slots` and memory `mem`: the whole next state. The
request is consumed, the codec is idle, the parameters and the host's coming actions are as before,
and the history is extended by r exactly when r is not OK. -/
def Completes (s : State) (i : Instr) (r : Response) (slots : Nat → Option Cursor)
    (mem : Nat → Byte) : Prop :=
  ∃ t, exec i s = .next t ∧ t.resp = some r ∧ t.req = none ∧ t.codec = .idle ∧ t.cfg = s.cfg ∧
    t.host = s.host ∧ t.history = (if r.status = .ok then s.history else s.history ++ [r]) ∧
    (∀ k, t.slot k = slots k) ∧ (∀ a, t.readByte a = mem a)

/-- i completes with response r and changes no slot and no byte of MEM. -/
def Answers (s : State) (i : Instr) (r : Response) : Prop :=
  Completes s i r s.slot s.readByte

/-- i fails with status st: no field of the response but the status, no slot changed, no byte of MEM
changed (60_exceptions.md R256). -/
def Fails (s : State) (i : Instr) (st : Status) : Prop := Answers s i (failResponse st)

/-! ## Slots -/

/-- The mode is the one needed, or any will do. -/
def modeFits (n : Need) (m : Mode) : Prop :=
  n = .any ∨ (n = .reader ∧ m = .reader) ∨ (n = .writer ∧ m = .writer)

/-- Slot k holds the cursor c and CheckSlot(k, n) passes (42_cursor_control.md R154). -/
def GoodSlot (s : State) (k : Nat) (n : Need) (c : Cursor) : Prop :=
  k < s.cfg.nslot ∧ s.slot k = some c ∧ modeFits n c.mode

/-- CheckSlot(k, n) fails: the index, an unbound slot, or the mode (42_cursor_control.md R154). -/
def BadSlot (s : State) (k : Nat) (n : Need) : Prop :=
  s.cfg.nslot ≤ k ∨ s.slot k = none ∨ ∃ c, s.slot k = some c ∧ ¬ modeFits n c.mode

/-- The region of a cursor lies in MEM (10_state.md R32). -/
def InMem (s : State) (c : Cursor) : Prop := c.origin + c.length ≤ 2 ^ s.cfg.addrW

/-! ## Encoding -/

/-- The opcodes of the codec commands (30_encoding.md R76). -/
def codecOpcodes : List Nat := [0x01, 0x02, 0x03, 0x04, 0x05, 0x06]

/-- The opcodes of the numeric commands (30_encoding.md R76). -/
def numericOpcodes : List Nat :=
  [0x20, 0x21, 0x22, 0x23, 0x24, 0x25, 0x26, 0x27, 0x28, 0x29, 0x2A, 0x2B,
   0x40, 0x41, 0x42, 0x43, 0x44, 0x45, 0x46, 0x47, 0x48, 0x49, 0x4A, 0x4B]

/-- The opcodes of the other cursor commands (30_encoding.md R76). -/
def plainCursorOpcodes : List Nat :=
  [0x10, 0x11, 0x12, 0x13, 0x14, 0x15, 0x30, 0x31, 0x32, 0x33, 0x50]

/-- The reserved encodings (30_encoding.md R78): an unlisted OPC (a numeric type index 12 to 15 is
one), ORD = 3, a non-zero SLOT or ORD where the group does not use it, a non-zero ENC or RSV. -/
def ReservedWord (w : CmdWord) : Prop :=
  (opcField w).toNat ∉ codecOpcodes ++ numericOpcodes ++ plainCursorOpcodes ∨
  ordField w = 3#2 ∨
  ((opcField w).toNat ∈ codecOpcodes ∧ slotField w ≠ 0) ∨
  ((opcField w).toNat ∉ numericOpcodes ∧ ordField w ≠ 0#2) ∨
  encField w ≠ 0#2 ∨ rsvField w ≠ 0#16

/-- Exactly the word w selects i (mask 0xFFFFFFFF, 30_encoding.md R77). -/
def SelectedByWord (w : CmdWord) (i : Instr) : Prop :=
  ∀ v : CmdWord, decode v = some i ↔ v = w

/-- Exactly the words with this match value under the mask 0xFFFFF0FF select the command, with the
slot of CMD[11:8] (30_encoding.md R77). -/
def SelectedBySlot (w : CmdWord) (mk : Nat → Instr) : Prop :=
  ∀ (v : CmdWord) (k : Nat), decode v = some (mk k) ↔ (v &&& 0xFFFFF0FF#32 = w ∧ slotField v = k)

/-- Exactly the words with this match value under the mask 0xFFFFC0FF and ORD in 0, 1, 2 select the
command, with the slot of CMD[11:8] and the order of CMD[13:12] (30_encoding.md R77). -/
def SelectedByNumeric (w : CmdWord) (mk : Nat → Order → Instr) : Prop :=
  ∀ (v : CmdWord) (k : Nat) (o : Order), decode v = some (mk k o) ↔
    (v &&& 0xFFFFC0FF#32 = w ∧ slotField v = k ∧ ordField v = BitVec.ofNat 2 (match o with
      | .native => 0
      | .little => 1
      | .big => 2))

/-- The type index t of a numeric type (30_encoding.md R71). -/
def numIndex : NumType → Nat
  | .u8 => 0 | .i8 => 1 | .u16 => 2 | .i16 => 3 | .u32 => 4 | .i32 => 5
  | .u64 => 6 | .i64 => 7 | .u128 => 8 | .i128 => 9 | .f32 => 10 | .f64 => 11

/-- The construction of a mode (42_cursor_control.md R150, R151). -/
def openInstr : Mode → Nat → Instr
  | .reader => .curOpenr
  | .writer => .curOpenw

/-- The numeric read of a type (30_encoding.md R76). -/
def readInstr : NumType → Nat → Order → Instr
  | .u8 => .rdU8 | .i8 => .rdI8 | .u16 => .rdU16 | .i16 => .rdI16 | .u32 => .rdU32
  | .i32 => .rdI32 | .u64 => .rdU64 | .i64 => .rdI64 | .u128 => .rdU128 | .i128 => .rdI128
  | .f32 => .rdF32 | .f64 => .rdF64

/-- The numeric write of a type (30_encoding.md R76). -/
def writeInstr : NumType → Nat → Order → Instr
  | .u8 => .wrU8 | .i8 => .wrI8 | .u16 => .wrU16 | .i16 => .wrI16 | .u32 => .wrU32
  | .i32 => .wrI32 | .u64 => .wrU64 | .i64 => .wrI64 | .u128 => .wrU128 | .i128 => .wrI128
  | .f32 => .wrF32 | .f64 => .wrF64

/-- W of a type (30_encoding.md R71, the table). -/
def typeWidth : NumType → Nat
  | .u8 => 1 | .i8 => 1 | .u16 => 2 | .i16 => 2 | .u32 => 4 | .i32 => 4
  | .u64 => 8 | .i64 => 8 | .u128 => 16 | .i128 => 16 | .f32 => 4 | .f64 => 8

/-- The signed types (30_encoding.md R71, the table). -/
def isSigned : NumType → Bool
  | .i8 | .i16 | .i32 | .i64 | .i128 => true
  | .u8 | .u16 | .u32 | .u64 | .u128 | .f32 | .f64 => false

/-- The access is little-endian: ORD says so, or ORD is native on a little-endian host
(43_cursor_read.md R181). -/
def isLittle (c : Config) (o : Order) : Bool :=
  o == .little || (o == .native && c.hostOrder == .little)

/-- The offset, from the access's address, of the byte of weight 256^j (20_memory.md R54). -/
def weightOffset (little : Bool) (width j : Nat) : Nat :=
  if little then j else width - 1 - j

/-! ## Groups of commands and the spec's tables about them -/

/-- The codec commands, opcodes 0x01 to 0x06. -/
def isCodec : Instr → Bool
  | .b32Enclen | .b32Declen | .b32Encode | .b32Decode | .b32Strip | .b32Decodep => true
  | _ => false

/-- The read commands, opcodes 0x20 to 0x33. -/
def isRead : Instr → Bool
  | .rdU8 _ _ | .rdI8 _ _ | .rdU16 _ _ | .rdI16 _ _ | .rdU32 _ _ | .rdI32 _ _ => true
  | .rdU64 _ _ | .rdI64 _ _ | .rdU128 _ _ | .rdI128 _ _ | .rdF32 _ _ | .rdF64 _ _ => true
  | .rdBytes _ | .rdSlice _ | .rdCstr _ | .rdStr _ _ => true
  | _ => false

/-- The write commands, opcodes 0x40 to 0x50. -/
def isWrite : Instr → Bool
  | .wrU8 _ _ | .wrI8 _ _ | .wrU16 _ _ | .wrI16 _ _ | .wrU32 _ _ | .wrI32 _ _ => true
  | .wrU64 _ _ | .wrI64 _ _ | .wrU128 _ _ | .wrI128 _ _ | .wrF32 _ _ | .wrF64 _ _ => true
  | .wrBytes _ => true
  | _ => false

/-- The variant a command's slot check asks for; none for the codec and for construction, which run
no CheckSlot (42_cursor_control.md R154). -/
def needOf : Instr → Option Need
  | .curGetpos _ | .curSetpos _ | .curRem _ | .curClose _ => some .any
  | i => if isRead i then some .reader else if isWrite i then some .writer else none

/-- The commands that reach MEM (20_memory.md R51): the reads but RD.SLICE, and the writes. -/
def touchesMem : Instr → Bool
  | .rdSlice _ => false
  | i => isRead i || isWrite i

/-- How many bytes a write command stores (20_memory.md R59). -/
def storeWidth (r : Request) : Instr → Nat
  | .wrU8 _ _ | .wrI8 _ _ => 1
  | .wrU16 _ _ | .wrI16 _ _ => 2
  | .wrU32 _ _ | .wrI32 _ _ | .wrF32 _ _ => 4
  | .wrU64 _ _ | .wrI64 _ _ | .wrF64 _ _ => 8
  | .wrU128 _ _ | .wrI128 _ _ => 16
  | .wrBytes _ => r.ipay.length
  | _ => 0

/-- The commands whose rule writes DOUT on OK (30_encoding.md R80). -/
def writesDout : Instr → Bool
  | .curOpenr _ | .curOpenw _ | .curSetpos _ | .curClose _ => false
  | .wrBytes _ => true
  | i => !isWrite i

/-- The commands whose rule writes OPAY on OK (30_encoding.md R80). -/
def writesOpay : Instr → Bool
  | .b32Encode | .b32Decode | .b32Decodep | .rdBytes _ | .rdCstr _ | .rdStr _ _ => true
  | _ => false

/-- The commands whose rule writes OTEXT on OK (30_encoding.md R80). -/
def writesOtext : Instr → Bool
  | .rdCstr _ | .rdStr _ _ => true
  | _ => false

/-- Which command may report which status (60_exceptions.md R250, the column "raised by"). -/
def canRaise (i : Instr) : Status → Bool
  | .ok => true
  | .invalidCharacter => match i with
    | .b32Decode | .b32Decodep => true
    | _ => false
  | .bufferUnderrun => match i with
    | .rdCstr _ => false
    | i => isRead i
  | .bufferOverrun => isWrite i
  | .malformedData => match i with
    | .rdCstr _ | .rdStr _ _ => true
    | _ => false
  | .invalidArgument => match i with
    | .b32Enclen | .b32Declen | .b32Encode | .b32Decode | .b32Decodep => true
    | .curOpenr _ | .curOpenw _ | .curSetpos _ => true
    | .rdBytes _ | .rdSlice _ | .rdStr _ _ => true
    | _ => false
  | .illegalCommand => !isCodec i

/-- Two requests agree on the fields i's rule names (30_encoding.md R80, 10_state.md R21 and R23):
the command word apart, which is decoded already. -/
def sameOperands (i : Instr) (r r' : Request) : Prop :=
  match i with
  | .b32Enclen | .b32Declen => r.a0 = r'.a0
  | .b32Encode | .b32Decode | .b32Decodep => r.a0 = r'.a0 ∧ r.ipay = r'.ipay
  | .b32Strip => r.ipay = r'.ipay
  | .curOpenr _ | .curOpenw _ => r.a0 = r'.a0 ∧ r.a1 = r'.a1
  | .curSetpos _ | .rdBytes _ | .rdSlice _ | .rdStr _ _ => r.a0 = r'.a0
  | .wrBytes _ => r.ipay = r'.ipay
  | i => isWrite i = true → r.din.toNat % 256 ^ storeWidth r i = r'.din.toNat % 256 ^ storeWidth r i

/-- m is what is left of a text when every trailing '=' is stripped (41_base32.md R110): every unit
from m on is '=', and the one before m, if any, is not. -/
def IsStripped (cs : List CodeUnit) (m : Nat) : Prop :=
  m ≤ cs.length ∧ (∀ i, m ≤ i → i < cs.length → cs.getD i 0 = padChar) ∧
    (m = 0 ∨ cs.getD (m - 1) 0 ≠ padChar)

/-! ## The order of the failures (60_exceptions.md R259)

One predicate per item of the rule's list: when the item applies to the command i with the request r
in s, whatever stands above it in the list. -/

/-- Item 2, the slot: its index alone for a construction (42_cursor_control.md R152), CheckSlot for
every other cursor command (R154). -/
def slotFails (s : State) (i : Instr) : Prop :=
  ∃ k, i.slot? = some k ∧
    ((needOf i = none ∧ s.cfg.nslot ≤ k) ∨ ∃ n, needOf i = some n ∧ BadSlot s k n)

/-- Item 3, an operand's sign or range: a negative n, length, p or capacity; p > length; a region
past the top of MEM. -/
def operandFails (s : State) (r : Request) : Instr → Prop
  | .b32Enclen | .b32Declen | .b32Encode | .b32Decode | .b32Decodep => r.a0.toInt < 0
  | .curOpenr _ | .curOpenw _ => r.a1.toInt < 0 ∨ 2 ^ s.cfg.addrW ≤ r.a0.toNat ∨
      (2 ^ s.cfg.addrW : Int) < r.a0.toNat + r.a1.toInt
  | .curSetpos k => r.a0.toInt < 0 ∨ ∃ c, s.slot k = some c ∧ (c.length : Int) < r.a0.toInt
  | .rdBytes _ | .rdSlice _ | .rdStr _ _ => r.a0.toInt < 0
  | _ => False

/-- Item 4, a codec capacity below the required size. -/
def capacityFails (r : Request) : Instr → Prop
  | .b32Encode => r.a0.toInt < (encodedLength r.ipay.length : Int)
  | .b32Decode => r.a0.toInt < (decodedLength r.ipay.length : Int)
  | .b32Decodep => ∃ cs m, r.ipay = .chars cs ∧ IsStripped cs m ∧
      r.a0.toInt < (decodedLength m : Int)
  | _ => False

/-- Item 5, for a read: it wants more bytes than remain. -/
def underruns (s : State) (r : Request) (i : Instr) : Prop :=
  ∃ k c, s.slot k = some c ∧
    ((∃ ty o, i = readInstr ty k o ∧ c.length - c.pos < typeWidth ty) ∨
      (i ∈ [.rdBytes k, .rdSlice k, .rdStr k .utf8] ∧
        ((c.length - c.pos : Nat) : Int) < r.a0.toInt))

/-- Item 5, for a write: it stores more bytes than remain. -/
def overruns (s : State) (r : Request) (i : Instr) : Prop :=
  ∃ k c, i.slot? = some k ∧ s.slot k = some c ∧ isWrite i = true ∧
    c.length - c.pos < storeWidth r i

/-- Item 6, the string reads: no terminator before the end of the region, or bytes that TEXT_DECODE
rejects. -/
def textFails (s : State) (r : Request) (i : Instr) : Prop :=
  ∃ k c, s.slot k = some c ∧
    ((i = .rdCstr k ∧
      ((∀ j, j < c.length - c.pos → s.readByte (c.origin + c.pos + j) ≠ 0#8) ∨
        ∃ n, n < c.length - c.pos ∧ s.readByte (c.origin + c.pos + n) = 0#8 ∧
          (∀ j, j < n → s.readByte (c.origin + c.pos + j) ≠ 0#8) ∧
          textDecode s.cfg .utf8 (s.readBytes (c.origin + c.pos) n) = none)) ∨
      (i = .rdStr k .utf8 ∧
        textDecode s.cfg .utf8 (s.readBytes (c.origin + c.pos) r.a0.toInt.toNat) = none))

/-- Item 7: c, at index j, is the first non-alphabet character of what the command decodes, the
whole text or the stripped text. -/
def firstBadChar (r : Request) (i : Instr) (j : Nat) (c : CodeUnit) : Prop :=
  ∃ cs, r.ipay = .chars cs ∧
    (i = .b32Decode ∨ (i = .b32Decodep ∧ ∃ m, IsStripped cs m ∧ j < m)) ∧
    cs[j]? = some c ∧ charToValue c = none ∧ ∀ l, l < j → charToValue (cs.getD l 0) ≠ none

/-- The list of R259, highest priority first, for a word that the decoder read as i, or as no
command. -/
def failureOrder (s : State) (r : Request) : Option Instr → List (Prop × Status)
  | none => [(True, .illegalCommand)]
  | some i =>
    [(slotFails s i, .illegalCommand), (operandFails s r i, .invalidArgument),
      (capacityFails r i, .invalidArgument), (underruns s r i, .bufferUnderrun),
      (overruns s r i, .bufferOverrun), (textFails s r i, .malformedData),
      (∃ j c, firstBadChar r i j c, .invalidCharacter)]

/-- st is the status of the first entry that applies, and OK where none does. -/
def firstThatApplies : List (Prop × Status) → Status → Prop
  | [], st => st = .ok
  | (p, f) :: rest, st => (p → st = f) ∧ (¬ p → firstThatApplies rest st)

/-! ## The codec as arithmetic (41_base32.md sections 3 to 5)

A byte list is the number its bits spell, most significant byte first. Encoding writes that number,
with zero bits appended up to a multiple of 5 bits, in base 32; decoding reads a base-32 number,
drops the low bits that fill no byte, and writes it in base 256. -/

/-- The count of symbols for n bytes: `ceil(8n / 5)` (R122). -/
def symbolCount (n : Nat) : Nat := (8 * n + 4) / 5

/-- The symbols of a byte list: the base-32 digits, most significant first. -/
def refSymbols (bs : List Byte) : List CodeUnit :=
  let n := bs.length
  let digits := symbolCount n
  let v := beValue bs * 2 ^ (5 * digits - 8 * n)
  (List.range digits).map fun i => alphabet (v / 32 ^ (digits - 1 - i) % 32)

/-- The text of a byte list: its symbols, then '=' up to a multiple of 8 characters. -/
def refEncode (bs : List Byte) : List CodeUnit :=
  refSymbols bs ++ List.replicate (encodedLength bs.length - symbolCount bs.length) padChar

/-- The number a list of 5-bit values spells. -/
def base32Value (vs : List Nat) : Nat := vs.foldl (fun a v => 32 * a + v) 0

/-- The bytes of a list of 5-bit values. -/
def refDecode (vs : List Nat) : List Byte :=
  toBE (decodedLength vs.length) (base32Value vs / 2 ^ (5 * vs.length % 8))

end Sys2Proof.Safety
end

