-- ==== Sys2Proof/Certificates/Slice0/Obligations.lean ====
section
/-! DEFINITION. The statements about the machine, for the provers. Each docstring names the rule of
spec/ it formalises. A response literal lists the fields the rule writes; every field it does not
list is absent (10_state.md R28). `Completes`, `Answers` and `Fails` (Safety.lean) describe the whole
next state, so a result statement is also the command's completion statement and its frame. -/

open Sys2Proof Sys2Proof.Machine Sys2Proof.Safety

/-! ## Reset, steps and the invariant -/

/-- 70_reset_and_hazards.md R280, R282, with 10_state.md R42. A reset by the host keeps the history:
"no later step clears" it (60_exceptions.md R262). The list of the host's actions, `host`, is the
model's (log 4). -/
def Obligations.ResetUnbindsEverySlotAndKeepsMem : Prop :=
  (∀ k, State.reset.slot k = none) ∧ State.reset.resp = none ∧ State.reset.req = none ∧
  State.reset.codec = .idle ∧
  (∀ (s : State) (rest : List HostAction), s.req = none → s.host = .reset :: rest →
    ∃ t, step s = .next t ∧ (∀ k, t.slot k = none) ∧ t.resp = none ∧ t.req = none ∧
      t.codec = .idle ∧ (∀ a, t.readByte a = s.readByte a) ∧ t.cfg = s.cfg ∧
      t.history = s.history ∧ t.host = rest) ∧
  (∀ (s t : State) (r : Request), s.req = some r → step s = .next t → t.host = s.host)

/-- The invariant holds right after reset. -/
def Obligations.ResetMeetsInvariant : Prop := Safety.Inv State.reset

/-- Every step keeps the invariant: cursors in bounds (10_state.md R31, R32), bound slots below
NSLOT (R30), MEM canonical and inside its address space (20_memory.md R50), the codec idle at every
command boundary (10_state.md R40), the parameters in range (00_scope.md R7). -/
def Obligations.EveryStepKeepsInvariant : Prop :=
  ∀ s t : State, Safety.Inv s → step s = .next t → Safety.Inv t

/-- 60_exceptions.md R268, R269; 70_reset_and_hazards.md R291: from a state that meets the invariant,
every request that can be formed, legal or not, completes in one step with a response, no fault and
no refusal, and takes no action of the host. -/
def Obligations.EveryFormedRequestCompletes : Prop :=
  ∀ (s : State) (r : Request), Safety.Inv s → s.req = some r →
    (∀ i, decode r.cmd = some i → r.formed s.cfg i = true) →
    ∃ t rsp, step s = .next t ∧ t.resp = some rsp ∧ t.req = none ∧ t.host = s.host

/-- 10_state.md R20, 20_memory.md R60: a step with a pending request is exec of the decoded command
at that state. -/
def Obligations.StepRunsTheDecodedCommand : Prop :=
  ∀ (s : State) (r : Request) (i : Instr), s.req = some r → decode r.cmd = some i →
    step s = exec i s

/-- The host acts only between commands (20_memory.md R64): a step with a pending request takes none
of its actions, and a step without one takes the next. With none coming the block is idle
(60_exceptions.md R267). A store past the top of MEM, whose addresses are 0 to 2^ADDR_W - 1
(20_memory.md R50), faults with outsideMem. The list of actions (log 4), the idle step (log 5) and the
fault (log 12) are the model's. -/
def Obligations.HostActsOnlyBetweenCommands : Prop :=
  (∀ (s t : State) (r : Request), s.req = some r → step s = .next t → t.host = s.host) ∧
  (∀ s : State, s.req = none → s.host = [] → step s = .next s) ∧
  (∀ (s : State) (r : Request) (rest : List HostAction), s.req = none → s.host = .issue r :: rest →
    step s = .next { s with req := some r, host := rest }) ∧
  (∀ (s : State) (a : Nat) (bs : List Byte) (rest : List HostAction), s.req = none →
    s.host = .store a bs :: rest →
      (2 ^ s.cfg.addrW < a + bs.length → step s = .fault .outsideMem) ∧
      (a + bs.length ≤ 2 ^ s.cfg.addrW → ∃ t, step s = .next t ∧
        (∀ x, t.readByte x = patched s.readByte a bs x) ∧ t.slots = s.slots ∧ t.resp = s.resp ∧
        t.req = none ∧ t.cfg = s.cfg ∧ t.history = s.history ∧ t.codec = s.codec ∧
        t.host = rest))

/-! ## Encoding -/

/-- 30_encoding.md R84, the eight examples. -/
def Obligations.ExampleWordsDecodeAsTheSpecSays : Prop :=
  decode 0x00000003#32 = some .b32Encode ∧
  decode 0x00000110#32 = some (.curOpenr 1) ∧
  decode 0x00002124#32 = some (.rdU32 1 .big) ∧
  decode 0x00001323#32 = some (.rdI16 3 .little) ∧
  decode 0x00000046#32 = some (.wrU64 0 .native) ∧
  decode 0x00000233#32 = some (.rdStr 2 .utf8) ∧
  decode 0x00003124#32 = none ∧
  decode 0x00000101#32 = none

/-- Decoding the word of a well-formed instruction gives it back, with every operand. -/
def Obligations.DecodeUndoesEncode : Prop :=
  ∀ i : Instr, i.wf = true → decode (encode i) = some i

/-- Every legal word is the encoding of the one well-formed instruction it decodes to
(30_encoding.md R75, R77: no other bit may be set). -/
def Obligations.EncodeUndoesDecode : Prop :=
  ∀ (w : CmdWord) (i : Instr), decode w = some i → i.wf = true ∧ encode i = w

/-- 30_encoding.md R78: the rows decide, and at most one row matches a word. -/
def Obligations.OneRowDecidesEachWord : Prop :=
  (∀ (w : CmdWord) (i : Instr), decode w = some i ↔
    ∃ row ∈ opcodeRows, ∃ o, w &&& row.group.mask = row.pattern ∧
      orderOfField (ordField w) = some o ∧ i = row.build (slotField w) o) ∧
  (∀ w : CmdWord, ∀ row ∈ opcodeRows, ∀ row' ∈ opcodeRows,
    w &&& row.group.mask = row.pattern → w &&& row'.group.mask = row'.pattern →
      row.pattern = row'.pattern) ∧
  opcodeRows.length = 41

/-- 30_encoding.md R75, R79, with R78's list of the reserved encodings: exactly those are illegal,
and each completes with IllegalCommand (code 6) and changes nothing but the response and the
history. -/
def Obligations.ReservedWordsAreIllegalAndChangeNothing : Prop :=
  (∀ w : CmdWord, decode w = none ↔ ReservedWord w) ∧
  (∀ (s : State) (r : Request), s.req = some r → ReservedWord r.cmd →
    ∃ t, step s = .next t ∧ t.resp = some { status := .illegalCommand } ∧
      Status.illegalCommand.code = 6#8 ∧ t.slots = s.slots ∧ t.mem = s.mem ∧ t.cfg = s.cfg ∧
      t.req = none ∧ t.host = s.host ∧ t.history = s.history ++ [{ status := .illegalCommand }])

/-! ## Base32 -/

/-- 41_base32.md R101, R102. -/
def Obligations.AlphabetAndValuesAreInverse : Prop :=
  (∀ c : CodeUnit, 0x41 ≤ c → c ≤ 0x5A → charToValue c = some (c - 0x41)) ∧
  (∀ c : CodeUnit, 0x32 ≤ c → c ≤ 0x37 → charToValue c = some (c - 0x32 + 26)) ∧
  (∀ c : CodeUnit, ¬ (0x41 ≤ c ∧ c ≤ 0x5A) → ¬ (0x32 ≤ c ∧ c ≤ 0x37) → charToValue c = none) ∧
  (∀ v, v ≤ 25 → alphabet v = 0x41 + v) ∧
  (∀ v, 26 ≤ v → v ≤ 31 → alphabet v = 0x32 + (v - 26)) ∧
  (∀ v, v < 32 → charToValue (alphabet v) = some v) ∧
  (∀ c v, charToValue c = some v → v < 32 ∧ alphabet v = c)

/-- 41_base32.md R106. -/
def Obligations.EnclenGivesTheEncodedSize : Prop :=
  SelectedByWord 0x00000001#32 .b32Enclen ∧
  ∀ (s : State) (r : Request), s.req = some r →
    (r.a0.toInt < 0 → Fails s .b32Enclen .invalidArgument) ∧
    (0 ≤ r.a0.toInt → ∃ v : Word128, v.toNat = (r.a0.toInt.toNat + 4) / 5 * 8 ∧
      Answers s .b32Enclen { status := .ok, dout := some v })

/-- 41_base32.md R107. -/
def Obligations.DeclenGivesTheDecodedSize : Prop :=
  SelectedByWord 0x00000002#32 .b32Declen ∧
  ∀ (s : State) (r : Request), s.req = some r →
    (r.a0.toInt < 0 → Fails s .b32Declen .invalidArgument) ∧
    (0 ≤ r.a0.toInt → ∃ v : Word128, v.toNat = r.a0.toInt.toNat * 5 / 8 ∧
      Answers s .b32Declen { status := .ok, dout := some v })

/-- 41_base32.md R108. -/
def Obligations.EncodeRunsTheEncoder : Prop :=
  SelectedByWord 0x00000003#32 .b32Encode ∧
  ∀ (s : State) (r : Request) (bs : List Byte), s.req = some r → r.ipay = .bytes bs →
    bs.length ≤ lenMax →
    (r.a0.toInt < 0 ∨ r.a0.toInt < (encodedLength bs.length : Int) →
      Fails s .b32Encode .invalidArgument) ∧
    ((encodedLength bs.length : Int) ≤ r.a0.toInt →
      ∃ (v : Word128) (out : List CodeUnit), v.toNat = encodedLength bs.length ∧
        out.length = encodedLength bs.length ∧ (bs = [] → out = []) ∧
        (bs ≠ [] → (encRun accW bs).phase = .done ∧ out = (encRun accW bs).out) ∧
        Answers s .b32Encode { status := .ok, dout := some v, opay := some (.chars out) })

/-- The encoder FSM (41_base32.md R116 to R121) writes the bytes' number in base 32, with zero bits
appended up to a multiple of 5, and pads with '=' to a multiple of 8 (RFC 4648's text). -/
def Obligations.EncoderSpellsTheBytesInBase32 : Prop :=
  ∀ bs : List Byte, bs ≠ [] → (encRun accW bs).out = refEncode bs

/-- 41_base32.md R122. -/
def Obligations.EncoderStepAndSymbolCounts : Prop :=
  ∀ src : List Byte, src ≠ [] →
    let n := src.length
    let total := symbolCount n
    let at_ := fun k => encSteps src k (encStart accW src)
    (∀ k, k < total → (at_ k).phase = .loop ∧ ¬ ((at_ k).rem = 0 ∧ (at_ k).i = n) ∧
      (at_ k).o = k) ∧
    (at_ 0).i = 1 ∧ (at_ total).i = n ∧ (at_ total).o = total ∧ (at_ total).rem = 0 ∧
    (at_ total).phase = .loop ∧
    (∀ k, (at_ k).rem ≤ 12 ∧ (encFill src (at_ k)).rem ≤ 12) ∧
    (at_ (total + 7)).phase = .done ∧ (at_ (total + 7)).o = encodedLength n ∧
    (at_ (total + 7)).out.drop total = List.replicate (encodedLength n - total) padChar ∧
    encodedLength n - total = [0, 6, 4, 3, 1].getD (n % 5) 0

/-- 41_base32.md R129. -/
def Obligations.EncodeOutputShape : Prop :=
  (∀ (s t : State) (r : Request) (bs : List Byte) (out : List CodeUnit) (rsp : Response),
    s.req = some r → r.ipay = .bytes bs → exec .b32Encode s = .next t → t.resp = some rsp →
    rsp.opay = some (.chars out) →
      out.length = encodedLength bs.length ∧ out.length % 8 = 0 ∧
      ∃ m, (∀ c ∈ out.take m, ∃ v, v < 32 ∧ c = alphabet v) ∧ (∀ c ∈ out.drop m, c = padChar)) ∧
  (∀ n, (n * 8 + 4) / 5 ≤ encodedLength n)

/-- 41_base32.md R109. -/
def Obligations.DecodeRunsTheDecoder : Prop :=
  SelectedByWord 0x00000004#32 .b32Decode ∧
  ∀ (s : State) (r : Request) (cs : List CodeUnit), s.req = some r → r.ipay = .chars cs →
    (Payload.chars cs).fits s.cfg = true →
    (r.a0.toInt < 0 ∨ r.a0.toInt < (decodedLength cs.length : Int) →
      Fails s .b32Decode .invalidArgument) ∧
    ((decodedLength cs.length : Int) ≤ r.a0.toInt →
      ((∀ c ∈ cs, charToValue c ≠ none) → ∃ (d : DecRegs accW) (v : Word128),
        decRun accW cs = .ok d ∧ d.phase = .done ∧ v.toNat = decodedLength cs.length ∧
        d.out.length = decodedLength cs.length ∧
        Answers s .b32Decode { status := .ok, dout := some v, opay := some (.bytes d.out) }) ∧
      (∀ e, decRun accW cs = .error e → Answers s .b32Decode
        { status := .invalidCharacter, einfo := some e.char,
          dout := some (BitVec.ofNat 128 e.index) }))

/-- 41_base32.md R126, 60_exceptions.md R258. -/
def Obligations.FirstBadCharacterIsReported : Prop :=
  (∀ (s : State) (r : Request) (cs : List CodeUnit) (j : Nat) (c : CodeUnit),
    s.req = some r → r.ipay = .chars cs → (Payload.chars cs).fits s.cfg = true →
    cs[j]? = some c → charToValue c = none → (∀ i, i < j → charToValue (cs.getD i 0) ≠ none) →
      ((decodedLength cs.length : Int) ≤ r.a0.toInt → ∃ v : Word128, v.toNat = j ∧
        Answers s .b32Decode { status := .invalidCharacter, einfo := some c, dout := some v }) ∧
      (∀ m, IsStripped cs m → j < m → (decodedLength m : Int) ≤ r.a0.toInt →
        ∃ v : Word128, v.toNat = j ∧
          Answers s .b32Decodep
            { status := .invalidCharacter, einfo := some c, dout := some v })) ∧
  (∀ (s t : State) (rsp : Response), exec .b32Encode s = .next t → t.resp = some rsp →
    rsp.status ≠ .invalidCharacter)

/-- The decoder FSM (41_base32.md R123, R124, R127) reads a base-32 number, drops the low bits that
fill no byte, and writes it in base 256. -/
def Obligations.DecoderReadsTheNumberInBase32 : Prop :=
  ∀ (cs : List CodeUnit) (vs : List Nat), cs.map charToValue = vs.map some →
    ∃ d, decRun accW cs = .ok d ∧ d.phase = .done ∧ d.out = refDecode vs

/-- 41_base32.md R125, R127. -/
def Obligations.DecoderStepAndLeftoverCounts : Prop :=
  ∀ cs : List CodeUnit, (∀ c ∈ cs, charToValue c ≠ none) →
    (∀ k, k ≤ cs.length → ∃ d, decSteps cs k (decStart accW) = .ok d ∧ d.phase = .loop ∧ d.j = k ∧
      d.rem = 5 * k % 8 ∧ d.o = 5 * k / 8) ∧
    ∃ d, decSteps cs (cs.length + 1) (decStart accW) = .ok d ∧ d.phase = .done ∧
      d.o = decodedLength cs.length ∧ d.out.length = cs.length * 5 / 8 ∧
      d.rem = [0, 5, 2, 7, 4, 1, 6, 3].getD (cs.length % 8) 0

/-- 41_base32.md R110. -/
def Obligations.StripCountsWhatIsLeft : Prop :=
  SelectedByWord 0x00000005#32 .b32Strip ∧
  ∀ (s : State) (r : Request) (cs : List CodeUnit), s.req = some r → r.ipay = .chars cs →
    (Payload.chars cs).fits s.cfg = true →
    ∃ v : Word128, IsStripped cs v.toNat ∧ Answers s .b32Strip { status := .ok, dout := some v }

/-- 41_base32.md R111. -/
def Obligations.DecodepStripsThenDecodes : Prop :=
  SelectedByWord 0x00000006#32 .b32Decodep ∧
  ∀ (s : State) (r : Request) (cs : List CodeUnit) (m : Nat), s.req = some r →
    r.ipay = .chars cs → (Payload.chars cs).fits s.cfg = true → IsStripped cs m →
    (r.a0.toInt < 0 ∨ r.a0.toInt < (decodedLength m : Int) →
      Fails s .b32Decodep .invalidArgument) ∧
    ((decodedLength m : Int) ≤ r.a0.toInt →
      (m = 0 → Answers s .b32Decodep
        { status := .ok, dout := some 0#128, opay := some (.bytes []) }) ∧
      (m ≠ 0 → (∀ c ∈ cs.take m, charToValue c ≠ none) → ∃ (d : DecRegs accW) (v : Word128),
        decRun accW (cs.take m) = .ok d ∧ d.phase = .done ∧ v.toNat = d.out.length ∧
        d.out.length = decodedLength m ∧
        Answers s .b32Decodep { status := .ok, dout := some v, opay := some (.bytes d.out) }) ∧
      (∀ e, m ≠ 0 → decRun accW (cs.take m) = .error e → Answers s .b32Decodep
        { status := .invalidCharacter, einfo := some e.char,
          dout := some (BitVec.ofNat 128 e.index) }))

/-- 41_base32.md R128, the round trip, with the capacity R111 asks for: the text's stripped count
decodes to |b| bytes (log 20). -/
def Obligations.DecodeOfEncodeGivesTheBytesBack : Prop :=
  ∀ (s : State) (r : Request) (bs : List Byte), s.req = some r → r.ipay = .bytes bs →
    r.a0.toInt = (encodedLength bs.length : Int) →
    ∃ (v : Word128) (txt : List CodeUnit),
      Answers s .b32Encode { status := .ok, dout := some v, opay := some (.chars txt) } ∧
      ∀ (s' : State) (r' : Request), s'.cfg.wf = true → s'.req = some r' → r'.ipay = .chars txt →
        r'.a0.toInt = (bs.length : Int) →
        ∃ v' : Word128, v'.toNat = bs.length ∧
          Answers s' .b32Decodep { status := .ok, dout := some v', opay := some (.bytes bs) }

/-- With the capacity that R128's words name, decoded_length(|b|), B32.DECODEP of the encoded text of
one byte or more fails by R111 (log 20). -/
def Obligations.DecodedLengthOfTheByteCountIsTooSmallACapacity : Prop :=
  ∀ (s : State) (r : Request) (bs : List Byte), bs ≠ [] → s.req = some r →
    r.ipay = .chars (encRun accW bs).out → (Payload.chars (encRun accW bs).out).fits s.cfg = true →
    r.a0.toInt = (decodedLength bs.length : Int) → Fails s .b32Decodep .invalidArgument

/-- 00_scope.md R8: any accumulator of 12 bits or more gives the results of the block's 16 bits. -/
def Obligations.AnyAccumulatorWidthFromTwelveAgrees : Prop :=
  ∀ w : Nat, 12 ≤ w →
    (∀ bs : List Byte, bs ≠ [] → (encRun w bs).out = (encRun accW bs).out) ∧
    (∀ (cs : List CodeUnit) (d : DecRegs accW), decRun accW cs = .ok d →
      ∃ d' : DecRegs w, decRun w cs = .ok d' ∧ d'.out = d.out) ∧
    (∀ (cs : List CodeUnit) (e : BadChar), decRun accW cs = .error e → decRun w cs = .error e)

/-- 10_state.md R37: a codec command's response depends on its request alone, and no codec register
persists. -/
def Obligations.CodecResultIsAFunctionOfTheRequest : Prop :=
  ∀ (i : Instr) (s s' t t' : State), isCodec i = true → s.req = s'.req →
    exec i s = .next t → exec i s' = .next t' → t.resp = t'.resp ∧ t.codec = .idle

/-- 20_memory.md R51, 10_state.md R37: the frame of the six codec commands. -/
def Obligations.CodecTouchesNoSlotAndNoMem : Prop :=
  ∀ (i : Instr) (s t : State), isCodec i = true → exec i s = .next t →
    (∀ k, t.slot k = s.slot k) ∧ (∀ a, t.readByte a = s.readByte a) ∧ t.cfg = s.cfg ∧
    t.host = s.host ∧ t.req = none ∧
    ∃ rsp, t.resp = some rsp ∧
      t.history = (if rsp.status = .ok then s.history else s.history ++ [rsp])

/-! ## Cursor control -/

/-- 42_cursor_control.md R150 to R153. -/
def Obligations.OpenConstructsTheCursor : Prop :=
  SelectedBySlot 0x00000010#32 .curOpenr ∧ SelectedBySlot 0x00000011#32 .curOpenw ∧
  ∀ (s : State) (r : Request) (m : Mode) (k : Nat), s.req = some r →
    (s.cfg.nslot ≤ k → Fails s (openInstr m k) .illegalCommand) ∧
    (k < s.cfg.nslot →
      (r.a1.toInt < 0 ∨ 2 ^ s.cfg.addrW ≤ r.a0.toNat ∨
        (2 ^ s.cfg.addrW : Int) < r.a0.toNat + r.a1.toInt) →
      Fails s (openInstr m k) .invalidArgument) ∧
    (∀ len : Nat, k < s.cfg.nslot → r.a1.toInt = len → r.a0.toNat < 2 ^ s.cfg.addrW →
      r.a0.toNat + len ≤ 2 ^ s.cfg.addrW →
      Completes s (openInstr m k) { status := .ok }
        (rebound s.slot k (some { mode := m, origin := r.a0.toNat, length := len, pos := 0 }))
        s.readByte)

/-- 42_cursor_control.md R155, R162. -/
def Obligations.GetposAndRemReportTheCursor : Prop :=
  SelectedBySlot 0x00000012#32 .curGetpos ∧ SelectedBySlot 0x00000014#32 .curRem ∧
  ∀ (s : State) (r : Request) (k : Nat), s.req = some r →
    (BadSlot s k .any → Fails s (.curGetpos k) .illegalCommand ∧
      Fails s (.curRem k) .illegalCommand) ∧
    (∀ c, GoodSlot s k .any c → c.pos ≤ c.length → c.length ≤ lenMax →
      ∃ p q : Word128, p.toNat = c.pos ∧ q.toNat = c.length - c.pos ∧
        Answers s (.curGetpos k) { status := .ok, dout := some p } ∧
        Answers s (.curRem k) { status := .ok, dout := some q })

/-- 42_cursor_control.md R160. -/
def Obligations.SetposMovesWithinTheRegion : Prop :=
  SelectedBySlot 0x00000013#32 .curSetpos ∧
  ∀ (s : State) (r : Request) (k : Nat), s.req = some r →
    (BadSlot s k .any → Fails s (.curSetpos k) .illegalCommand) ∧
    (∀ c, GoodSlot s k .any c →
      (r.a0.toInt < 0 ∨ (c.length : Int) < r.a0.toInt →
        Fails s (.curSetpos k) .invalidArgument) ∧
      (∀ p : Nat, r.a0.toInt = p → p ≤ c.length →
        Completes s (.curSetpos k) { status := .ok }
          (rebound s.slot k (some { c with pos := p })) s.readByte))

/-- 42_cursor_control.md R165. -/
def Obligations.CloseUnbindsTheSlot : Prop :=
  SelectedBySlot 0x00000015#32 .curClose ∧
  ∀ (s : State) (r : Request) (k : Nat), s.req = some r →
    (BadSlot s k .any → Fails s (.curClose k) .illegalCommand) ∧
    (∀ c, GoodSlot s k .any c →
      Completes s (.curClose k) { status := .ok } (rebound s.slot k none) s.readByte)

/-- 42_cursor_control.md R154, for every cursor command other than construction. -/
def Obligations.SlotCheckGuardsEveryCursorCommand : Prop :=
  ∀ (s : State) (r : Request) (i : Instr) (k : Nat) (n : Need), s.req = some r →
    i.slot? = some k → needOf i = some n → r.formed s.cfg i = true →
    (BadSlot s k n → Fails s i .illegalCommand) ∧
    (∀ c t rsp, GoodSlot s k n c → exec i s = .next t → t.resp = some rsp →
      rsp.status ≠ .illegalCommand)

/-! ## Reads -/

/-- 43_cursor_read.md R180, R181, R182 (and R183 to R194, one type each): the twelve numeric
reads. -/
def Obligations.NumericReadsGiveTheBytesValue : Prop :=
  ∀ ty : NumType,
    SelectedByNumeric (BitVec.ofNat 32 (0x20 + numIndex ty)) (readInstr ty) ∧
    ∀ (s : State) (r : Request) (k : Nat) (o : Order), s.req = some r →
      (BadSlot s k .reader → Fails s (readInstr ty k o) .illegalCommand) ∧
      (∀ c, GoodSlot s k .reader c → InMem s c →
        (c.length - c.pos < typeWidth ty → Fails s (readInstr ty k o) .bufferUnderrun) ∧
        (typeWidth ty ≤ c.length - c.pos →
          ∃ (v : Word128) (raw : Nat), raw < 256 ^ typeWidth ty ∧
            (∀ j, j < typeWidth ty → raw / 256 ^ j % 256 =
              (s.readByte (c.origin + c.pos +
                weightOffset (isLittle s.cfg o) (typeWidth ty) j)).toNat) ∧
            (isSigned ty = false → v.toNat = raw) ∧
            (isSigned ty = true → v.toInt =
              if 2 * raw < 256 ^ typeWidth ty then (raw : Int)
              else (raw : Int) - (256 ^ typeWidth ty : Nat)) ∧
            Completes s (readInstr ty k o) { status := .ok, dout := some v }
              (rebound s.slot k (some { c with pos := c.pos + typeWidth ty })) s.readByte))

/-- 43_cursor_read.md R201, and the same of the writes (20_memory.md R55). -/
def Obligations.ExplicitOrdersDoNotDependOnTheHost : Prop :=
  ∀ (ty : NumType) (s : State) (k : Nat),
    (∀ (o : Order) (e : Endian) (t t' : State), o ≠ .native →
      exec (readInstr ty k o) s = .next t →
      exec (readInstr ty k o) { s with cfg := { s.cfg with hostOrder := e } } = .next t' →
      t.resp = t'.resp) ∧
    (∀ (o : Order) (e : Endian) (t t' : State), o ≠ .native →
      exec (writeInstr ty k o) s = .next t →
      exec (writeInstr ty k o) { s with cfg := { s.cfg with hostOrder := e } } = .next t' →
      t.resp = t'.resp ∧ ∀ a, t.readByte a = t'.readByte a) ∧
    (s.cfg.hostOrder = .little →
      exec (readInstr ty k .native) s = exec (readInstr ty k .little) s ∧
      exec (writeInstr ty k .native) s = exec (writeInstr ty k .little) s) ∧
    (s.cfg.hostOrder = .big →
      exec (readInstr ty k .native) s = exec (readInstr ty k .big) s ∧
      exec (writeInstr ty k .native) s = exec (writeInstr ty k .big) s)

/-- 43_cursor_read.md R195, R196. -/
def Obligations.RdBytesCopiesTheBytes : Prop :=
  SelectedBySlot 0x00000030#32 .rdBytes ∧
  ∀ (s : State) (r : Request) (k : Nat), s.req = some r →
    (BadSlot s k .reader → Fails s (.rdBytes k) .illegalCommand) ∧
    (∀ c, GoodSlot s k .reader c → InMem s c →
      (r.a0.toInt < 0 → Fails s (.rdBytes k) .invalidArgument) ∧
      (((c.length - c.pos : Nat) : Int) < r.a0.toInt → Fails s (.rdBytes k) .bufferUnderrun) ∧
      (∀ n : Nat, r.a0.toInt = n → n ≤ c.length - c.pos →
        ∃ (v : Word128) (bs : List Byte), v.toNat = n ∧ bs.length = n ∧
          (∀ j, j < n → bs.getD j 0#8 = s.readByte (c.origin + c.pos + j)) ∧
          Completes s (.rdBytes k) { status := .ok, dout := some v, opay := some (.bytes bs) }
            (rebound s.slot k (some { c with pos := c.pos + n })) s.readByte))

/-- 43_cursor_read.md R195, R197, at every address: DOUT's low half is address[63:0]
(30_encoding.md R80). -/
def Obligations.RdSliceGivesTheView : Prop :=
  SelectedBySlot 0x00000031#32 .rdSlice ∧
  ∀ (s : State) (r : Request) (k : Nat), s.req = some r →
    (BadSlot s k .reader → Fails s (.rdSlice k) .illegalCommand) ∧
    (∀ c, GoodSlot s k .reader c →
      (r.a0.toInt < 0 → Fails s (.rdSlice k) .invalidArgument) ∧
      (((c.length - c.pos : Nat) : Int) < r.a0.toInt → Fails s (.rdSlice k) .bufferUnderrun) ∧
      (∀ n : Nat, r.a0.toInt = n → n ≤ c.length - c.pos →
        ∃ v : Word128, v.toNat / 2 ^ 64 = n ∧
          v.toNat % 2 ^ 64 = (c.origin + c.pos) % 2 ^ 64 ∧
          Completes s (.rdSlice k) { status := .ok, dout := some v }
            (rebound s.slot k (some { c with pos := c.pos + n })) s.readByte))

/-- 43_cursor_read.md R198. -/
def Obligations.RdCstrReadsToTheTerminator : Prop :=
  SelectedBySlot 0x00000032#32 .rdCstr ∧
  ∀ (s : State) (r : Request) (k : Nat), s.req = some r →
    (BadSlot s k .reader → Fails s (.rdCstr k) .illegalCommand) ∧
    (∀ c, GoodSlot s k .reader c → InMem s c → c.length ≤ lenMax →
      ((∀ j, j < c.length - c.pos → s.readByte (c.origin + c.pos + j) ≠ 0#8) →
        Fails s (.rdCstr k) .malformedData) ∧
      (∀ n, n < c.length - c.pos → s.readByte (c.origin + c.pos + n) = 0#8 →
        (∀ j, j < n → s.readByte (c.origin + c.pos + j) ≠ 0#8) →
        ∃ (v : Word128) (bs : List Byte), v.toNat = n ∧ bs.length = n ∧
          (∀ j, j < n → bs.getD j 0#8 = s.readByte (c.origin + c.pos + j)) ∧
          (textDecode s.cfg .utf8 bs = none → Fails s (.rdCstr k) .malformedData) ∧
          (∀ txt, textDecode s.cfg .utf8 bs = some txt →
            Completes s (.rdCstr k)
              { status := .ok, dout := some v, opay := some (.bytes bs), otext := some txt }
              (rebound s.slot k (some { c with pos := c.pos + n + 1 })) s.readByte)) ∧
      (0 < c.length - c.pos → s.readByte (c.origin + c.pos) = 0#8 →
        Completes s (.rdCstr k)
          { status := .ok, dout := some 0#128, opay := some (.bytes []), otext := some [] }
          (rebound s.slot k (some { c with pos := c.pos + 1 })) s.readByte))

/-- 43_cursor_read.md R195, R199. -/
def Obligations.RdStrReadsCountedText : Prop :=
  SelectedBySlot 0x00000033#32 (.rdStr · .utf8) ∧
  ∀ (s : State) (r : Request) (k : Nat), s.req = some r →
    (BadSlot s k .reader → Fails s (.rdStr k .utf8) .illegalCommand) ∧
    (∀ c, GoodSlot s k .reader c → InMem s c →
      (r.a0.toInt < 0 → Fails s (.rdStr k .utf8) .invalidArgument) ∧
      (((c.length - c.pos : Nat) : Int) < r.a0.toInt →
        Fails s (.rdStr k .utf8) .bufferUnderrun) ∧
      (∀ n : Nat, r.a0.toInt = n → n ≤ c.length - c.pos →
        ∃ (v : Word128) (bs : List Byte), v.toNat = n ∧ bs.length = n ∧
          (∀ j, j < n → bs.getD j 0#8 = s.readByte (c.origin + c.pos + j)) ∧
          (textDecode s.cfg .utf8 bs = none → Fails s (.rdStr k .utf8) .malformedData) ∧
          (∀ txt, textDecode s.cfg .utf8 bs = some txt →
            Completes s (.rdStr k .utf8)
              { status := .ok, dout := some v, opay := some (.bytes bs), otext := some txt }
              (rebound s.slot k (some { c with pos := c.pos + n })) s.readByte)) ∧
      (r.a0.toInt = 0 → Answers s (.rdStr k .utf8)
        { status := .ok, dout := some 0#128, opay := some (.bytes []), otext := some [] }))

/-- 43_cursor_read.md R200, the frame of the sixteen reads. -/
def Obligations.ReadsChangeOnlyTheirPosition : Prop :=
  ∀ (i : Instr) (s t : State) (k : Nat), isRead i = true → i.slot? = some k →
    exec i s = .next t →
    (∀ a, t.readByte a = s.readByte a) ∧ (∀ j, j ≠ k → t.slot j = s.slot j) ∧
    (s.slot k = none → t.slot k = none) ∧
    (∀ c, s.slot k = some c → ∃ p, c.pos ≤ p ∧ t.slot k = some { c with pos := p }) ∧
    t.cfg = s.cfg ∧ t.host = s.host ∧ t.req = none ∧
    ∃ rsp, t.resp = some rsp ∧ (rsp.status ≠ .ok → t.slots = s.slots) ∧
      t.history = (if rsp.status = .ok then s.history else s.history ++ [rsp])

/-- 20_memory.md R52, 43_cursor_read.md R200: what a read answers depends on no byte of MEM outside
[origin + pos, origin + length). -/
def Obligations.ReadsSeeOnlyTheirRegion : Prop :=
  ∀ (i : Instr) (s t t' : State) (m : Memory) (k : Nat) (c : Cursor), isRead i = true →
    i.slot? = some k → s.slot k = some c →
    (∀ a, c.origin + c.pos ≤ a → a < c.origin + c.length →
      memGet s.cfg m a = memGet s.cfg s.mem a) →
    exec i s = .next t → exec i { s with mem := m } = .next t' →
    t'.resp = t.resp ∧ t'.slots = t.slots

/-! ## Writes -/

/-- 44_cursor_write.md R220, R233 (and R221 to R232, one type each): the twelve numeric writes. -/
def Obligations.NumericWritesStoreTheValuesBytes : Prop :=
  ∀ ty : NumType,
    SelectedByNumeric (BitVec.ofNat 32 (0x40 + numIndex ty)) (writeInstr ty) ∧
    ∀ (s : State) (r : Request) (k : Nat) (o : Order), s.req = some r →
      (BadSlot s k .writer → Fails s (writeInstr ty k o) .illegalCommand) ∧
      (∀ c, GoodSlot s k .writer c → InMem s c →
        (c.length - c.pos < typeWidth ty → Fails s (writeInstr ty k o) .bufferOverrun) ∧
        (typeWidth ty ≤ c.length - c.pos →
          ∃ bs : List Byte, bs.length = typeWidth ty ∧
            (∀ j, j < typeWidth ty →
              (bs.getD (weightOffset (isLittle s.cfg o) (typeWidth ty) j) 0#8).toNat =
                r.din.toNat / 256 ^ j % 256) ∧
            Completes s (writeInstr ty k o) { status := .ok }
              (rebound s.slot k (some { c with pos := c.pos + typeWidth ty }))
              (patched s.readByte (c.origin + c.pos) bs)))

/-- 44_cursor_write.md R234. -/
def Obligations.WrBytesStoresThePayload : Prop :=
  SelectedBySlot 0x00000050#32 .wrBytes ∧
  ∀ (s : State) (r : Request) (k : Nat) (bs : List Byte), s.req = some r → r.ipay = .bytes bs →
    bs.length ≤ lenMax →
    (BadSlot s k .writer → Fails s (.wrBytes k) .illegalCommand) ∧
    (∀ c, GoodSlot s k .writer c → InMem s c →
      (c.length - c.pos < bs.length → Fails s (.wrBytes k) .bufferOverrun) ∧
      (bs.length ≤ c.length - c.pos →
        ∃ v : Word128, v.toNat = bs.length ∧
          Completes s (.wrBytes k) { status := .ok, dout := some v }
            (rebound s.slot k (some { c with pos := c.pos + bs.length }))
            (patched s.readByte (c.origin + c.pos) bs)))

/-- 44_cursor_write.md R236, the frame of the thirteen writes: no byte changes but those from the
address the write stores to (none where the slot check fails), no slot but the position of its own,
and MEM decides nothing of the response or the slots. -/
def Obligations.WritesChangeOnlyTheirBytesAndPosition : Prop :=
  ∀ (i : Instr) (s t : State) (r : Request) (k : Nat), isWrite i = true → i.slot? = some k →
    s.req = some r → exec i s = .next t →
    (∀ a, s.storeAddress k = some a → ∀ x, x < a ∨ a + storeWidth r i ≤ x →
      t.readByte x = s.readByte x) ∧
    (s.storeAddress k = none → ∀ x, t.readByte x = s.readByte x) ∧
    (∀ j, j ≠ k → t.slot j = s.slot j) ∧ (s.slot k = none → t.slot k = none) ∧
    (∀ c, s.slot k = some c → ∃ p, c.pos ≤ p ∧ t.slot k = some { c with pos := p }) ∧
    t.cfg = s.cfg ∧ t.host = s.host ∧ t.req = none ∧
    (∃ rsp, t.resp = some rsp ∧
      t.history = (if rsp.status = .ok then s.history else s.history ++ [rsp])) ∧
    (∀ (m : Memory) (t' : State), exec i { s with mem := m } = .next t' →
      t'.resp = t.resp ∧ t'.slots = t.slots)

/-- 44_cursor_write.md R235: a value written is read back, through any reader at the same bytes, by
the same type and order; read in the other explicit order it is byte-reversed. -/
def Obligations.ValueWrittenIsReadBack : Prop :=
  ∀ (ty : NumType) (o : Order) (s t : State) (r : Request) (k : Nat) (c : Cursor),
    s.req = some r → GoodSlot s k .writer c → InMem s c → typeWidth ty ≤ c.length - c.pos →
    exec (writeInstr ty k o) s = .next t →
    ∀ (u : State) (r' : Request) (j : Nat) (d : Cursor), u.cfg = t.cfg →
      (∀ a, u.readByte a = t.readByte a) → u.req = some r' → GoodSlot u j .reader d → InMem u d →
      d.origin + d.pos = c.origin + c.pos → typeWidth ty ≤ d.length - d.pos →
      (∃ v : Word128,
        (isSigned ty = false → v.toNat = r.din.toNat % 256 ^ typeWidth ty) ∧
        (isSigned ty = true → v.toInt = (r.din.setWidth (8 * typeWidth ty)).toInt) ∧
        Completes u (readInstr ty j o) { status := .ok, dout := some v }
          (rebound u.slot j (some { d with pos := d.pos + typeWidth ty })) u.readByte) ∧
      (∀ o' : Order, (o = .little ∧ o' = .big) ∨ (o = .big ∧ o' = .little) →
        ∃ v : Word128,
          (∀ x, x < typeWidth ty → v.toNat / 256 ^ x % 256 =
            r.din.toNat / 256 ^ (typeWidth ty - 1 - x) % 256) ∧
          Completes u (readInstr ty j o') { status := .ok, dout := some v }
            (rebound u.slot j (some { d with pos := d.pos + typeWidth ty })) u.readByte)

/-- 20_memory.md R64, R68; 70_reset_and_hazards.md R288: the bytes WR.BYTES stores are what the next
RD.BYTES over them returns, through any reader slot. -/
def Obligations.BytesWrittenAreReadBack : Prop :=
  ∀ (s t : State) (r : Request) (k : Nat) (c : Cursor) (bs : List Byte), s.req = some r →
    r.ipay = .bytes bs → GoodSlot s k .writer c → InMem s c → bs.length ≤ c.length - c.pos →
    exec (.wrBytes k) s = .next t →
    ∀ (u : State) (r' : Request) (j : Nat) (d : Cursor), u.cfg = t.cfg →
      (∀ a, u.readByte a = t.readByte a) → u.req = some r' → GoodSlot u j .reader d → InMem u d →
      d.origin + d.pos = c.origin + c.pos → bs.length ≤ d.length - d.pos →
      r'.a0.toInt = (bs.length : Int) →
      ∃ v : Word128, Completes u (.rdBytes j)
        { status := .ok, dout := some v, opay := some (.bytes bs) }
        (rebound u.slot j (some { d with pos := d.pos + bs.length })) u.readByte

/-! ## Rules about every command -/

/-- 20_memory.md R68: a command changes no slot but the one it names. -/
def Obligations.OtherSlotsAreUntouched : Prop :=
  ∀ (i : Instr) (s t : State) (j : Nat), exec i s = .next t → i.slot? ≠ some j →
    t.slot j = s.slot j

/-- 10_state.md R33: mode, origin and length of a bound slot change only by construction or release
of that slot, and pos only by a read, a write or CUR.SETPOS on it. -/
def Obligations.OnlyConstructionAndReleaseReshapeACursor : Prop :=
  ∀ (s t : State) (r : Request) (i : Instr) (j : Nat) (c : Cursor), s.req = some r →
    decode r.cmd = some i → step s = .next t → s.slot j = some c →
    (∀ m, i ≠ openInstr m j) → i ≠ .curClose j →
    ∃ p, t.slot j = some { c with pos := p } ∧
      (p ≠ c.pos → i.slot? = some j ∧ (isRead i = true ∨ isWrite i = true ∨ i = .curSetpos j))

/-- 42_cursor_control.md R166: a bound slot stays bound until CUR.CLOSE, a new construction or
reset, whatever the step is. -/
def Obligations.BoundSlotsStayBound : Prop :=
  ∀ (s t : State) (j : Nat) (c : Cursor), step s = .next t → s.slot j = some c →
    (∀ r, s.req = some r → decode r.cmd ≠ some (.curClose j)) →
    (∀ rest, s.req = none → s.host ≠ .reset :: rest) →
    ∃ d, t.slot j = some d

/-- 20_memory.md R51: a command that is no write changes no byte of MEM. -/
def Obligations.OnlyWritesChangeMem : Prop :=
  ∀ (i : Instr) (s t : State), isWrite i = false → exec i s = .next t →
    ∀ a, t.readByte a = s.readByte a

/-- 00_scope.md R7, 20_memory.md R56: the parameters are fixed for the life of the block. -/
def Obligations.ParametersNeverChange : Prop :=
  ∀ s t : State, step s = .next t → t.cfg = s.cfg

/-- 60_exceptions.md R256. -/
def Obligations.FailureChangesNoPersistentState : Prop :=
  ∀ (s t : State) (r : Request) (rsp : Response), s.req = some r → step s = .next t →
    t.resp = some rsp → rsp.status ≠ .ok →
    t.slots = s.slots ∧ t.mem = s.mem ∧ t.cfg = s.cfg ∧
    (∀ k, t.slot k = s.slot k) ∧ (∀ a, t.readByte a = s.readByte a)

/-- 60_exceptions.md R262. -/
def Obligations.HistoryKeepsEveryFailure : Prop :=
  (∀ (s t : State) (r : Request), s.req = some r → step s = .next t →
    ∃ rsp, t.resp = some rsp ∧
      t.history = (if rsp.status = .ok then s.history else s.history ++ [rsp])) ∧
  (∀ s t : State, s.req = none → step s = .next t → t.history = s.history)

/-- 10_state.md R25 to R28. -/
def Obligations.ResponseFieldsAreDefinedAsTheRulesSay : Prop :=
  (∀ (s t : State) (r : Request), s.req = some r → step s = .next t →
    ∃ rsp, t.resp = some rsp ∧
      (rsp.einfo.isSome = true ↔ rsp.status = .invalidCharacter) ∧
      (∀ i, decode r.cmd = some i →
        (rsp.status = .ok → rsp.dout.isSome = writesDout i ∧ rsp.opay.isSome = writesOpay i ∧
          rsp.otext.isSome = writesOtext i)) ∧
      (rsp.status = .invalidCharacter → rsp.dout.isSome = true) ∧
      (rsp.status ≠ .ok → rsp.opay = none ∧ rsp.otext = none) ∧
      (rsp.status ≠ .ok → rsp.status ≠ .invalidCharacter → rsp.dout = none)) ∧
  (∀ (s : State) (f : Field) (rest : List HostAction), s.req = none →
    s.host = .readField f :: rest →
    (∀ rsp, s.resp = some rsp → rsp.has f = true → step s = .next { s with host := rest }) ∧
    ((∀ rsp, s.resp = some rsp → rsp.has f = false) → step s = .fault (.absentField f)))

/-- 60_exceptions.md R250: the code of each status, and which command may report which. -/
def Obligations.StatusesComeFromTheCommandsThatRaiseThem : Prop :=
  [Status.ok, .invalidCharacter, .bufferUnderrun, .bufferOverrun, .malformedData,
    .invalidArgument, .illegalCommand].map Status.code = [0#8, 1#8, 2#8, 3#8, 4#8, 5#8, 6#8] ∧
  ∀ (i : Instr) (s t : State) (rsp : Response), exec i s = .next t → t.resp = some rsp →
    canRaise i rsp.status = true

/-- 60_exceptions.md R259. The first clause is the rule: every command, illegal words included,
reports the first status of the list that applies, and InvalidCharacter names the first offender. The
other clauses take conflicts of the list one by one: the slot before the operand, for CheckSlot and
for a construction's index; the operand before the bounds; the capacity before the characters; the
bounds before the text. -/
def Obligations.TheFirstFailureInOrderIsReported : Prop :=
  (∀ (s t : State) (r : Request) (rsp : Response), s.req = some r → step s = .next t →
    t.resp = some rsp →
    firstThatApplies (failureOrder s r (decode r.cmd)) rsp.status ∧
    (∀ i j c, decode r.cmd = some i → rsp.status = .invalidCharacter → firstBadChar r i j c →
      rsp.einfo = some c ∧ rsp.dout = some (BitVec.ofNat 128 j))) ∧
  (∀ (s : State) (r : Request) (k : Nat) (n : Need) (i : Instr),
    i ∈ [.rdBytes k, .rdSlice k, .rdStr k .utf8, .curSetpos k] → needOf i = some n →
    s.req = some r → BadSlot s k n → r.a0.toInt < 0 → Fails s i .illegalCommand) ∧
  (∀ (s : State) (r : Request) (m : Mode) (k : Nat), s.req = some r → s.cfg.nslot ≤ k →
    r.a1.toInt < 0 → Fails s (openInstr m k) .illegalCommand) ∧
  (∀ (s : State) (r : Request) (k : Nat) (c : Cursor) (i : Instr),
    i ∈ [.rdBytes k, .rdSlice k, .rdStr k .utf8] → s.req = some r →
    GoodSlot s k .reader c → InMem s c → c.pos = c.length → r.a0.toInt < 0 →
    Fails s i .invalidArgument) ∧
  (∀ (s : State) (r : Request) (cs : List CodeUnit) (e : BadChar), s.req = some r →
    r.ipay = .chars cs → (Payload.chars cs).fits s.cfg = true →
    (decRun accW cs = .error e → r.a0.toInt < (decodedLength cs.length : Int) →
      Fails s .b32Decode .invalidArgument) ∧
    (∀ m, IsStripped cs m → decRun accW (cs.take m) = .error e →
      r.a0.toInt < (decodedLength m : Int) → Fails s .b32Decodep .invalidArgument)) ∧
  (∀ (s : State) (r : Request) (k : Nat) (c : Cursor), s.req = some r →
    GoodSlot s k .reader c → InMem s c →
    textDecode s.cfg .utf8 (s.readBytes (c.origin + c.pos) (c.length - c.pos)) = none →
    ((c.length - c.pos : Nat) : Int) < r.a0.toInt → Fails s (.rdStr k .utf8) .bufferUnderrun)

/-- 10_state.md R21, R23: a command reads only the request fields its rule names, and a numeric
write only the low 8W bits of DIN; no request field is kept for the next command. -/
def Obligations.UnnamedRequestFieldsAreIgnored : Prop :=
  (∀ (i : Instr) (s : State) (r r' : Request), sameOperands i r r' →
    exec i { s with req := some r } = exec i { s with req := some r' }) ∧
  (∀ (i : Instr) (s t : State), exec i s = .next t → t.req = none)

/-- Where the model stops, and by which name: no request pending (log 13), a request that cannot be
formed (10_state.md R24, log 7), a cursor whose region is not inside MEM (log 12). -/
def Obligations.StopsAreNamed : Prop :=
  (∀ (i : Instr) (s : State), s.req = none → exec i s = .fault .noRequest) ∧
  (∀ (i : Instr) (s : State) (r : Request), s.req = some r → r.formed s.cfg i = false →
    exec i s = .refused .unformedRequest) ∧
  (∀ (i : Instr) (s : State) (r : Request) (k : Nat) (n : Need) (c : Cursor), s.req = some r →
    r.formed s.cfg i = true → touchesMem i = true → i.slot? = some k → needOf i = some n →
    GoodSlot s k n c → 2 ^ s.cfg.addrW < c.origin + c.length →
    exec i s = .fault .outsideMem)

/-- 42_cursor_control.md R167: on an exhausted cursor the control commands and the reads and writes
of zero bytes succeed, and every read or write of one byte or more fails its bounds check. RD.CSTR,
which has no count, finds no terminator there (43_cursor_read.md R198). -/
def Obligations.ExhaustedCursorAcceptsWhatNeedsNoByte : Prop :=
  ∀ (s : State) (r : Request) (k : Nat) (c : Cursor), s.req = some r → GoodSlot s k .any c →
    InMem s c → c.pos = c.length → c.length ≤ lenMax →
    (∃ v : Word128, v.toNat = c.length ∧
      Answers s (.curGetpos k) { status := .ok, dout := some v }) ∧
    Answers s (.curRem k) { status := .ok, dout := some 0#128 } ∧
    (∀ p : Nat, r.a0.toInt = p → p ≤ c.length →
      Completes s (.curSetpos k) { status := .ok }
        (rebound s.slot k (some { c with pos := p })) s.readByte) ∧
    Completes s (.curClose k) { status := .ok } (rebound s.slot k none) s.readByte ∧
    (c.mode = .reader →
      (r.a0.toInt = 0 →
        Answers s (.rdBytes k) { status := .ok, dout := some 0#128, opay := some (.bytes []) } ∧
        (∃ v : Word128, v.toNat = (c.origin + c.length) % 2 ^ 64 ∧
          Answers s (.rdSlice k) { status := .ok, dout := some v }) ∧
        Answers s (.rdStr k .utf8)
          { status := .ok, dout := some 0#128, opay := some (.bytes []), otext := some [] }) ∧
      (0 < r.a0.toInt → ∀ i ∈ [.rdBytes k, .rdSlice k, .rdStr k .utf8],
        Fails s i .bufferUnderrun) ∧
      (∀ ty o, Fails s (readInstr ty k o) .bufferUnderrun) ∧
      Fails s (.rdCstr k) .malformedData) ∧
    (c.mode = .writer →
      (r.ipay = .bytes [] → Answers s (.wrBytes k) { status := .ok, dout := some 0#128 }) ∧
      (∀ bs, r.ipay = .bytes bs → bs ≠ [] → bs.length ≤ lenMax →
        Fails s (.wrBytes k) .bufferOverrun) ∧
      (∀ ty o, Fails s (writeInstr ty k o) .bufferOverrun))
end

