-- ==== Sys2Proof/Laws/State.lean ====
section
/-! SUPPORT. One lemma per field of State per update, true by rfl. -/

namespace Sys2Proof.Machine

/-! ## State.setSlot -/

@[simp] theorem State.setSlot_cfg (s : State) (k : Nat) (c : Cursor) :
    (s.setSlot k c).cfg = s.cfg := rfl
@[simp] theorem State.setSlot_slots (s : State) (k : Nat) (c : Cursor) :
    (s.setSlot k c).slots = assocPut k c s.slots := rfl
@[simp] theorem State.setSlot_mem (s : State) (k : Nat) (c : Cursor) :
    (s.setSlot k c).mem = s.mem := rfl
@[simp] theorem State.setSlot_req (s : State) (k : Nat) (c : Cursor) :
    (s.setSlot k c).req = s.req := rfl
@[simp] theorem State.setSlot_resp (s : State) (k : Nat) (c : Cursor) :
    (s.setSlot k c).resp = s.resp := rfl
@[simp] theorem State.setSlot_codec (s : State) (k : Nat) (c : Cursor) :
    (s.setSlot k c).codec = s.codec := rfl
@[simp] theorem State.setSlot_history (s : State) (k : Nat) (c : Cursor) :
    (s.setSlot k c).history = s.history := rfl
@[simp] theorem State.setSlot_host (s : State) (k : Nat) (c : Cursor) :
    (s.setSlot k c).host = s.host := rfl

/-! ## State.clearSlot -/

@[simp] theorem State.clearSlot_cfg (s : State) (k : Nat) :
    (s.clearSlot k).cfg = s.cfg := rfl
@[simp] theorem State.clearSlot_slots (s : State) (k : Nat) :
    (s.clearSlot k).slots = assocDel k s.slots := rfl
@[simp] theorem State.clearSlot_mem (s : State) (k : Nat) :
    (s.clearSlot k).mem = s.mem := rfl
@[simp] theorem State.clearSlot_req (s : State) (k : Nat) :
    (s.clearSlot k).req = s.req := rfl
@[simp] theorem State.clearSlot_resp (s : State) (k : Nat) :
    (s.clearSlot k).resp = s.resp := rfl
@[simp] theorem State.clearSlot_codec (s : State) (k : Nat) :
    (s.clearSlot k).codec = s.codec := rfl
@[simp] theorem State.clearSlot_history (s : State) (k : Nat) :
    (s.clearSlot k).history = s.history := rfl
@[simp] theorem State.clearSlot_host (s : State) (k : Nat) :
    (s.clearSlot k).host = s.host := rfl

/-! ## State.writeBytes -/

@[simp] theorem State.writeBytes_cfg (s : State) (a : Nat) (bs : List Byte) :
    (s.writeBytes a bs).cfg = s.cfg := rfl
@[simp] theorem State.writeBytes_slots (s : State) (a : Nat) (bs : List Byte) :
    (s.writeBytes a bs).slots = s.slots := rfl
@[simp] theorem State.writeBytes_mem (s : State) (a : Nat) (bs : List Byte) :
    (s.writeBytes a bs).mem = memWrite s.cfg s.mem a bs := rfl
@[simp] theorem State.writeBytes_req (s : State) (a : Nat) (bs : List Byte) :
    (s.writeBytes a bs).req = s.req := rfl
@[simp] theorem State.writeBytes_resp (s : State) (a : Nat) (bs : List Byte) :
    (s.writeBytes a bs).resp = s.resp := rfl
@[simp] theorem State.writeBytes_codec (s : State) (a : Nat) (bs : List Byte) :
    (s.writeBytes a bs).codec = s.codec := rfl
@[simp] theorem State.writeBytes_history (s : State) (a : Nat) (bs : List Byte) :
    (s.writeBytes a bs).history = s.history := rfl
@[simp] theorem State.writeBytes_host (s : State) (a : Nat) (bs : List Byte) :
    (s.writeBytes a bs).host = s.host := rfl

/-! ## State.loadCodec -/

@[simp] theorem State.loadCodec_cfg (s : State) (c : Codec) :
    (s.loadCodec c).cfg = s.cfg := rfl
@[simp] theorem State.loadCodec_slots (s : State) (c : Codec) :
    (s.loadCodec c).slots = s.slots := rfl
@[simp] theorem State.loadCodec_mem (s : State) (c : Codec) :
    (s.loadCodec c).mem = s.mem := rfl
@[simp] theorem State.loadCodec_req (s : State) (c : Codec) :
    (s.loadCodec c).req = s.req := rfl
@[simp] theorem State.loadCodec_resp (s : State) (c : Codec) :
    (s.loadCodec c).resp = s.resp := rfl
@[simp] theorem State.loadCodec_codec (s : State) (c : Codec) :
    (s.loadCodec c).codec = c := rfl
@[simp] theorem State.loadCodec_history (s : State) (c : Codec) :
    (s.loadCodec c).history = s.history := rfl
@[simp] theorem State.loadCodec_host (s : State) (c : Codec) :
    (s.loadCodec c).host = s.host := rfl

/-! ## State.complete -/

@[simp] theorem State.complete_cfg (s : State) (r : Response) :
    (s.complete r).cfg = s.cfg := rfl
@[simp] theorem State.complete_slots (s : State) (r : Response) :
    (s.complete r).slots = s.slots := rfl
@[simp] theorem State.complete_mem (s : State) (r : Response) :
    (s.complete r).mem = s.mem := rfl
@[simp] theorem State.complete_req (s : State) (r : Response) :
    (s.complete r).req = none := rfl
@[simp] theorem State.complete_resp (s : State) (r : Response) :
    (s.complete r).resp = some r := rfl
@[simp] theorem State.complete_codec (s : State) (r : Response) :
    (s.complete r).codec = .idle := rfl
@[simp] theorem State.complete_history (s : State) (r : Response) :
    (s.complete r).history = if r.status = .ok then s.history else s.history ++ [r] := rfl
@[simp] theorem State.complete_host (s : State) (r : Response) :
    (s.complete r).host = s.host := rfl

/-! ## State.resetBlock -/

@[simp] theorem State.resetBlock_cfg (s : State) :
    s.resetBlock.cfg = s.cfg := rfl
@[simp] theorem State.resetBlock_slots (s : State) :
    s.resetBlock.slots = [] := rfl
@[simp] theorem State.resetBlock_mem (s : State) :
    s.resetBlock.mem = s.mem := rfl
@[simp] theorem State.resetBlock_req (s : State) :
    s.resetBlock.req = none := rfl
@[simp] theorem State.resetBlock_resp (s : State) :
    s.resetBlock.resp = none := rfl
@[simp] theorem State.resetBlock_codec (s : State) :
    s.resetBlock.codec = .idle := rfl
@[simp] theorem State.resetBlock_history (s : State) :
    s.resetBlock.history = s.history := rfl
@[simp] theorem State.resetBlock_host (s : State) :
    s.resetBlock.host = s.host := rfl

/-! ## State.withFetchWord -/

@[simp] theorem State.withFetchWord_cfg (s : State) (n w : Nat) :
    (s.withFetchWord n w).cfg = s.cfg := rfl
@[simp] theorem State.withFetchWord_slots (s : State) (n w : Nat) :
    (s.withFetchWord n w).slots = s.slots := rfl
@[simp] theorem State.withFetchWord_mem (s : State) (n w : Nat) :
    (s.withFetchWord n w).mem = s.mem := rfl
@[simp] theorem State.withFetchWord_req (s : State) (n w : Nat) :
    (s.withFetchWord n w).req = some (Request.ofWord (BitVec.ofNat 32 (w % 2 ^ n))) := rfl
@[simp] theorem State.withFetchWord_resp (s : State) (n w : Nat) :
    (s.withFetchWord n w).resp = s.resp := rfl
@[simp] theorem State.withFetchWord_codec (s : State) (n w : Nat) :
    (s.withFetchWord n w).codec = s.codec := rfl
@[simp] theorem State.withFetchWord_history (s : State) (n w : Nat) :
    (s.withFetchWord n w).history = s.history := rfl
@[simp] theorem State.withFetchWord_host (s : State) (n w : Nat) :
    (s.withFetchWord n w).host = s.host := rfl

/-! ## State.fail, and reads of the slot file and of MEM after an update -/

theorem State.fail_eq (s : State) (st : Status) : s.fail st = s.complete (failResponse st) := rfl

@[simp] theorem State.complete_slot (s : State) (r : Response) (k : Nat) :
    (s.complete r).slot k = s.slot k := rfl
@[simp] theorem State.complete_readByte (s : State) (r : Response) (a : Nat) :
    (s.complete r).readByte a = s.readByte a := rfl
@[simp] theorem State.setSlot_readByte (s : State) (k : Nat) (c : Cursor) (a : Nat) :
    (s.setSlot k c).readByte a = s.readByte a := rfl
@[simp] theorem State.clearSlot_readByte (s : State) (k a : Nat) :
    (s.clearSlot k).readByte a = s.readByte a := rfl
@[simp] theorem State.writeBytes_slot (s : State) (a : Nat) (bs : List Byte) (k : Nat) :
    (s.writeBytes a bs).slot k = s.slot k := rfl
@[simp] theorem State.resetBlock_slot (s : State) (k : Nat) : s.resetBlock.slot k = none := rfl
@[simp] theorem State.resetBlock_readByte (s : State) (a : Nat) :
    s.resetBlock.readByte a = s.readByte a := rfl

/-- The codec's registers do not survive the command that loaded them. -/
@[simp] theorem State.loadCodec_complete (s : State) (c : Codec) (r : Response) :
    (s.loadCodec c).complete r = s.complete r := rfl

theorem State.finishCodec_eq (s : State) (c : Codec) :
    s.finishCodec c = s.complete (codecResponse c) := rfl

end Sys2Proof.Machine
end

