-- ==== Sys2Proof/Laws/Memory.lean ====
section
/-! SUPPORT. The lists of numbered entries, MEM and the slot file: what a read after an update
gives, and that every update keeps the canonical form. -/

namespace Sys2Proof.Machine

variable {α : Type}

/-! ## Lists of numbered entries -/

@[simp] theorem assocGet_nil (k : Nat) : assocGet k ([] : List (Nat × α)) = none := rfl

theorem assocGet_put_self (k : Nat) (v : α) (l : List (Nat × α)) :
    assocGet k (assocPut k v l) = some v := by
  induction l with
  | nil => simp [assocPut, assocGet]
  | cons e l ih =>
    simp only [assocPut]
    split
    · have : e.1 ≠ k := by omega
      simp [assocGet, this, ih]
    · split <;> simp [assocGet]

theorem assocGet_put_other {k j : Nat} (h : j ≠ k) (v : α) (l : List (Nat × α)) :
    assocGet j (assocPut k v l) = assocGet j l := by
  have hk : k ≠ j := Ne.symm h
  induction l with
  | nil => simp [assocPut, assocGet, hk]
  | cons e l ih =>
    simp only [assocPut]
    split
    · simp [assocGet, ih]
    · split
      · rename_i hek
        simp [assocGet, hk, hek]
      · simp [assocGet, hk]

/-- A put is seen at its own number and nowhere else. -/
theorem assocGet_put (k j : Nat) (v : α) (l : List (Nat × α)) :
    assocGet j (assocPut k v l) = if j = k then some v else assocGet j l := by
  split
  · next h => rw [h, assocGet_put_self]
  · next h => exact assocGet_put_other h v l

/-- A removal is seen at its own number and nowhere else. -/
theorem assocGet_del (k j : Nat) (l : List (Nat × α)) :
    assocGet j (assocDel k l) = if j = k then none else assocGet j l := by
  unfold assocDel
  induction l with
  | nil => simp
  | cons e l ih =>
    by_cases hek : e.1 = k
    · have hd : decide (e.1 ≠ k) = false := by simp [hek]
      rw [List.filter_cons_of_neg (by simp [hek]), ih]
      by_cases hjk : j = k
      · simp [hjk]
      · have : e.1 ≠ j := by omega
        simp [hjk, assocGet, this]
    · rw [List.filter_cons_of_pos (by simp [hek])]
      simp only [assocGet, ih]
      by_cases hej : e.1 = j
      · have : j ≠ k := by omega
        simp [hej, this]
      · simp [hej]

theorem mem_assocPut {k : Nat} {v : α} {l : List (Nat × α)} {e : Nat × α}
    (h : e ∈ assocPut k v l) : e = (k, v) ∨ e ∈ l := by
  induction l with
  | nil => simpa [assocPut] using h
  | cons f l ih =>
    simp only [assocPut] at h
    split at h
    · rcases List.mem_cons.1 h with h | h
      · exact .inr (by simp [h])
      · rcases ih h with h | h
        · exact .inl h
        · exact .inr (by simp [h])
    · split at h
      · rcases List.mem_cons.1 h with h | h
        · exact .inl h
        · exact .inr (by simp [h])
      · rcases List.mem_cons.1 h with h | h
        · exact .inl h
        · exact .inr h

theorem mem_assocDel {k : Nat} {l : List (Nat × α)} {e : Nat × α} (h : e ∈ assocDel k l) :
    e ∈ l := List.mem_of_mem_filter h

theorem assocRising_put (k : Nat) (v : α) {l : List (Nat × α)} (h : assocRising l = true) :
    assocRising (assocPut k v l) = true := by
  induction l with
  | nil => simp [assocPut, assocRising]
  | cons e l ih =>
    simp only [assocRising, Bool.and_eq_true, List.all_eq_true, decide_eq_true_eq] at h
    simp only [assocPut]
    split
    · next hlt =>
      simp only [assocRising, Bool.and_eq_true, List.all_eq_true, decide_eq_true_eq]
      refine ⟨fun f hf => ?_, ih h.2⟩
      rcases mem_assocPut hf with rfl | hf
      · exact hlt
      · exact h.1 f hf
    · split
      · next hk =>
        simp only [assocRising, Bool.and_eq_true, List.all_eq_true, decide_eq_true_eq]
        exact ⟨fun f hf => by have := h.1 f hf; omega, h.2⟩
      · next hlt hk =>
        simp only [assocRising, Bool.and_eq_true, List.all_eq_true, decide_eq_true_eq]
        refine ⟨fun f hf => ?_, h.1, h.2⟩
        rcases List.mem_cons.1 hf with rfl | hf
        · show k < f.1
          omega
        · have := h.1 f hf
          show k < f.1
          omega

theorem assocRising_del (k : Nat) {l : List (Nat × α)} (h : assocRising l = true) :
    assocRising (assocDel k l) = true := by
  induction l with
  | nil => rfl
  | cons e l ih =>
    simp only [assocRising, Bool.and_eq_true, List.all_eq_true, decide_eq_true_eq] at h
    unfold assocDel
    by_cases hek : e.1 = k
    · rw [List.filter_cons_of_neg (by simp [hek])]
      exact ih h.2
    · rw [List.filter_cons_of_pos (by simp [hek])]
      simp only [assocRising, Bool.and_eq_true, List.all_eq_true, decide_eq_true_eq]
      exact ⟨fun f hf => h.1 f (mem_assocDel hf), ih h.2⟩

/-! ## MEM -/

/-- A byte stored is read back, and no other byte changes. -/
theorem memGet_memSet (c : Config) (m : Memory) (a x : Nat) (b : Byte) :
    memGet c (memSet c m a b) x = if x = a then b else memGet c m x := by
  unfold memGet memSet
  split
  · next hb =>
    rw [assocGet_del]
    split
    · next h => simp [h, hb]
    · rfl
  · rw [assocGet_put]
    split <;> simp

/-- A range stored is read back, and no byte outside it changes (20_memory.md R60, R61). -/
theorem memGet_memWrite (c : Config) (m : Memory) (a x : Nat) (bs : List Byte) :
    memGet c (memWrite c m a bs) x
      = if a ≤ x ∧ x < a + bs.length then bs.getD (x - a) 0#8 else memGet c m x := by
  induction bs generalizing m a with
  | nil => simp [memWrite]
  | cons b bs ih =>
    simp only [memWrite, ih, memGet_memSet, List.length_cons]
    by_cases hx : x = a
    · subst hx
      have h1 : ¬ (x + 1 ≤ x ∧ x < x + 1 + bs.length) := by omega
      have h2 : x ≤ x ∧ x < x + (bs.length + 1) := by omega
      rw [if_neg h1, if_pos rfl, if_pos h2]
      simp
    · by_cases hr : a + 1 ≤ x ∧ x < a + 1 + bs.length
      · have h2 : a ≤ x ∧ x < a + (bs.length + 1) := by omega
        rw [if_pos hr, if_pos h2]
        have : x - a = (x - (a + 1)) + 1 := by omega
        rw [this]
        simp
      · have h2 : ¬ (a ≤ x ∧ x < a + (bs.length + 1)) := by omega
        rw [if_neg hr, if_neg h2, if_neg hx]

@[simp] theorem memRead_length (c : Config) (m : Memory) (a n : Nat) :
    (memRead c m a n).length = n := by
  induction n generalizing a with
  | zero => rfl
  | succ n ih => simp [memRead, ih]

theorem memRead_getD (c : Config) (m : Memory) (a n j : Nat) (h : j < n) :
    (memRead c m a n).getD j 0#8 = memGet c m (a + j) := by
  induction n generalizing a j with
  | zero => omega
  | succ n ih =>
    cases j with
    | zero => simp [memRead]
    | succ j =>
      have := ih (a + 1) j (by omega)
      simp only [memRead, List.getD_cons_succ, this]
      congr 1
      omega

/-- Two memories that agree on a range read the same there. -/
theorem memRead_congr {c c' : Config} {m m' : Memory} {a n : Nat}
    (h : ∀ j, j < n → memGet c m (a + j) = memGet c' m' (a + j)) :
    memRead c m a n = memRead c' m' a n := by
  induction n generalizing a with
  | zero => rfl
  | succ n ih =>
    have h0 := h 0 (by omega)
    simp only [Nat.add_zero] at h0
    simp only [memRead, h0]
    congr 1
    refine ih fun j hj => ?_
    have := h (j + 1) (by omega)
    rwa [show a + 1 + j = a + (j + 1) by omega]

/-- Every store of a byte keeps MEM's canonical form. -/
theorem memSet_wf {c : Config} {m : Memory} (a : Nat) (b : Byte) (h : Memory.wf c m = true) :
    Memory.wf c (memSet c m a b) = true := by
  simp only [Memory.wf, Bool.and_eq_true, List.all_eq_true, decide_eq_true_eq] at h ⊢
  unfold memSet
  split
  · exact ⟨assocRising_del a h.1, fun e he => h.2 e (mem_assocDel he)⟩
  · next hb =>
    refine ⟨assocRising_put a b h.1, fun e he => ?_⟩
    rcases mem_assocPut he with rfl | he
    · exact hb
    · exact h.2 e he

/-- Every store of a range keeps MEM's canonical form. -/
theorem memWrite_wf {c : Config} {m : Memory} (a : Nat) (bs : List Byte)
    (h : Memory.wf c m = true) : Memory.wf c (memWrite c m a bs) = true := by
  induction bs generalizing m a with
  | nil => exact h
  | cons b bs ih => exact ih (a + 1) (memSet_wf a b h)

theorem mem_memWrite {c : Config} {m : Memory} {a : Nat} {bs : List Byte} {e : Host.Cell}
    (h : e ∈ memWrite c m a bs) : e ∈ m ∨ (a ≤ e.1 ∧ e.1 < a + bs.length) := by
  induction bs generalizing m a with
  | nil => exact .inl h
  | cons b bs ih =>
    rcases ih h with h | h
    · unfold memSet at h
      split at h
      · exact .inl (mem_assocDel h)
      · rcases mem_assocPut h with rfl | h
        · exact .inr ⟨Nat.le_refl _, by simp⟩
        · exact .inl h
    · refine .inr ⟨by omega, ?_⟩
      simp only [List.length_cons]
      omega

/-! ## MEM and the slot file of a state -/

theorem State.writeBytes_readByte (s : State) (a x : Nat) (bs : List Byte) :
    (s.writeBytes a bs).readByte x
      = if a ≤ x ∧ x < a + bs.length then bs.getD (x - a) 0#8 else s.readByte x :=
  memGet_memWrite s.cfg s.mem a x bs

@[simp] theorem State.readBytes_length (s : State) (a n : Nat) : (s.readBytes a n).length = n :=
  memRead_length s.cfg s.mem a n

theorem State.readBytes_getD (s : State) {a n j : Nat} (h : j < n) :
    (s.readBytes a n).getD j 0#8 = s.readByte (a + j) :=
  memRead_getD s.cfg s.mem a n j h

theorem State.setSlot_slot (s : State) (k j : Nat) (c : Cursor) :
    (s.setSlot k c).slot j = if j = k then some c else s.slot j :=
  assocGet_put k j c s.slots

theorem State.clearSlot_slot (s : State) (k j : Nat) :
    (s.clearSlot k).slot j = if j = k then none else s.slot j :=
  assocGet_del k j s.slots

end Sys2Proof.Machine
end

