-- ==== Sys2Proof/Laws/Ops.lean ====
section
/-! SUPPORT. One lemma per shared operation: everything it can answer. -/

namespace Sys2Proof.Machine

/-- When CheckSlot gives a cursor (42_cursor_control.md R154). -/
theorem State.checkSlot_eq_some {s : State} {k : Nat} {n : Need} {c : Cursor} :
    s.checkSlot k n = some c ↔ s.slot k = some c ∧ k < s.cfg.nslot ∧ n.allows c.mode = true := by
  unfold State.checkSlot
  cases h : s.slot k with
  | none => simp
  | some d =>
    simp only [Option.some.injEq]
    split
    · next hc =>
      constructor
      · rintro ⟨⟩; exact ⟨rfl, hc⟩
      · rintro ⟨rfl, -⟩; rfl
    · next hc =>
      constructor
      · simp
      · rintro ⟨rfl, hd⟩; exact absurd hd hc

/-! ## The Bool checks as propositions -/

theorem Config.inMem_iff {c : Config} {a n : Nat} :
    Config.inMem c a n = true ↔ a + n ≤ 2 ^ c.addrW := by
  simp only [Config.inMem, decide_eq_true_eq]

theorem Cursor.regionInMem_iff {c : Cursor} {cfg : Config} :
    c.regionInMem cfg = true ↔ c.origin + c.length ≤ 2 ^ cfg.addrW := Config.inMem_iff

theorem badRegion_iff {c : Config} {origin : Nat} {len : Int} :
    badRegion c origin len = true ↔
      len < 0 ∨ 2 ^ c.addrW ≤ origin ∨ (2 ^ c.addrW : Int) < origin + len := by
  unfold badRegion
  rw [Bool.or_eq_true, Bool.or_eq_true, decide_eq_true_iff, decide_eq_true_iff, decide_eq_true_iff,
    or_assoc]

theorem cursorOk_iff {cfg : Config} {c : Cursor} :
    Safety.cursorOk cfg c = true ↔ c.pos ≤ c.length ∧ c.length ≤ lenMax ∧
      c.origin < 2 ^ cfg.addrW ∧ c.origin + c.length ≤ 2 ^ cfg.addrW := by
  simp only [Safety.cursorOk, Bool.and_eq_true, decide_eq_true_eq, and_assoc]

theorem slotsOk_iff {s : State} :
    Safety.slotsOk s = true ↔ assocRising s.slots = true ∧
      ∀ e ∈ s.slots, e.1 < s.cfg.nslot ∧ Safety.cursorOk s.cfg e.2 = true := by
  simp only [Safety.slotsOk, Bool.and_eq_true, List.all_eq_true, decide_eq_true_eq]

theorem memInside_iff {s : State} :
    Safety.memInside s = true ↔ ∀ e ∈ s.mem, e.1 < 2 ^ s.cfg.addrW := by
  simp only [Safety.memInside, List.all_eq_true, decide_eq_true_eq]

theorem Need.allows_iff {n : Need} {m : Mode} : n.allows m = true ↔ Safety.modeFits n m := by
  cases n <;> cases m <;> simp [Need.allows, Safety.modeFits]

/-- CheckSlot passes exactly on a good slot. -/
theorem checkSlot_good {s : State} {k : Nat} {n : Need} {c : Cursor} :
    s.checkSlot k n = some c ↔ Safety.GoodSlot s k n c := by
  rw [State.checkSlot_eq_some, Need.allows_iff]
  exact ⟨fun h => ⟨h.2.1, h.1, h.2.2⟩, fun h => ⟨h.2.1, h.1, h.2.2⟩⟩

/-- CheckSlot fails exactly on a bad slot. -/
theorem checkSlot_bad {s : State} {k : Nat} {n : Need} :
    s.checkSlot k n = none ↔ Safety.BadSlot s k n := by
  unfold Safety.BadSlot
  cases h : s.checkSlot k n with
  | some c =>
    obtain ⟨h1, h2, h3⟩ := checkSlot_good.1 h
    simp [h2, h3, h1]
  | none =>
    refine ⟨fun _ => ?_, fun _ => rfl⟩
    by_contra hb
    simp only [not_or, not_exists, not_and, not_not, not_le] at hb
    obtain ⟨h1, h2, h3⟩ := hb
    obtain ⟨c, hc⟩ := Option.ne_none_iff_exists'.1 h2
    rw [checkSlot_good.2 ⟨h1, hc, h3 c hc⟩] at h
    cases h

/-- A cursor a slot holds is listed for it. -/
theorem mem_of_slot {s : State} {k : Nat} {c : Cursor} (h : s.slot k = some c) :
    (k, c) ∈ s.slots := by
  unfold State.slot at h
  generalize s.slots = l at h ⊢
  induction l with
  | nil => simp at h
  | cons e l ih =>
    simp only [assocGet] at h
    split at h
    · next he => cases h; subst he; simp
    · exact List.mem_cons_of_mem _ (ih h)

/-- Under the invariant a slot that passes CheckSlot holds a cursor that is well formed. -/
theorem cursorOk_of_checkSlot {s : State} {k : Nat} {n : Need} {c : Cursor}
    (hi : Safety.slotsOk s = true) (h : s.checkSlot k n = some c) :
    k < s.cfg.nslot ∧ Safety.cursorOk s.cfg c = true :=
  (slotsOk_iff.1 hi).2 _ (mem_of_slot (checkSlot_good.1 h).2.1)

/-! ## The shared operations -/

/-- `withRequest` answers a next state only for a pending request. -/
theorem withRequest_eq_next {s t : State} {f : Request → Result} :
    withRequest s f = .next t ↔ ∃ r, s.req = some r ∧ f r = .next t := by
  unfold withRequest
  cases h : s.req <;> simp

theorem withRequest_of_req {s : State} {r : Request} (h : s.req = some r) (f : Request → Result) :
    withRequest s f = f r := by simp [withRequest, h]

/-- `withBytes` answers a next state only for a byte payload that fits. -/
theorem withBytes_eq_next {s t : State} {r : Request} {f : List Byte → Result} :
    withBytes s r f = .next t ↔
      ∃ bs, r.ipay = .bytes bs ∧ bs.length ≤ lenMax ∧ f bs = .next t := by
  unfold withBytes
  cases h : r.ipay with
  | chars cs => simp
  | bytes bs =>
    by_cases hl : bs.length ≤ lenMax <;> simp [Payload.fits, Payload.length, hl]

/-- `withChars` answers a next state only for a text payload that fits. -/
theorem withChars_eq_next {s t : State} {r : Request} {f : List CodeUnit → Result} :
    withChars s r f = .next t ↔
      ∃ cs, r.ipay = .chars cs ∧ (Payload.chars cs).fits s.cfg = true ∧ f cs = .next t := by
  unfold withChars
  cases h : r.ipay with
  | bytes bs => simp
  | chars cs =>
    by_cases hf : (Payload.chars cs).fits s.cfg = true <;> simp [hf]

/-- `onSlot` always answers a next state: IllegalCommand, or the command's own. -/
theorem onSlot_eq_next {s t : State} {k : Nat} {n : Need} {f : Cursor → State} :
    onSlot s k n f = .next t ↔
      (s.checkSlot k n = none ∧ t = s.fail .illegalCommand) ∨
        ∃ c, s.checkSlot k n = some c ∧ t = f c := by
  unfold onSlot
  cases h : s.checkSlot k n <;> simp [@eq_comm _ t]

/-- `onRegion` answers IllegalCommand, or the command's own next state for a region inside MEM. -/
theorem onRegion_eq_next {s t : State} {k : Nat} {n : Need} {f : Cursor → State} :
    onRegion s k n f = .next t ↔
      (s.checkSlot k n = none ∧ t = s.fail .illegalCommand) ∨
        ∃ c, s.checkSlot k n = some c ∧ c.regionInMem s.cfg = true ∧ t = f c := by
  unfold onRegion
  cases h : s.checkSlot k n with
  | none => simp [@eq_comm _ t]
  | some c => by_cases hr : c.regionInMem s.cfg = true <;> simp [hr, @eq_comm _ t]

/-- `withCount` fails on a negative or too large count, or runs f on the count
(43_cursor_read.md R195). -/
theorem withCount_cases (s : State) (r : Request) (c : Cursor) (f : Nat → State) :
    (signedOperand r.a0 < 0 ∧ withCount s r c f = s.fail .invalidArgument) ∨
    (0 ≤ signedOperand r.a0 ∧ (c.remaining : Int) < signedOperand r.a0 ∧
      withCount s r c f = s.fail .bufferUnderrun) ∨
    (∃ n : Nat, signedOperand r.a0 = n ∧ n ≤ c.remaining ∧ withCount s r c f = f n) := by
  unfold withCount
  by_cases h0 : signedOperand r.a0 < 0
  · exact .inl ⟨h0, by simp [h0]⟩
  · by_cases h1 : (c.remaining : Int) < signedOperand r.a0
    · exact .inr (.inl ⟨by omega, h1, by simp [h0, h1]⟩)
    · refine .inr (.inr ⟨(signedOperand r.a0).toNat, by omega, by omega, by simp [h0, h1]⟩)

/-- No bytes are the empty text under every decoder (43_cursor_read.md R198, R199). -/
@[simp] theorem textDecode_nil (c : Config) (e : TextEncoding) : textDecode c e [] = some [] := rfl

/-- The two halves of RD.SLICE's DOUT (43_cursor_read.md R197, 30_encoding.md R80). -/
theorem sliceDescriptor_toNat (n a : Nat) :
    (sliceDescriptor n a).toNat = n % 2 ^ 64 * 2 ^ 64 + a % 2 ^ 64 := by
  have h : a % 2 ^ 64 < 2 ^ 64 := Nat.mod_lt _ (by decide)
  simp only [sliceDescriptor, BitVec.toNat_append, BitVec.toNat_ofNat]
  rw [← Nat.shiftLeft_add_eq_or_of_lt h, Nat.shiftLeft_eq]

/-- `findZero` gives the least offset of a zero byte below n (43_cursor_read.md R198). -/
theorem State.findZero_eq_some {s : State} {a n j : Nat} :
    s.findZero a n = some j ↔
      j < n ∧ s.readByte (a + j) = 0#8 ∧ ∀ i, i < j → s.readByte (a + i) ≠ 0#8 := by
  induction n generalizing a j with
  | zero => simp [State.findZero]
  | succ n ih =>
    unfold State.findZero
    split
    · next h0 =>
      constructor
      · rintro ⟨⟩
        exact ⟨by omega, by simpa using h0, fun i hi => by omega⟩
      · rintro ⟨-, -, hmin⟩
        cases j with
        | zero => rfl
        | succ j => exact absurd (by simpa using h0) (hmin 0 (by omega))
    · next h0 =>
      constructor
      · intro h
        obtain ⟨i, hi, rfl⟩ := Option.map_eq_some_iff.1 h
        obtain ⟨h1, h2, h3⟩ := ih.1 hi
        refine ⟨by omega, by rw [show a + (i + 1) = a + 1 + i by omega]; exact h2, fun l hl => ?_⟩
        cases l with
        | zero => simpa using h0
        | succ l =>
          rw [show a + (l + 1) = a + 1 + l by omega]
          exact h3 l (by omega)
      · rintro ⟨h1, h2, h3⟩
        cases j with
        | zero => exact absurd (by simpa using h2) h0
        | succ j =>
          refine Option.map_eq_some_iff.2 ⟨j, ih.2 ⟨by omega, ?_, fun l hl => ?_⟩, rfl⟩
          · rw [show a + 1 + j = a + (j + 1) by omega]; exact h2
          · rw [show a + 1 + l = a + (l + 1) by omega]
            exact h3 (l + 1) (by omega)

/-- `findZero` finds nothing exactly when no byte below n is zero. -/
theorem State.findZero_eq_none {s : State} {a n : Nat} :
    s.findZero a n = none ↔ ∀ i, i < n → s.readByte (a + i) ≠ 0#8 := by
  induction n generalizing a with
  | zero => simp [State.findZero]
  | succ n ih =>
    unfold State.findZero
    split
    · next h0 =>
      simp only [reduceCtorEq, false_iff]
      exact fun h => h 0 (by omega) (by simpa using h0)
    · next h0 =>
      rw [Option.map_eq_none_iff, ih]
      constructor
      · intro h i hi
        cases i with
        | zero => simpa using h0
        | succ i =>
          rw [show a + (i + 1) = a + 1 + i by omega]
          exact h i (by omega)
      · intro h i hi
        rw [show a + 1 + i = a + (i + 1) by omega]
        exact h (i + 1) (by omega)

/-- What a step can be: a command run to completion, an illegal word, an idle step, or a host
action. -/
theorem step_cases (s : State) :
    (∃ r i, s.req = some r ∧ decode r.cmd = some i ∧ step s = exec i s) ∨
    (∃ r, s.req = some r ∧ decode r.cmd = none ∧ step s = .next s.illegal) ∨
    (s.req = none ∧ s.host = [] ∧ step s = .next s) ∨
    (∃ a rest, s.req = none ∧ s.host = a :: rest ∧ step s = hostStep { s with host := rest } a) := by
  unfold step
  cases hr : s.req with
  | some r =>
    cases hd : decode r.cmd with
    | some i => exact .inl ⟨r, i, rfl, hd, by simp [hd]⟩
    | none => exact .inr (.inl ⟨r, rfl, hd, by simp [hd]⟩)
  | none =>
    cases hh : s.host with
    | nil => exact .inr (.inr (.inl ⟨rfl, rfl, rfl⟩))
    | cons a rest => exact .inr (.inr (.inr ⟨a, rest, rfl, rfl, rfl⟩))

/-- What a host action can do to the block. -/
theorem hostStep_cases {s t : State} {a : HostAction} (h : hostStep s a = .next t) :
    (∃ r, a = .issue r ∧ t = { s with req := some r }) ∨
    (∃ x bs, a = .store x bs ∧ Config.inMem s.cfg x bs.length = true ∧ t = s.writeBytes x bs) ∨
    (∃ f, a = .readField f ∧ t = s) ∨
    (a = .reset ∧ t = s.resetBlock) := by
  cases a with
  | issue r => exact .inl ⟨r, rfl, by simpa [hostStep] using h.symm⟩
  | store x bs =>
    simp only [hostStep] at h
    split at h
    · next hi => exact .inr (.inl ⟨x, bs, rfl, hi, by simpa using h.symm⟩)
    · cases h
  | readField f =>
    simp only [hostStep] at h
    split at h
    · cases h
    · split at h
      · exact .inr (.inr (.inl ⟨f, rfl, by simpa using h.symm⟩))
      · cases h
  | reset => exact .inr (.inr (.inr ⟨rfl, by simpa [hostStep] using h.symm⟩))

end Sys2Proof.Machine
end

