-- ==== Sys2Proof/Laws/Base32.lean ====
section
/-! SUPPORT. What the Base32 unit's operations can answer: the stripped count, the decoder's run, and
the capacity check as a proposition. -/

namespace Sys2Proof.Machine

open Sys2Proof.Safety

theorem capTooSmall_iff {a : Word64} {n : Nat} :
    capTooSmall a n = true ↔ a.toInt < 0 ∨ a.toInt < (n : Int) := by
  unfold capTooSmall
  rw [Bool.or_eq_true, decide_eq_true_iff, decide_eq_true_iff]
  rfl

/-! ## Stripping (41_base32.md R110) -/

theorem stripFrom_isStripped {cs : List CodeUnit} {n : Nat} (h : n ≤ cs.length)
    (hp : ∀ i, n ≤ i → i < cs.length → cs.getD i 0 = padChar) :
    IsStripped cs (stripFrom cs n) := by
  induction n with
  | zero => exact ⟨Nat.zero_le _, fun i _ hi => hp i (Nat.zero_le _) hi, .inl rfl⟩
  | succ n ih =>
    unfold stripFrom
    split
    · next he =>
      refine ih (by omega) fun i hi hl => ?_
      obtain rfl | hi := Nat.eq_or_lt_of_le hi
      · exact he
      · exact hp i hi hl
    · next he => exact ⟨h, hp, .inr he⟩

/-- `strippedCount` is the stripped count. -/
theorem strippedCount_isStripped (cs : List CodeUnit) : IsStripped cs (strippedCount cs) :=
  stripFrom_isStripped (Nat.le_refl _) fun i h1 h2 => by omega

/-- A text has one stripped count. -/
theorem isStripped_unique {cs : List CodeUnit} {m m' : Nat} (h : IsStripped cs m)
    (h' : IsStripped cs m') : m = m' := by
  have key : ∀ {a b}, IsStripped cs a → IsStripped cs b → ¬ a < b := by
    rintro a b ⟨-, h2, -⟩ ⟨g1, -, g3⟩ hlt
    rcases g3 with g3 | g3
    · omega
    · exact g3 (h2 _ (by omega) (by omega))
  have h1 := key h h'
  have h2 := key h' h
  omega

/-! ## The decoder's run (41_base32.md R124 to R126) -/

@[simp] theorem decTake_j {w : Nat} (r : DecRegs w) (v : Nat) : (decTake r v).j = r.j + 1 := by
  unfold decTake
  dsimp only
  split <;> rfl

@[simp] theorem decTake_phase {w : Nat} (r : DecRegs w) (v : Nat) :
    (decTake r v).phase = r.phase := by
  unfold decTake
  dsimp only
  split <;> rfl

/-- With the steps it needs, the decoder from index j reaches DONE over alphabet characters, or stops
at the first of the others. -/
theorem decSteps_cases {w : Nat} {src : List CodeUnit} {n : Nat} {r : DecRegs w}
    (hph : r.phase = .loop) (hn : src.length + 1 - r.j ≤ n) (hj : r.j ≤ src.length) :
    (∃ d, decSteps src n r = .ok d ∧ d.phase = .done ∧
      ∀ i, r.j ≤ i → i < src.length → charToValue (src.getD i 0) ≠ none) ∨
    (∃ e, decSteps src n r = .error e ∧ r.j ≤ e.index ∧ e.index < src.length ∧
      src.getD e.index 0 = e.char ∧ charToValue e.char = none ∧
      ∀ i, r.j ≤ i → i < e.index → charToValue (src.getD i 0) ≠ none) := by
  induction n generalizing r with
  | zero => omega
  | succ n ih =>
    unfold decSteps
    simp only [hph]
    by_cases hl : r.j = src.length
    · refine .inl ⟨{ r with phase := .done }, ?_, rfl, fun i h1 h2 => by omega⟩
      simp only [decStep, hl, if_pos]
      cases n <;> rfl
    · simp only [decStep, hl, if_neg, not_false_eq_true]
      cases hv : charToValue (src.getD r.j 0) with
      | none =>
        exact .inr ⟨_, rfl, Nat.le_refl _, by show r.j < _; omega, rfl, hv,
          fun i h1 (h2 : i < r.j) => by omega⟩
      | some v =>
        have first : ∀ i, r.j ≤ i → ¬ (decTake r v).j ≤ i → charToValue (src.getD i 0) ≠ none := by
          intro i h1 h2
          rw [decTake_j] at h2
          obtain rfl : i = r.j := by omega
          rw [hv]
          simp
        have ih := ih (r := decTake r v) (by rw [decTake_phase, hph]) (by rw [decTake_j]; omega)
          (by rw [decTake_j]; omega)
        obtain ⟨d, h1, h2, h3⟩ | ⟨e, h1, h2, h3, h4, h5, h6⟩ := ih
        · refine .inl ⟨d, h1, h2, fun i hi hl => ?_⟩
          by_cases hc : (decTake r v).j ≤ i
          · exact h3 i hc hl
          · exact first i hi hc
        · refine .inr ⟨e, h1, by rw [decTake_j] at h2; omega, h3, h4, h5, fun i hi hl => ?_⟩
          by_cases hc : (decTake r v).j ≤ i
          · exact h6 i hc hl
          · exact first i hi hc

/-- The decoder reaches DONE over a text of alphabet characters, or stops at the first of the
others. -/
theorem decRun_cases {w : Nat} (cs : List CodeUnit) :
    (∃ d : DecRegs w, decRun w cs = .ok d ∧ d.phase = .done ∧
      ∀ i, i < cs.length → charToValue (cs.getD i 0) ≠ none) ∨
    (∃ e, decRun w cs = .error e ∧ e.index < cs.length ∧ cs.getD e.index 0 = e.char ∧
      charToValue e.char = none ∧ ∀ i, i < e.index → charToValue (cs.getD i 0) ≠ none) := by
  rcases decSteps_cases (src := cs) (n := cs.length + 1) (r := decStart w) rfl (by simp [decStart])
    (Nat.zero_le _) with ⟨d, h1, h2, h3⟩ | ⟨e, h1, -, h3, h4, h5, h6⟩
  · exact .inl ⟨d, h1, h2, fun i hi => h3 i (Nat.zero_le _) hi⟩
  · exact .inr ⟨e, h1, h3, h4, h5, fun i hi => h6 i (Nat.zero_le _) hi⟩

end Sys2Proof.Machine
end

