-- ==== Sys2Proof/Laws/Bytes.lean ====
section
/-! SUPPORT. Byte lists as numbers (00_scope.md section 4, 20_memory.md R54): digits, bounds and the
round trip of each byte order. -/

namespace Sys2Proof.Machine

/-- A number is below 256^n exactly when it fits n bytes. -/
theorem leValue_lt (bs : List Byte) : leValue bs < 256 ^ bs.length := by
  induction bs with
  | nil => simp [leValue]
  | cons b bs ih =>
    have hb := b.isLt
    simp only [leValue, List.length_cons, Nat.pow_succ]
    omega

/-- The j-th base-256 digit of LE(bs) is the byte at offset j. -/
theorem leValue_digit (bs : List Byte) (j : Nat) :
    leValue bs / 256 ^ j % 256 = (bs.getD j 0#8).toNat := by
  induction bs generalizing j with
  | nil => simp [leValue]
  | cons b bs ih =>
    have hb := b.isLt
    cases j with
    | zero => simp only [leValue, List.getD_cons_zero]; omega
    | succ j =>
      rw [List.getD_cons_succ, ← ih j, Nat.pow_succ', ← Nat.div_div_eq_div_mul]
      congr 2
      simp only [leValue]
      omega

/-- Reversal, by index. -/
theorem getD_reverse {bs : List Byte} {j : Nat} (h : j < bs.length) :
    bs.reverse.getD j 0#8 = bs.getD (bs.length - 1 - j) 0#8 := by
  simp only [List.getD_eq_getElem?_getD]
  rw [List.getElem?_reverse h]

theorem beValue_lt (bs : List Byte) : beValue bs < 256 ^ bs.length := by
  have := leValue_lt bs.reverse
  simpa [beValue] using this

/-- The j-th base-256 digit of BE(bs) is the byte at offset n - 1 - j. -/
theorem beValue_digit {bs : List Byte} {j : Nat} (h : j < bs.length) :
    beValue bs / 256 ^ j % 256 = (bs.getD (bs.length - 1 - j) 0#8).toNat := by
  rw [beValue, leValue_digit, getD_reverse h]

@[simp] theorem toLE_length (n v : Nat) : (toLE n v).length = n := by
  induction n generalizing v with
  | zero => rfl
  | succ n ih => simp [toLE, ih]

@[simp] theorem toBE_length (n v : Nat) : (toBE n v).length = n := by simp [toBE]

@[simp] theorem valueBytes_length (e : Endian) (n v : Nat) : (valueBytes e n v).length = n := by
  cases e <;> simp [valueBytes]

/-- Byte j of toLE(v, n) is the j-th base-256 digit of v. -/
theorem toLE_getD (n v j : Nat) (h : j < n) :
    ((toLE n v).getD j 0#8).toNat = v / 256 ^ j % 256 := by
  induction n generalizing v j with
  | zero => omega
  | succ n ih =>
    cases j with
    | zero => simp [toLE]
    | succ j =>
      simp only [toLE, List.getD_cons_succ]
      rw [ih _ _ (by omega), Nat.pow_succ', ← Nat.div_div_eq_div_mul]

/-- Byte n - 1 - j of toBE(v, n) is the j-th base-256 digit of v. -/
theorem toBE_getD (n v j : Nat) (h : j < n) :
    ((toBE n v).getD (n - 1 - j) 0#8).toNat = v / 256 ^ j % 256 := by
  have h1 : n - 1 - j < (toLE n v).length := by simp; omega
  have h2 : n - 1 - (n - 1 - j) = j := by omega
  rw [toBE, getD_reverse h1, toLE_length, h2]
  exact toLE_getD n v j h

/-- LE(toLE(v, n)) is v below 256^n. -/
theorem leValue_toLE (n v : Nat) : leValue (toLE n v) = v % 256 ^ n := by
  induction n generalizing v with
  | zero => simp [toLE, leValue, Nat.mod_one]
  | succ n ih =>
    have h : (BitVec.ofNat 8 v).toNat = v % 256 := by simp
    simp only [toLE, leValue, ih, h]
    rw [Nat.pow_succ', Nat.mod_mul]

/-- value(bytes(v, ord), ord) is v below 256^n. -/
theorem bytesValue_valueBytes (e : Endian) (n v : Nat) :
    bytesValue e (valueBytes e n v) = v % 256 ^ n := by
  cases e <;> simp [bytesValue, valueBytes, toBE, beValue, leValue_toLE]

/-- Reading back in the other order reverses the bytes. -/
theorem leValue_reverse_toLE (n v : Nat) :
    bytesValue .big (valueBytes .little n v) = leValue (toLE n v).reverse ∧
    bytesValue .little (valueBytes .big n v) = leValue (toLE n v).reverse := ⟨rfl, rfl⟩

/-- The digits of a value read in an order (20_memory.md R54). -/
theorem bytesValue_lt (e : Endian) (bs : List Byte) : bytesValue e bs < 256 ^ bs.length := by
  cases e
  · exact leValue_lt bs
  · exact beValue_lt bs

end Sys2Proof.Machine
end

