-- ==== Sys2Proof/Laws/Exec.lean ====
section
/-! SUPPORT. What a command can do, said once for every command: the response it ends with and the
state it leaves. The frame, status and invariant statements follow from `exec_next`. -/

namespace Sys2Proof.Machine

open Sys2Proof.Safety

/-- The response of command i may be rsp (10_state.md R26 to R28, 60_exceptions.md R250). -/
structure MayAnswer (i : Instr) (rsp : Response) : Prop where
  status : canRaise i rsp.status = true
  einfo : rsp.einfo.isSome = true ↔ rsp.status = .invalidCharacter
  onOk : rsp.status = .ok → rsp.dout.isSome = writesDout i ∧ rsp.opay.isSome = writesOpay i ∧
    rsp.otext.isSome = writesOtext i
  badChar : rsp.status = .invalidCharacter → rsp.dout.isSome = true
  onFail : rsp.status ≠ .ok → rsp.opay = none ∧ rsp.otext = none
  plainFail : rsp.status ≠ .ok → rsp.status ≠ .invalidCharacter → rsp.dout = none

/-- What command i does to the slots and to MEM before it completes: nothing, or on OK one of a
construction, a release, a move, a read's advance, a write's store and advance. -/
inductive Effect (i : Instr) (s : State) (r : Request) : State → Prop
  | keep : Effect i s r s
  | openSlot (m : Mode) (k len : Nat) (hi : i = openInstr m k) (hk : k < s.cfg.nslot)
      (hlen : len ≤ lenMax) (horg : r.a0.toNat < 2 ^ s.cfg.addrW)
      (hin : r.a0.toNat + len ≤ 2 ^ s.cfg.addrW) :
      Effect i s r (s.setSlot k { mode := m, origin := r.a0.toNat, length := len, pos := 0 })
  | setPos (k p : Nat) (c : Cursor) (hi : i = .curSetpos k) (hs : s.checkSlot k .any = some c)
      (hp : p ≤ c.length) : Effect i s r (s.setSlot k { c with pos := p })
  | close (k : Nat) (c : Cursor) (hi : i = .curClose k) (hs : s.checkSlot k .any = some c) :
      Effect i s r (s.clearSlot k)
  | read (k n : Nat) (c : Cursor) (hi : isRead i = true) (hk : i.slot? = some k)
      (hs : s.checkSlot k .reader = some c) (hn : n ≤ c.remaining) :
      Effect i s r (s.setSlot k (c.advance n))
  | write (k : Nat) (c : Cursor) (bs : List Byte) (hi : isWrite i = true) (hk : i.slot? = some k)
      (hs : s.checkSlot k .writer = some c) (hin : c.regionInMem s.cfg = true)
      (hb : bs.length = storeWidth r i) (hn : bs.length ≤ c.remaining) :
      Effect i s r (storeAndAdvance s k c bs)

/-- A failure other than InvalidCharacter. -/
theorem MayAnswer.fail {i : Instr} {st : Status} (h1 : canRaise i st = true) (h2 : st ≠ .ok)
    (h3 : st ≠ .invalidCharacter) : MayAnswer i (failResponse st) :=
  ⟨h1, by simp [failResponse, h3], fun h => absurd h h2, fun h => absurd h h3,
    fun _ => ⟨rfl, rfl⟩, fun _ _ => rfl⟩

/-- The conclusion of `exec_next`. -/
def Done (i : Instr) (s t : State) (r : Request) : Prop :=
  ∃ rsp u, t = u.complete rsp ∧ MayAnswer i rsp ∧ Effect i s r u ∧ (rsp.status ≠ .ok → u = s)

theorem Done.fail {i : Instr} {s : State} {r : Request} {st : Status} (h1 : canRaise i st = true)
    (h2 : st ≠ .ok) (h3 : st ≠ .invalidCharacter) : Done i s (s.fail st) r :=
  ⟨_, s, rfl, .fail h1 h2 h3, .keep, fun _ => rfl⟩

theorem Done.ok {i : Instr} {s u : State} {r : Request} {rsp : Response} (h : MayAnswer i rsp)
    (ho : rsp.status = .ok) (he : Effect i s r u) : Done i s (u.complete rsp) r :=
  ⟨rsp, u, rfl, h, he, fun hn => absurd ho hn⟩

/-- The numeric reads. -/
theorem readNum_done {ty : NumType} {k : Nat} {o : Order} {s t : State}
    (h : readNum ty k o s = .next t) : ∃ r, s.req = some r ∧ Done (readInstr ty k o) s t r := by
  obtain ⟨r, hr, h⟩ := withRequest_eq_next.1 h
  refine ⟨r, hr, ?_⟩
  rcases onRegion_eq_next.1 h with ⟨-, rfl⟩ | ⟨c, hc, -, rfl⟩
  · exact .fail (by cases ty <;> rfl) (by decide) (by decide)
  · split
    · exact .fail (by cases ty <;> rfl) (by decide) (by decide)
    · next hw =>
      refine .ok ?_ rfl (.read k _ c (by cases ty <;> rfl) (by cases ty <;> rfl) hc (by omega))
      cases ty <;> constructor <;> simp [valueResponse, writesDout, writesOpay, writesOtext,
        canRaise, readInstr, isWrite]

theorem storeWidth_writeInstr (r : Request) (ty : NumType) (k : Nat) (o : Order) :
    storeWidth r (writeInstr ty k o) = numWidth ty := by cases ty <;> rfl

/-- The numeric writes. -/
theorem writeNum_done {ty : NumType} {k : Nat} {o : Order} {s t : State}
    (h : writeNum ty k o s = .next t) : ∃ r, s.req = some r ∧ Done (writeInstr ty k o) s t r := by
  obtain ⟨r, hr, h⟩ := withRequest_eq_next.1 h
  refine ⟨r, hr, ?_⟩
  rcases onRegion_eq_next.1 h with ⟨-, rfl⟩ | ⟨c, hc, hin, rfl⟩
  · exact .fail (by cases ty <;> rfl) (by decide) (by decide)
  · split
    · exact .fail (by cases ty <;> rfl) (by decide) (by decide)
    · next hw =>
      refine .ok ?_ rfl (.write k c _ (by cases ty <;> rfl) (by cases ty <;> rfl) hc hin
        (by simp [storeWidth_writeInstr]) (by simp; omega))
      cases ty <;> constructor <;> simp [okResponse, writesDout, writesOpay, writesOtext,
        canRaise, writeInstr, isWrite]

/-- Construction. -/
theorem construct_done {m : Mode} {k : Nat} {s t : State} (h : construct m k s = .next t) :
    ∃ r, s.req = some r ∧ Done (openInstr m k) s t r := by
  obtain ⟨r, hr, h⟩ := withRequest_eq_next.1 h
  refine ⟨r, hr, ?_⟩
  simp only [Host.Outcome.next.injEq] at h
  subst h
  split
  · exact .fail (by cases m <;> rfl) (by decide) (by decide)
  · next hk =>
    split
    · exact .fail (by cases m <;> rfl) (by decide) (by decide)
    · next hb =>
      simp only [badRegion, signedOperand, addressOperand, Bool.or_eq_true, not_or,
        Bool.not_eq_true] at hb
      have h0 := of_decide_eq_false hb.1.1
      have h1 := of_decide_eq_false hb.1.2
      have h2 := of_decide_eq_false hb.2
      have hl : r.a1.toInt < 2 ^ 63 := by simpa using BitVec.toInt_lt (x := r.a1)
      have hc : (2 : Int) ^ s.cfg.addrW = ((2 ^ s.cfg.addrW : Nat) : Int) := by push_cast; rfl
      rw [hc] at h2
      refine .ok ?_ rfl (.openSlot m k r.a1.toInt.toNat rfl (by omega) ?_ (by omega)
        (by omega))
      · cases m <;> constructor <;> simp [okResponse, writesDout, writesOpay, writesOtext,
          canRaise, openInstr]
      · simp only [lenMax]
        omega

/-- A read that counts its bytes: what `withCount` can answer. -/
theorem withCount_done {i : Instr} {s : State} {r : Request} {c : Cursor} {f : Nat → State}
    (h5 : canRaise i .invalidArgument = true) (h2 : canRaise i .bufferUnderrun = true)
    (h : ∀ n, n ≤ c.remaining → Done i s (f n) r) : Done i s (withCount s r c f) r := by
  rcases withCount_cases s r c f with ⟨-, e⟩ | ⟨-, -, e⟩ | ⟨n, -, hn, e⟩ <;> rw [e]
  · exact .fail h5 (by decide) (by decide)
  · exact .fail h2 (by decide) (by decide)
  · exact h n hn

/-- The end of a string read. -/
theorem finishText_done {i : Instr} {s : State} {r : Request} {k n : Nat} {c : Cursor}
    {e : TextEncoding} {bs : List Byte} (hm : canRaise i .malformedData = true)
    (ht : writesOtext i = true) (hp : writesOpay i = true) (hd : writesDout i = true)
    (hi : isRead i = true) (hk : i.slot? = some k) (hs : s.checkSlot k .reader = some c)
    (hn : n ≤ c.remaining) : Done i s (finishText s k c e bs n) r := by
  unfold finishText
  split
  · exact .fail hm (by decide) (by decide)
  · exact .ok ⟨rfl, by simp [textResponse], by simp [textResponse, ht, hp, hd],
      by simp [textResponse], by simp [textResponse], by simp [textResponse]⟩ rfl
      (.read k n c hi hk hs hn)

/-- A codec command's completion with its FSM at DONE. -/
theorem finishCodec_done {i : Instr} {s : State} {r : Request} {c : Codec}
    (h : MayAnswer i (codecResponse c)) (ho : (codecResponse c).status = .ok) :
    Done i s (s.finishCodec c) r :=
  show Done i s (s.complete (codecResponse c)) r from .ok h ho .keep

theorem runDecoder_done {i : Instr} {s : State} {r : Request} {cs : List CodeUnit}
    (hi : i = .b32Decode ∨ i = .b32Decodep) : Done i s (s.runDecoder cs) r := by
  unfold State.runDecoder
  split
  · refine ⟨_, s, rfl, ?_, .keep, fun _ => rfl⟩
    rcases hi with rfl | rfl <;> constructor <;> simp [badCharResponse, canRaise]
  · rcases hi with rfl | rfl <;>
      exact finishCodec_done (by constructor <;> simp [codecResponse, payloadResponse, canRaise,
        writesDout, writesOpay, writesOtext, isWrite]) rfl

/-- Everything a command can do when it answers a next state. -/
theorem exec_next {i : Instr} {s t : State} (h : exec i s = .next t) :
    ∃ r, s.req = some r ∧ Done i s t r := by
  have size : ∀ {i f}, (i = .b32Enclen ∨ i = .b32Declen) → sizeCommand s f = .next t →
      ∃ r, s.req = some r ∧ Done i s t r := by
    intro i f hi h
    obtain ⟨r, hr, h⟩ := withRequest_eq_next.1 h
    refine ⟨r, hr, ?_⟩
    simp only [Host.Outcome.next.injEq] at h
    subst h
    split
    · exact .fail (by rcases hi with rfl | rfl <;> rfl) (by decide) (by decide)
    · refine .ok ?_ rfl .keep
      rcases hi with rfl | rfl <;> constructor <;> simp [valueResponse, canRaise, writesDout,
        writesOpay, writesOtext, isWrite]
  cases i
  case b32Enclen => exact size (.inl rfl) h
  case b32Declen => exact size (.inr rfl) h
  case b32Encode =>
    obtain ⟨r, hr, h⟩ := withRequest_eq_next.1 h
    obtain ⟨bs, -, -, h⟩ := withBytes_eq_next.1 h
    refine ⟨r, hr, ?_⟩
    simp only [Host.Outcome.next.injEq] at h
    subst h
    split
    · exact .fail rfl (by decide) (by decide)
    · split
      · exact .ok (by constructor <;> simp [payloadResponse, canRaise, writesDout, writesOpay,
          writesOtext, isWrite]) rfl .keep
      · exact finishCodec_done (by constructor <;> simp [codecResponse, payloadResponse, canRaise,
          writesDout, writesOpay, writesOtext, isWrite]) rfl
  case b32Decode =>
    obtain ⟨r, hr, h⟩ := withRequest_eq_next.1 h
    obtain ⟨cs, -, -, h⟩ := withChars_eq_next.1 h
    refine ⟨r, hr, ?_⟩
    simp only [Host.Outcome.next.injEq] at h
    subst h
    split
    · exact .fail rfl (by decide) (by decide)
    · exact runDecoder_done (.inl rfl)
  case b32Strip =>
    obtain ⟨r, hr, h⟩ := withRequest_eq_next.1 h
    obtain ⟨cs, -, -, h⟩ := withChars_eq_next.1 h
    refine ⟨r, hr, ?_⟩
    simp only [Host.Outcome.next.injEq] at h
    subst h
    exact .ok (by constructor <;> simp [valueResponse, canRaise, writesDout, writesOpay,
      writesOtext, isWrite]) rfl .keep
  case b32Decodep =>
    obtain ⟨r, hr, h⟩ := withRequest_eq_next.1 h
    obtain ⟨cs, -, -, h⟩ := withChars_eq_next.1 h
    refine ⟨r, hr, ?_⟩
    simp only [Host.Outcome.next.injEq] at h
    subst h
    split
    · exact .fail rfl (by decide) (by decide)
    · split
      · exact .ok (by constructor <;> simp [payloadResponse, canRaise, writesDout, writesOpay,
          writesOtext, isWrite]) rfl .keep
      · exact runDecoder_done (.inr rfl)
  case curOpenr k => exact construct_done (m := .reader) h
  case curOpenw k => exact construct_done (m := .writer) h
  case curGetpos k =>
    obtain ⟨r, hr, h⟩ := withRequest_eq_next.1 h
    refine ⟨r, hr, ?_⟩
    rcases onSlot_eq_next.1 h with ⟨-, rfl⟩ | ⟨c, hc, rfl⟩
    · exact .fail rfl (by decide) (by decide)
    · exact .ok (by constructor <;> simp [valueResponse, canRaise, writesDout, writesOpay,
        writesOtext, isWrite]) rfl .keep
  case curRem k =>
    obtain ⟨r, hr, h⟩ := withRequest_eq_next.1 h
    refine ⟨r, hr, ?_⟩
    rcases onSlot_eq_next.1 h with ⟨-, rfl⟩ | ⟨c, hc, rfl⟩
    · exact .fail rfl (by decide) (by decide)
    · exact .ok (by constructor <;> simp [valueResponse, canRaise, writesDout, writesOpay,
        writesOtext, isWrite]) rfl .keep
  case curSetpos k =>
    obtain ⟨r, hr, h⟩ := withRequest_eq_next.1 h
    refine ⟨r, hr, ?_⟩
    rcases onSlot_eq_next.1 h with ⟨-, rfl⟩ | ⟨c, hc, rfl⟩
    · exact .fail rfl (by decide) (by decide)
    · dsimp only
      split
      · exact .fail rfl (by decide) (by decide)
      · next hp =>
        exact .ok (by constructor <;> simp [okResponse, canRaise, writesDout, writesOpay,
          writesOtext]) rfl (.setPos k _ c rfl hc (by omega))
  case curClose k =>
    obtain ⟨r, hr, h⟩ := withRequest_eq_next.1 h
    refine ⟨r, hr, ?_⟩
    rcases onSlot_eq_next.1 h with ⟨-, rfl⟩ | ⟨c, hc, rfl⟩
    · exact .fail rfl (by decide) (by decide)
    · exact .ok (by constructor <;> simp [okResponse, canRaise, writesDout, writesOpay,
          writesOtext]) rfl (.close k c rfl hc)
  case rdU8 k o => exact readNum_done (ty := .u8) h
  case rdI8 k o => exact readNum_done (ty := .i8) h
  case rdU16 k o => exact readNum_done (ty := .u16) h
  case rdI16 k o => exact readNum_done (ty := .i16) h
  case rdU32 k o => exact readNum_done (ty := .u32) h
  case rdI32 k o => exact readNum_done (ty := .i32) h
  case rdU64 k o => exact readNum_done (ty := .u64) h
  case rdI64 k o => exact readNum_done (ty := .i64) h
  case rdU128 k o => exact readNum_done (ty := .u128) h
  case rdI128 k o => exact readNum_done (ty := .i128) h
  case rdF32 k o => exact readNum_done (ty := .f32) h
  case rdF64 k o => exact readNum_done (ty := .f64) h
  case rdBytes k =>
    obtain ⟨r, hr, h⟩ := withRequest_eq_next.1 h
    refine ⟨r, hr, ?_⟩
    rcases onRegion_eq_next.1 h with ⟨-, rfl⟩ | ⟨c, hc, -, rfl⟩
    · exact .fail rfl (by decide) (by decide)
    · exact withCount_done rfl rfl fun n hn => .ok (by constructor <;> simp [payloadResponse,
        canRaise, writesDout, writesOpay, writesOtext, isWrite]) rfl (.read k n c rfl rfl hc hn)
  case rdSlice k =>
    obtain ⟨r, hr, h⟩ := withRequest_eq_next.1 h
    refine ⟨r, hr, ?_⟩
    rcases onSlot_eq_next.1 h with ⟨-, rfl⟩ | ⟨c, hc, rfl⟩
    · exact .fail rfl (by decide) (by decide)
    · exact withCount_done rfl rfl fun n hn => .ok (by constructor <;> simp [valueResponse,
        canRaise, writesDout, writesOpay, writesOtext, isWrite]) rfl (.read k n c rfl rfl hc hn)
  case rdCstr k =>
    obtain ⟨r, hr, h⟩ := withRequest_eq_next.1 h
    refine ⟨r, hr, ?_⟩
    rcases onRegion_eq_next.1 h with ⟨-, rfl⟩ | ⟨c, hc, -, rfl⟩
    · exact .fail rfl (by decide) (by decide)
    · split
      · exact .fail rfl (by decide) (by decide)
      · next n hz =>
        have := (State.findZero_eq_some.1 hz).1
        exact finishText_done rfl rfl rfl rfl rfl rfl hc (by omega)
  case rdStr k e =>
    obtain ⟨r, hr, h⟩ := withRequest_eq_next.1 h
    refine ⟨r, hr, ?_⟩
    rcases onRegion_eq_next.1 h with ⟨-, rfl⟩ | ⟨c, hc, -, rfl⟩
    · exact .fail rfl (by decide) (by decide)
    · exact withCount_done rfl rfl fun n hn => finishText_done rfl rfl rfl rfl rfl rfl hc hn
  case wrU8 k o => exact writeNum_done (ty := .u8) h
  case wrI8 k o => exact writeNum_done (ty := .i8) h
  case wrU16 k o => exact writeNum_done (ty := .u16) h
  case wrI16 k o => exact writeNum_done (ty := .i16) h
  case wrU32 k o => exact writeNum_done (ty := .u32) h
  case wrI32 k o => exact writeNum_done (ty := .i32) h
  case wrU64 k o => exact writeNum_done (ty := .u64) h
  case wrI64 k o => exact writeNum_done (ty := .i64) h
  case wrU128 k o => exact writeNum_done (ty := .u128) h
  case wrI128 k o => exact writeNum_done (ty := .i128) h
  case wrF32 k o => exact writeNum_done (ty := .f32) h
  case wrF64 k o => exact writeNum_done (ty := .f64) h
  case wrBytes k =>
    obtain ⟨r, hr, h⟩ := withRequest_eq_next.1 h
    obtain ⟨bs, hb, -, h⟩ := withBytes_eq_next.1 h
    refine ⟨r, hr, ?_⟩
    rcases onRegion_eq_next.1 h with ⟨-, rfl⟩ | ⟨c, hc, hin, rfl⟩
    · exact .fail rfl (by decide) (by decide)
    · split
      · exact .fail rfl (by decide) (by decide)
      · exact .ok (by constructor <;> simp [valueResponse, canRaise, writesDout, writesOpay,
          writesOtext]) rfl
          (.write k c bs rfl rfl hc hin (by simp [storeWidth, hb, Payload.length]) (by omega))

end Sys2Proof.Machine
end

