-- ==== Sys2Proof/Laws/PerInstr.lean ====
section
/-! SUPPORT. Statements about every instruction as syntax, one lemma per constructor.

Family EncodedFields: in the word of a well-formed instruction RSV is zero (30_encoding.md R75), SLOT
is the instruction's slot, or zero where it has none (30_encoding.md R72), and ENC is zero (R74). -/

namespace Sys2Proof.Laws.EncodedFields

/-- RSV, SLOT and ENC of the word of i. -/
def Statement (i : Instr) : Prop :=
  i.wf = true →
    rsvField (encode i) = 0#16 ∧ slotField (encode i) = i.slot?.getD 0 ∧ encField (encode i) = 0#2

/-- The statement for a command with a SLOT field, from its sixteen words. -/
theorem ofSlot (mk : Nat → Instr) (hs : ∀ k, (mk k).slot? = some k)
    (h : ∀ k, k < 16 →
      rsvField (encode (mk k)) = 0#16 ∧ slotField (encode (mk k)) = k ∧
        encField (encode (mk k)) = 0#2) (k : Nat) : Statement (mk k) := by
  intro hw
  have hk : k < 16 := by simpa [Instr.wf, hs] using hw
  simpa [hs] using h k hk

theorem b32Enclen : Statement .b32Enclen := by unfold Statement; decide
theorem b32Declen : Statement .b32Declen := by unfold Statement; decide
theorem b32Encode : Statement .b32Encode := by unfold Statement; decide
theorem b32Decode : Statement .b32Decode := by unfold Statement; decide
theorem b32Strip : Statement .b32Strip := by unfold Statement; decide
theorem b32Decodep : Statement .b32Decodep := by unfold Statement; decide
theorem curOpenr (k : Nat) : Statement (.curOpenr k) :=
  ofSlot .curOpenr (fun _ => rfl) (by decide) k
theorem curOpenw (k : Nat) : Statement (.curOpenw k) :=
  ofSlot .curOpenw (fun _ => rfl) (by decide) k
theorem curGetpos (k : Nat) : Statement (.curGetpos k) :=
  ofSlot .curGetpos (fun _ => rfl) (by decide) k
theorem curSetpos (k : Nat) : Statement (.curSetpos k) :=
  ofSlot .curSetpos (fun _ => rfl) (by decide) k
theorem curRem (k : Nat) : Statement (.curRem k) :=
  ofSlot .curRem (fun _ => rfl) (by decide) k
theorem curClose (k : Nat) : Statement (.curClose k) :=
  ofSlot .curClose (fun _ => rfl) (by decide) k
theorem rdU8 (k : Nat) (o : Order) : Statement (.rdU8 k o) :=
  ofSlot (.rdU8 · o) (fun _ => rfl) (by cases o <;> decide) k
theorem rdI8 (k : Nat) (o : Order) : Statement (.rdI8 k o) :=
  ofSlot (.rdI8 · o) (fun _ => rfl) (by cases o <;> decide) k
theorem rdU16 (k : Nat) (o : Order) : Statement (.rdU16 k o) :=
  ofSlot (.rdU16 · o) (fun _ => rfl) (by cases o <;> decide) k
theorem rdI16 (k : Nat) (o : Order) : Statement (.rdI16 k o) :=
  ofSlot (.rdI16 · o) (fun _ => rfl) (by cases o <;> decide) k
theorem rdU32 (k : Nat) (o : Order) : Statement (.rdU32 k o) :=
  ofSlot (.rdU32 · o) (fun _ => rfl) (by cases o <;> decide) k
theorem rdI32 (k : Nat) (o : Order) : Statement (.rdI32 k o) :=
  ofSlot (.rdI32 · o) (fun _ => rfl) (by cases o <;> decide) k
theorem rdU64 (k : Nat) (o : Order) : Statement (.rdU64 k o) :=
  ofSlot (.rdU64 · o) (fun _ => rfl) (by cases o <;> decide) k
theorem rdI64 (k : Nat) (o : Order) : Statement (.rdI64 k o) :=
  ofSlot (.rdI64 · o) (fun _ => rfl) (by cases o <;> decide) k
theorem rdU128 (k : Nat) (o : Order) : Statement (.rdU128 k o) :=
  ofSlot (.rdU128 · o) (fun _ => rfl) (by cases o <;> decide) k
theorem rdI128 (k : Nat) (o : Order) : Statement (.rdI128 k o) :=
  ofSlot (.rdI128 · o) (fun _ => rfl) (by cases o <;> decide) k
theorem rdF32 (k : Nat) (o : Order) : Statement (.rdF32 k o) :=
  ofSlot (.rdF32 · o) (fun _ => rfl) (by cases o <;> decide) k
theorem rdF64 (k : Nat) (o : Order) : Statement (.rdF64 k o) :=
  ofSlot (.rdF64 · o) (fun _ => rfl) (by cases o <;> decide) k
theorem rdBytes (k : Nat) : Statement (.rdBytes k) :=
  ofSlot .rdBytes (fun _ => rfl) (by decide) k
theorem rdSlice (k : Nat) : Statement (.rdSlice k) :=
  ofSlot .rdSlice (fun _ => rfl) (by decide) k
theorem rdCstr (k : Nat) : Statement (.rdCstr k) :=
  ofSlot .rdCstr (fun _ => rfl) (by decide) k
theorem rdStr (k : Nat) (e : TextEncoding) : Statement (.rdStr k e) :=
  ofSlot (.rdStr · e) (fun _ => rfl) (by cases e; decide) k
theorem wrU8 (k : Nat) (o : Order) : Statement (.wrU8 k o) :=
  ofSlot (.wrU8 · o) (fun _ => rfl) (by cases o <;> decide) k
theorem wrI8 (k : Nat) (o : Order) : Statement (.wrI8 k o) :=
  ofSlot (.wrI8 · o) (fun _ => rfl) (by cases o <;> decide) k
theorem wrU16 (k : Nat) (o : Order) : Statement (.wrU16 k o) :=
  ofSlot (.wrU16 · o) (fun _ => rfl) (by cases o <;> decide) k
theorem wrI16 (k : Nat) (o : Order) : Statement (.wrI16 k o) :=
  ofSlot (.wrI16 · o) (fun _ => rfl) (by cases o <;> decide) k
theorem wrU32 (k : Nat) (o : Order) : Statement (.wrU32 k o) :=
  ofSlot (.wrU32 · o) (fun _ => rfl) (by cases o <;> decide) k
theorem wrI32 (k : Nat) (o : Order) : Statement (.wrI32 k o) :=
  ofSlot (.wrI32 · o) (fun _ => rfl) (by cases o <;> decide) k
theorem wrU64 (k : Nat) (o : Order) : Statement (.wrU64 k o) :=
  ofSlot (.wrU64 · o) (fun _ => rfl) (by cases o <;> decide) k
theorem wrI64 (k : Nat) (o : Order) : Statement (.wrI64 k o) :=
  ofSlot (.wrI64 · o) (fun _ => rfl) (by cases o <;> decide) k
theorem wrU128 (k : Nat) (o : Order) : Statement (.wrU128 k o) :=
  ofSlot (.wrU128 · o) (fun _ => rfl) (by cases o <;> decide) k
theorem wrI128 (k : Nat) (o : Order) : Statement (.wrI128 k o) :=
  ofSlot (.wrI128 · o) (fun _ => rfl) (by cases o <;> decide) k
theorem wrF32 (k : Nat) (o : Order) : Statement (.wrF32 k o) :=
  ofSlot (.wrF32 · o) (fun _ => rfl) (by cases o <;> decide) k
theorem wrF64 (k : Nat) (o : Order) : Statement (.wrF64 k o) :=
  ofSlot (.wrF64 · o) (fun _ => rfl) (by cases o <;> decide) k
theorem wrBytes (k : Nat) : Statement (.wrBytes k) :=
  ofSlot .wrBytes (fun _ => rfl) (by decide) k

end Sys2Proof.Laws.EncodedFields
end

