-- ==== Sys2Proof/Tests/Slice0.lean ====
section
/-! SUPPORT. Tests: the checks refuse ill-formed terms; words written out from 30_encoding.md decode
to their commands; the vectors of 95_test_vectors.md; and witnesses that meet the hypotheses of the
statements. -/

namespace Sys2Proof.Tests

open Sys2Proof.Machine Sys2Proof.Safety

/-! ## A small state: the parameters of 95_test_vectors.md section 3 -/

/-- NSLOT = 4, ADDR_W = 64, a little-endian host, standard UTF-8, MEM zero where unlisted. -/
def cfg0 : Config where
  charW := 16
  addrW := 64
  nslot := 4
  hostOrder := .little
  text := .standardUtf8
  fill := .filled 0#8
  blockBase := none

/-- The bytes of 95_test_vectors.md sections 2.8 and 2.9. -/
def mem0 : Memory :=
  [(0x1000, 0x80#8), (0x1001, 0x01#8), (0x1002, 0x02#8), (0x1003, 0x03#8), (0x1004, 0x04#8),
   (0x1005, 0x05#8), (0x1006, 0x06#8), (0x1007, 0x07#8), (0x1008, 0x08#8), (0x1009, 0x09#8),
   (0x100A, 0x0A#8), (0x100B, 0x0B#8), (0x100C, 0x0C#8), (0x100D, 0x0D#8), (0x100E, 0x0E#8),
   (0x100F, 0x0F#8), (0x2000, 0x41#8), (0x2001, 0x42#8), (0x2003, 0xFF#8), (0x2004, 0x43#8),
   (0x2005, 0x44#8), (0x2006, 0x45#8), (0x4000, 0xC3#8), (0x4001, 0x28#8)]

/-- Slot 0 a writer and slot 1 a reader of 16 bytes, slot 2 a reader of 7, slot 3 unbound. -/
def base : State where
  cfg := cfg0
  slots := [(0, ⟨.writer, 0x1000, 16, 0⟩), (1, ⟨.reader, 0x1000, 16, 0⟩),
    (2, ⟨.reader, 0x2000, 7, 0⟩)]
  mem := mem0
  req := none
  resp := none
  codec := .idle
  history := []
  host := []

/-- The same on a big-endian host. -/
def bigHost : State := { base with cfg := { cfg0 with hostOrder := .big } }

/-- The same with ADDR_W = 16. -/
def narrow : State := { base with cfg := { cfg0 with addrW := 16 } }

/-- The 64-bit pattern of -1. -/
def M : Word64 := 0xFFFFFFFFFFFFFFFF#64

/-- A request. -/
def rq (cmd : CmdWord) (a0 : Word64 := 0#64) (a1 : Word64 := 0#64) (din : Word128 := 0#128)
    (ipay : Payload := .bytes []) : Request := ⟨cmd, a0, a1, din, ipay⟩

/-- s with a pending request. -/
def send (s : State) (r : Request) : State := { s with req := some r }

/-- s with slot k moved to position p. -/
def moved (s : State) (k p : Nat) : State :=
  match s.slot k with
  | none => s
  | some c => s.setSlot k { c with pos := p }

/-- The response after a step. -/
def reply (o : Result) : Option Response :=
  match o with
  | .next t => t.resp
  | .fault _ => none
  | .refused _ => none

/-- Slot k after a step. -/
def slotAfter (k : Nat) (o : Result) : Option Cursor :=
  match o with
  | .next t => t.slot k
  | .fault _ => none
  | .refused _ => none

/-- The position of slot k after a step. -/
def posAfter (k : Nat) (o : Result) : Option Nat := (slotAfter k o).map Cursor.pos

/-- n bytes of MEM after a step. -/
def bytesAfter (a n : Nat) (o : Result) : List Byte :=
  match o with
  | .next t => t.readBytes a n
  | .fault _ => []
  | .refused _ => []

/-- OK with a value. -/
def okVal (v : Word128) : Option Response := some { status := .ok, dout := some v }

/-- A status and no field. -/
def failed (st : Status) : Option Response := some { status := st }

/-- "foobar" and its Base32 text (95_test_vectors.md S7). -/
def foobar : List Byte := [0x66#8, 0x6F#8, 0x6F#8, 0x62#8, 0x61#8, 0x72#8]
/-- "MZXW6YTBOI======". -/
def foobarText : List CodeUnit :=
  [0x4D, 0x5A, 0x58, 0x57, 0x36, 0x59, 0x54, 0x42, 0x4F, 0x49, 0x3D, 0x3D, 0x3D, 0x3D, 0x3D, 0x3D]

/-! ## The checks refuse ill-formed terms -/

theorem test_wf_slot_too_large : Instr.wf (.rdU8 16 .native) = false := by decide
theorem test_wf_slot_max : Instr.wf (.rdU8 15 .native) = true := by decide
theorem test_wf_codec : Instr.wf .b32Strip = true := by decide
theorem test_config_charW : Config.wf { cfg0 with charW := 7 } = false := by decide
theorem test_config_nslot_zero : Config.wf { cfg0 with nslot := 0 } = false := by decide
theorem test_config_nslot_large : Config.wf { cfg0 with nslot := 17 } = false := by decide
theorem test_config_ok : Config.wf cfg0 = true := by decide
theorem test_formed_encode_text :
    Request.formed cfg0 .b32Encode (rq 0x3#32 8#64 (ipay := .chars [0x4D])) = false := by decide
theorem test_formed_decode_bytes :
    Request.formed cfg0 .b32Decode (rq 0x4#32 8#64 (ipay := .bytes [0x4D#8])) = false := by decide
theorem test_formed_wide_unit :
    Request.formed cfg0 .b32Strip (rq 0x5#32 (ipay := .chars [0x10000])) = false := by decide
theorem test_formed_widest_unit :
    Request.formed cfg0 .b32Strip (rq 0x5#32 (ipay := .chars [0xFFFF])) = true := by decide
theorem test_memory_wf_unsorted : Memory.wf cfg0 [(2, 1#8), (1, 1#8)] = false := by decide
theorem test_memory_wf_twice : Memory.wf cfg0 [(1, 1#8), (1, 2#8)] = false := by decide
theorem test_memory_wf_unlisted : Memory.wf cfg0 [(1, 0#8)] = false := by decide
theorem test_memory_wf_ok : Memory.wf cfg0 mem0 = true := by decide
/-- Writing what an unlisted byte holds removes the entry. -/
theorem test_memSet_removes : memSet cfg0 [(1, 1#8), (2, 2#8)] 1 0#8 = [(2, 2#8)] := by decide

/-! ## Words written out field by field, RSV_ENC_ORD_SLOT_OPC (30_encoding.md R70 to R77) -/

theorem test_decode_b32Enclen :
    decode 0b0000000000000000_00_00_0000_00000001#32 = some .b32Enclen := by decide
theorem test_decode_b32Declen :
    decode 0b0000000000000000_00_00_0000_00000010#32 = some .b32Declen := by decide
theorem test_decode_b32Encode :
    decode 0b0000000000000000_00_00_0000_00000011#32 = some .b32Encode := by decide
theorem test_decode_b32Decode :
    decode 0b0000000000000000_00_00_0000_00000100#32 = some .b32Decode := by decide
theorem test_decode_b32Strip :
    decode 0b0000000000000000_00_00_0000_00000101#32 = some .b32Strip := by decide
theorem test_decode_b32Decodep :
    decode 0b0000000000000000_00_00_0000_00000110#32 = some .b32Decodep := by decide
theorem test_decode_curOpenr :
    decode 0b0000000000000000_00_00_0001_00010000#32 = some (.curOpenr 1) := by decide
theorem test_decode_curOpenw :
    decode 0b0000000000000000_00_00_0010_00010001#32 = some (.curOpenw 2) := by decide
theorem test_decode_curGetpos :
    decode 0b0000000000000000_00_00_0001_00010010#32 = some (.curGetpos 1) := by decide
theorem test_decode_curSetpos :
    decode 0b0000000000000000_00_00_1111_00010011#32 = some (.curSetpos 15) := by decide
theorem test_decode_curRem :
    decode 0b0000000000000000_00_00_0000_00010100#32 = some (.curRem 0) := by decide
theorem test_decode_curClose :
    decode 0b0000000000000000_00_00_0111_00010101#32 = some (.curClose 7) := by decide
theorem test_decode_rdU8 :
    decode 0b0000000000000000_00_01_0011_00100000#32 = some (.rdU8 3 .little) := by decide
theorem test_decode_rdI8 :
    decode 0b0000000000000000_00_10_1000_00100001#32 = some (.rdI8 8 .big) := by decide
theorem test_decode_rdU16 :
    decode 0b0000000000000000_00_00_1101_00100010#32 = some (.rdU16 13 .native) := by decide
theorem test_decode_rdI16 :
    decode 0b0000000000000000_00_01_0010_00100011#32 = some (.rdI16 2 .little) := by decide
theorem test_decode_rdU32 :
    decode 0b0000000000000000_00_10_0111_00100100#32 = some (.rdU32 7 .big) := by decide
theorem test_decode_rdI32 :
    decode 0b0000000000000000_00_00_1100_00100101#32 = some (.rdI32 12 .native) := by decide
theorem test_decode_rdU64 :
    decode 0b0000000000000000_00_01_0001_00100110#32 = some (.rdU64 1 .little) := by decide
theorem test_decode_rdI64 :
    decode 0b0000000000000000_00_10_0110_00100111#32 = some (.rdI64 6 .big) := by decide
theorem test_decode_rdU128 :
    decode 0b0000000000000000_00_00_1011_00101000#32 = some (.rdU128 11 .native) := by decide
theorem test_decode_rdI128 :
    decode 0b0000000000000000_00_01_0000_00101001#32 = some (.rdI128 0 .little) := by decide
theorem test_decode_rdF32 :
    decode 0b0000000000000000_00_10_0101_00101010#32 = some (.rdF32 5 .big) := by decide
theorem test_decode_rdF64 :
    decode 0b0000000000000000_00_00_1010_00101011#32 = some (.rdF64 10 .native) := by decide
theorem test_decode_wrU8 :
    decode 0b0000000000000000_00_10_0011_01000000#32 = some (.wrU8 3 .big) := by decide
theorem test_decode_wrI8 :
    decode 0b0000000000000000_00_00_1000_01000001#32 = some (.wrI8 8 .native) := by decide
theorem test_decode_wrU16 :
    decode 0b0000000000000000_00_01_1101_01000010#32 = some (.wrU16 13 .little) := by decide
theorem test_decode_wrI16 :
    decode 0b0000000000000000_00_10_0010_01000011#32 = some (.wrI16 2 .big) := by decide
theorem test_decode_wrU32 :
    decode 0b0000000000000000_00_00_0111_01000100#32 = some (.wrU32 7 .native) := by decide
theorem test_decode_wrI32 :
    decode 0b0000000000000000_00_01_1100_01000101#32 = some (.wrI32 12 .little) := by decide
theorem test_decode_wrU64 :
    decode 0b0000000000000000_00_10_0001_01000110#32 = some (.wrU64 1 .big) := by decide
theorem test_decode_wrI64 :
    decode 0b0000000000000000_00_00_0110_01000111#32 = some (.wrI64 6 .native) := by decide
theorem test_decode_wrU128 :
    decode 0b0000000000000000_00_01_1011_01001000#32 = some (.wrU128 11 .little) := by decide
theorem test_decode_wrI128 :
    decode 0b0000000000000000_00_10_0000_01001001#32 = some (.wrI128 0 .big) := by decide
theorem test_decode_wrF32 :
    decode 0b0000000000000000_00_00_0101_01001010#32 = some (.wrF32 5 .native) := by decide
theorem test_decode_wrF64 :
    decode 0b0000000000000000_00_01_1010_01001011#32 = some (.wrF64 10 .little) := by decide
theorem test_decode_rdBytes :
    decode 0b0000000000000000_00_00_0010_00110000#32 = some (.rdBytes 2) := by decide
theorem test_decode_rdSlice :
    decode 0b0000000000000000_00_00_1001_00110001#32 = some (.rdSlice 9) := by decide
theorem test_decode_rdCstr :
    decode 0b0000000000000000_00_00_0010_00110010#32 = some (.rdCstr 2) := by decide
theorem test_decode_rdStr :
    decode 0b0000000000000000_00_00_0010_00110011#32 = some (.rdStr 2 .utf8) := by decide
theorem test_decode_wrBytes :
    decode 0b0000000000000000_00_00_0011_01010000#32 = some (.wrBytes 3) := by decide

/-- 95_test_vectors.md section 2.1, the illegal words. -/
theorem test_decode_illegal :
    [0x00000000#32, 0x00000007#32, 0x00000016#32, 0x0000002C#32, 0x0000002F#32, 0x00000034#32,
      0x0000004C#32, 0x00000051#32, 0x000000FF#32, 0x00000101#32, 0x00001001#32, 0x00004000#32,
      0x00001030#32, 0x00003124#32, 0x0000F020#32, 0x00004033#32, 0x00010001#32, 0x08000233#32].all
      (fun w => (decode w).isNone) = true := by decide
/-- The table's numbering: bit 0 is the least significant bit of CMD. -/
theorem test_decodeTableWord : decodeTableWord 32 0x00002124 = some (.rdU32 1 .big) := by decide
/-- The very next step runs the word, from reset: B32.ENCLEN of zero bytes. -/
theorem test_withFetchWord : reply (step (State.reset.withFetchWord 32 0x00000001)) = okVal 0#128 := by
  decide
/-- From reset a cursor command finds its slot unbound (70_reset_and_hazards.md R284). -/
theorem test_reset_unbound :
    reply (step (State.reset.withFetchWord 32 0x00000120)) = failed .illegalCommand := by decide

/-! ## Base32 (95_test_vectors.md sections 1 and 2.2 to 2.6) -/

/-- No wrap at the largest count. -/
theorem test_enclen_max :
    reply (step (send base (rq 0x1#32 0x7FFFFFFFFFFFFFFF#64))) = okVal 0xCCCCCCCCCCCCCCD0#128 := by
  decide
theorem test_enclen_negative :
    reply (step (send base (rq 0x1#32 M))) = failed .invalidArgument := by decide
theorem test_declen_max :
    reply (step (send base (rq 0x2#32 0x7FFFFFFFFFFFFFFF#64))) = okVal 0x4FFFFFFFFFFFFFFF#128 := by
  decide
theorem test_declen_negative :
    reply (step (send base (rq 0x2#32 0x8000000000000000#64))) = failed .invalidArgument := by decide
theorem test_encode_foobar :
    reply (step (send base (rq 0x3#32 16#64 (ipay := .bytes foobar)))) =
      some { status := .ok, dout := some 16#128, opay := some (.chars foobarText) } := by
  decide
theorem test_encode_empty :
    reply (step (send base (rq 0x3#32 0#64 (ipay := .bytes [])))) =
      some { status := .ok, dout := some 0#128, opay := some (.chars []) } := by decide
theorem test_decode_foobar :
    reply (step (send base (rq 0x4#32 6#64 (ipay := .chars (foobarText.take 10))))) =
      some { status := .ok, dout := some 6#128, opay := some (.bytes foobar) } := by
  decide
/-- The pad character is no alphabet character, and its index is reported. -/
theorem test_decode_inner_pad :
    reply (step (send base (rq 0x4#32 1#64 (ipay := (.chars [0x4D, 0x3D, 0x59]))))) =
      some { status := .invalidCharacter, einfo := some 0x3D, dout := some 1#128 } := by decide
theorem test_strip_five :
    reply (step (send base (rq 0x5#32 (ipay := (.chars [0x41, 0x42, 0x3D, 0x3D, 0x3D, 0x3D, 0x3D]))))) =
      okVal 2#128 := by decide
theorem test_strip_inner :
    reply (step (send base (rq 0x5#32 (ipay := (.chars [0x4D, 0x3D, 0x59]))))) = okVal 3#128 := by decide
theorem test_decodep_my :
    reply (step (send base (rq 0x6#32 1#64 (ipay := (.chars [0x4D, 0x59, 0x3D, 0x3D, 0x3D, 0x3D, 0x3D, 0x3D]))))) =
      some { status := .ok, dout := some 1#128, opay := some (.bytes [0x66#8]) } := by decide
theorem test_decodep_inner_pad :
    reply (step (send base (rq 0x6#32 3#64 (ipay := (.chars [0x4D, 0x59, 0x3D, 0x3D, 0x4D, 0x59]))))) =
      some { status := .invalidCharacter, einfo := some 0x3D, dout := some 2#128 } := by decide

/-! The FSM traces of 95_test_vectors.md sections 2.3 and 2.5: ACC, REM, I after a step. -/

/-- "foob", step 5: the largest REM, after LOAD 62. -/
theorem test_encoder_trace_load :
    let r := encFill (foobar.take 4) (encSteps (foobar.take 4) 4 (encStart accW (foobar.take 4)))
    r.acc = 0x6F62#16 ∧ r.rem = 12 ∧ r.i = 4 ∧ r.out = [0x4D, 0x5A, 0x58, 0x57] := by decide
/-- "foob", step 7: FLUSH 3. -/
theorem test_encoder_trace_flush :
    let r := encFill (foobar.take 4) (encSteps (foobar.take 4) 6 (encStart accW (foobar.take 4)))
    r.acc = 0x7B10#16 ∧ r.rem = 5 ∧ r.i = 4 := by decide
/-- "MZXW", after W: ACC, REM and the bytes so far. -/
theorem test_decoder_trace :
    (match decSteps (foobarText.take 10) 4 (decStart accW) with
      | .ok r => r.acc == 0x66F6#16 && r.rem == 4 && r.out == [0x66#8, 0x6F#8]
      | .error _ => false) = true := by decide

/-! ## Cursor control (95_test_vectors.md section 2.7) -/

theorem test_openr :
    slotAfter 1 (step (send base (rq 0x00000110#32 0x1000#64 4#64))) = some ⟨.reader, 0x1000, 4, 0⟩ := by
  decide
/-- The region may end exactly at 2^ADDR_W. -/
theorem test_openr_top :
    slotAfter 0 (step (send narrow (rq 0x00000010#32 0xFFFF#64 1#64))) = some ⟨.reader, 0xFFFF, 1, 0⟩ := by
  decide
theorem test_openw :
    slotAfter 3 (step (send base (rq 0x00000311#32 0x3000#64 2#64))) = some ⟨.writer, 0x3000, 2, 0⟩ := by
  decide
/-- The region may not wrap; the slot is as it was. -/
theorem test_openw_wrap :
    let o := step (send base (rq 0x00000311#32 M 2#64))
    reply o = failed .invalidArgument ∧ slotAfter 3 o = none := by decide
theorem test_getpos :
    reply (step (send (moved base 1 1) (rq 0x00000112#32))) = okVal 1#128 := by decide
theorem test_getpos_unbound :
    reply (step (send base (rq 0x00000312#32))) = failed .illegalCommand := by decide
/-- p = length is allowed. -/
theorem test_setpos_length :
    posAfter 1 (step (send base (rq 0x00000113#32 16#64))) = some 16 := by decide
theorem test_setpos_past :
    let o := step (send (moved base 1 1) (rq 0x00000113#32 17#64))
    reply o = failed .invalidArgument ∧ posAfter 1 o = some 1 := by decide
theorem test_rem : reply (step (send (moved base 1 1) (rq 0x00000114#32))) = okVal 15#128 := by decide
theorem test_rem_exhausted :
    reply (step (send (moved base 0 16) (rq 0x00000014#32))) = okVal 0#128 := by decide
theorem test_close :
    let o := step (send base (rq 0x00000115#32))
    reply o = some { status := .ok } ∧ slotAfter 1 o = none := by decide
theorem test_close_past_nslot :
    reply (step (send base (rq 0x00000515#32))) = failed .illegalCommand := by decide

/-! ## Numeric reads (95_test_vectors.md section 2.8) -/

theorem test_rdU8_le :
    let o := step (send base (rq 0x00001120#32))
    reply o = okVal 0x80#128 ∧ posAfter 1 o = some 1 := by decide
theorem test_rdU8_be :
    let o := step (send base (rq 0x00002120#32))
    reply o = okVal 0x80#128 ∧ posAfter 1 o = some 1 := by decide
theorem test_rdI8_le :
    let o := step (send base (rq 0x00001121#32))
    reply o = okVal 0xFFFFFFFFFFFFFFFFFFFFFFFFFFFFFF80#128 ∧ posAfter 1 o = some 1 := by decide
theorem test_rdI8_be :
    let o := step (send base (rq 0x00002121#32))
    reply o = okVal 0xFFFFFFFFFFFFFFFFFFFFFFFFFFFFFF80#128 ∧ posAfter 1 o = some 1 := by decide
theorem test_rdU16_le :
    let o := step (send base (rq 0x00001122#32))
    reply o = okVal 0x180#128 ∧ posAfter 1 o = some 2 := by decide
theorem test_rdU16_be :
    let o := step (send base (rq 0x00002122#32))
    reply o = okVal 0x8001#128 ∧ posAfter 1 o = some 2 := by decide
theorem test_rdI16_le :
    let o := step (send base (rq 0x00001123#32))
    reply o = okVal 0x180#128 ∧ posAfter 1 o = some 2 := by decide
theorem test_rdI16_be :
    let o := step (send base (rq 0x00002123#32))
    reply o = okVal 0xFFFFFFFFFFFFFFFFFFFFFFFFFFFF8001#128 ∧ posAfter 1 o = some 2 := by decide
theorem test_rdU32_le :
    let o := step (send base (rq 0x00001124#32))
    reply o = okVal 0x3020180#128 ∧ posAfter 1 o = some 4 := by decide
theorem test_rdU32_be :
    let o := step (send base (rq 0x00002124#32))
    reply o = okVal 0x80010203#128 ∧ posAfter 1 o = some 4 := by decide
theorem test_rdI32_le :
    let o := step (send base (rq 0x00001125#32))
    reply o = okVal 0x3020180#128 ∧ posAfter 1 o = some 4 := by decide
theorem test_rdI32_be :
    let o := step (send base (rq 0x00002125#32))
    reply o = okVal 0xFFFFFFFFFFFFFFFFFFFFFFFF80010203#128 ∧ posAfter 1 o = some 4 := by decide
theorem test_rdU64_le :
    let o := step (send base (rq 0x00001126#32))
    reply o = okVal 0x706050403020180#128 ∧ posAfter 1 o = some 8 := by decide
theorem test_rdU64_be :
    let o := step (send base (rq 0x00002126#32))
    reply o = okVal 0x8001020304050607#128 ∧ posAfter 1 o = some 8 := by decide
theorem test_rdI64_le :
    let o := step (send base (rq 0x00001127#32))
    reply o = okVal 0x706050403020180#128 ∧ posAfter 1 o = some 8 := by decide
theorem test_rdI64_be :
    let o := step (send base (rq 0x00002127#32))
    reply o = okVal 0xFFFFFFFFFFFFFFFF8001020304050607#128 ∧ posAfter 1 o = some 8 := by decide
theorem test_rdU128_le :
    let o := step (send base (rq 0x00001128#32))
    reply o = okVal 0xF0E0D0C0B0A09080706050403020180#128 ∧ posAfter 1 o = some 16 := by decide
theorem test_rdU128_be :
    let o := step (send base (rq 0x00002128#32))
    reply o = okVal 0x800102030405060708090A0B0C0D0E0F#128 ∧ posAfter 1 o = some 16 := by decide
theorem test_rdI128_le :
    let o := step (send base (rq 0x00001129#32))
    reply o = okVal 0xF0E0D0C0B0A09080706050403020180#128 ∧ posAfter 1 o = some 16 := by decide
theorem test_rdI128_be :
    let o := step (send base (rq 0x00002129#32))
    reply o = okVal 0x800102030405060708090A0B0C0D0E0F#128 ∧ posAfter 1 o = some 16 := by decide
theorem test_rdF32_le :
    let o := step (send base (rq 0x0000112A#32))
    reply o = okVal 0x3020180#128 ∧ posAfter 1 o = some 4 := by decide
theorem test_rdF32_be :
    let o := step (send base (rq 0x0000212A#32))
    reply o = okVal 0x80010203#128 ∧ posAfter 1 o = some 4 := by decide
theorem test_rdF64_le :
    let o := step (send base (rq 0x0000112B#32))
    reply o = okVal 0x706050403020180#128 ∧ posAfter 1 o = some 8 := by decide
theorem test_rdF64_be :
    let o := step (send base (rq 0x0000212B#32))
    reply o = okVal 0x8001020304050607#128 ∧ posAfter 1 o = some 8 := by decide
/-- The native order is the host's. -/
theorem test_rd_native_big :
    reply (step (send bigHost (rq 0x00000122#32))) = okVal 0x8001#128 := by decide
theorem test_rd_underrun :
    let o := step (send (moved base 1 15) (rq 0x00001122#32))
    reply o = failed .bufferUnderrun ∧ posAfter 1 o = some 15 := by decide

/-! ## Byte-range reads (95_test_vectors.md section 2.9) -/

theorem test_rdBytes :
    let o := step (send (moved base 2 3) (rq 0x00000230#32 4#64))
    reply o = some
        { status := .ok, dout := some 4#128,
          opay := some (.bytes [0xFF#8, 0x43#8, 0x44#8, 0x45#8]) } ∧
      posAfter 2 o = some 7 := by decide
theorem test_rdBytes_past :
    let o := step (send (moved base 2 3) (rq 0x00000230#32 5#64))
    reply o = failed .bufferUnderrun ∧ posAfter 2 o = some 3 := by decide
theorem test_rdSlice :
    let o := step (send (moved base 2 1) (rq 0x00000231#32 2#64))
    reply o = okVal 0x00000000000000020000000000002001#128 ∧ posAfter 2 o = some 3 := by decide
/-- A view of no bytes at the top of a 64-bit MEM, at address 2^64: DOUT's low half is address[63:0]
(30_encoding.md R80). -/
theorem test_rdSlice_top_of_mem :
    let o := step (send (base.setSlot 1 ⟨.reader, 0xFFFFFFFFFFFFFFF0, 16, 16⟩) (rq 0x00000131#32))
    reply o = okVal 0#128 ∧ posAfter 1 o = some 16 := by decide
/-- 95_test_vectors.md section 1.6: the position is just past the terminator. -/
theorem test_rdCstr :
    let o := step (send base (rq 0x00000232#32))
    reply o = some
        { status := .ok, dout := some 2#128, opay := some (.bytes [0x41#8, 0x42#8]),
          otext := some [0x41, 0x42] } ∧
      posAfter 2 o = some 3 := by decide
theorem test_rdCstr_none :
    let o := step (send (moved base 2 3) (rq 0x00000232#32))
    reply o = failed .malformedData ∧ posAfter 2 o = some 3 := by decide
/-- The zero byte is one of the n bytes: there is no scan. n = 0 gives the empty text under any
platform's decoder (43_cursor_read.md R199). -/
theorem test_rdStr :
    let o := step (send base (rq 0x00000233#32 3#64))
    reply o = some
        { status := .ok, dout := some 3#128,
          opay := some (.bytes [0x41#8, 0x42#8, 0#8]), otext := some [0x41, 0x42, 0] } ∧
      posAfter 2 o = some 3 ∧
      reply (step (send { base with cfg := { cfg0 with text := .platform 0 } } (rq 0x00000233#32))) =
        some { status := .ok, dout := some 0#128, opay := some (.bytes []), otext := some [] } := by
  decide
/-- C3 28 is no UTF-8. -/
theorem test_rdStr_malformed :
    let o := step (send (base.setSlot 0 ⟨.reader, 0x4000, 3, 0⟩) (rq 0x00000033#32 2#64))
    reply o = failed .malformedData ∧ posAfter 0 o = some 0 := by decide

/-! ## Writes (95_test_vectors.md sections 2.10 and 2.11) -/

theorem test_wrU8_le :
    let o := step (send base (rq 0x00001040#32 (din := 0xF0E0D0C0B0A090807060504030201000#128)))
    bytesAfter 0x1000 1 o =
      [0x00#8] ∧
      posAfter 0 o = some 1 := by decide
theorem test_wrU8_be :
    let o := step (send base (rq 0x00002040#32 (din := 0xF0E0D0C0B0A090807060504030201000#128)))
    bytesAfter 0x1000 1 o =
      [0x00#8] ∧
      posAfter 0 o = some 1 := by decide
theorem test_wrI8_le :
    let o := step (send base (rq 0x00001041#32 (din := 0xF0E0D0C0B0A090807060504030201000#128)))
    bytesAfter 0x1000 1 o =
      [0x00#8] ∧
      posAfter 0 o = some 1 := by decide
theorem test_wrI8_be :
    let o := step (send base (rq 0x00002041#32 (din := 0xF0E0D0C0B0A090807060504030201000#128)))
    bytesAfter 0x1000 1 o =
      [0x00#8] ∧
      posAfter 0 o = some 1 := by decide
theorem test_wrU16_le :
    let o := step (send base (rq 0x00001042#32 (din := 0xF0E0D0C0B0A090807060504030201000#128)))
    bytesAfter 0x1000 2 o =
      [0x00#8, 0x10#8] ∧
      posAfter 0 o = some 2 := by decide
theorem test_wrU16_be :
    let o := step (send base (rq 0x00002042#32 (din := 0xF0E0D0C0B0A090807060504030201000#128)))
    bytesAfter 0x1000 2 o =
      [0x10#8, 0x00#8] ∧
      posAfter 0 o = some 2 := by decide
theorem test_wrI16_le :
    let o := step (send base (rq 0x00001043#32 (din := 0xF0E0D0C0B0A090807060504030201000#128)))
    bytesAfter 0x1000 2 o =
      [0x00#8, 0x10#8] ∧
      posAfter 0 o = some 2 := by decide
theorem test_wrI16_be :
    let o := step (send base (rq 0x00002043#32 (din := 0xF0E0D0C0B0A090807060504030201000#128)))
    bytesAfter 0x1000 2 o =
      [0x10#8, 0x00#8] ∧
      posAfter 0 o = some 2 := by decide
theorem test_wrU32_le :
    let o := step (send base (rq 0x00001044#32 (din := 0xF0E0D0C0B0A090807060504030201000#128)))
    bytesAfter 0x1000 4 o =
      [0x00#8, 0x10#8, 0x20#8, 0x30#8] ∧
      posAfter 0 o = some 4 := by decide
theorem test_wrU32_be :
    let o := step (send base (rq 0x00002044#32 (din := 0xF0E0D0C0B0A090807060504030201000#128)))
    bytesAfter 0x1000 4 o =
      [0x30#8, 0x20#8, 0x10#8, 0x00#8] ∧
      posAfter 0 o = some 4 := by decide
theorem test_wrI32_le :
    let o := step (send base (rq 0x00001045#32 (din := 0xF0E0D0C0B0A090807060504030201000#128)))
    bytesAfter 0x1000 4 o =
      [0x00#8, 0x10#8, 0x20#8, 0x30#8] ∧
      posAfter 0 o = some 4 := by decide
theorem test_wrI32_be :
    let o := step (send base (rq 0x00002045#32 (din := 0xF0E0D0C0B0A090807060504030201000#128)))
    bytesAfter 0x1000 4 o =
      [0x30#8, 0x20#8, 0x10#8, 0x00#8] ∧
      posAfter 0 o = some 4 := by decide
theorem test_wrU64_le :
    let o := step (send base (rq 0x00001046#32 (din := 0xF0E0D0C0B0A090807060504030201000#128)))
    bytesAfter 0x1000 8 o =
      [0x00#8, 0x10#8, 0x20#8, 0x30#8, 0x40#8, 0x50#8, 0x60#8, 0x70#8] ∧
      posAfter 0 o = some 8 := by decide
theorem test_wrU64_be :
    let o := step (send base (rq 0x00002046#32 (din := 0xF0E0D0C0B0A090807060504030201000#128)))
    bytesAfter 0x1000 8 o =
      [0x70#8, 0x60#8, 0x50#8, 0x40#8, 0x30#8, 0x20#8, 0x10#8, 0x00#8] ∧
      posAfter 0 o = some 8 := by decide
theorem test_wrI64_le :
    let o := step (send base (rq 0x00001047#32 (din := 0xF0E0D0C0B0A090807060504030201000#128)))
    bytesAfter 0x1000 8 o =
      [0x00#8, 0x10#8, 0x20#8, 0x30#8, 0x40#8, 0x50#8, 0x60#8, 0x70#8] ∧
      posAfter 0 o = some 8 := by decide
theorem test_wrI64_be :
    let o := step (send base (rq 0x00002047#32 (din := 0xF0E0D0C0B0A090807060504030201000#128)))
    bytesAfter 0x1000 8 o =
      [0x70#8, 0x60#8, 0x50#8, 0x40#8, 0x30#8, 0x20#8, 0x10#8, 0x00#8] ∧
      posAfter 0 o = some 8 := by decide
theorem test_wrU128_le :
    let o := step (send base (rq 0x00001048#32 (din := 0xF0E0D0C0B0A090807060504030201000#128)))
    bytesAfter 0x1000 16 o =
      [0x00#8, 0x10#8, 0x20#8, 0x30#8, 0x40#8, 0x50#8, 0x60#8, 0x70#8, 0x80#8, 0x90#8, 0xA0#8, 0xB0#8, 0xC0#8, 0xD0#8, 0xE0#8, 0xF0#8] ∧
      posAfter 0 o = some 16 := by decide
theorem test_wrU128_be :
    let o := step (send base (rq 0x00002048#32 (din := 0xF0E0D0C0B0A090807060504030201000#128)))
    bytesAfter 0x1000 16 o =
      [0xF0#8, 0xE0#8, 0xD0#8, 0xC0#8, 0xB0#8, 0xA0#8, 0x90#8, 0x80#8, 0x70#8, 0x60#8, 0x50#8, 0x40#8, 0x30#8, 0x20#8, 0x10#8, 0x00#8] ∧
      posAfter 0 o = some 16 := by decide
theorem test_wrI128_le :
    let o := step (send base (rq 0x00001049#32 (din := 0xF0E0D0C0B0A090807060504030201000#128)))
    bytesAfter 0x1000 16 o =
      [0x00#8, 0x10#8, 0x20#8, 0x30#8, 0x40#8, 0x50#8, 0x60#8, 0x70#8, 0x80#8, 0x90#8, 0xA0#8, 0xB0#8, 0xC0#8, 0xD0#8, 0xE0#8, 0xF0#8] ∧
      posAfter 0 o = some 16 := by decide
theorem test_wrI128_be :
    let o := step (send base (rq 0x00002049#32 (din := 0xF0E0D0C0B0A090807060504030201000#128)))
    bytesAfter 0x1000 16 o =
      [0xF0#8, 0xE0#8, 0xD0#8, 0xC0#8, 0xB0#8, 0xA0#8, 0x90#8, 0x80#8, 0x70#8, 0x60#8, 0x50#8, 0x40#8, 0x30#8, 0x20#8, 0x10#8, 0x00#8] ∧
      posAfter 0 o = some 16 := by decide
theorem test_wrF32_le :
    let o := step (send base (rq 0x0000104A#32 (din := 0xF0E0D0C0B0A090807060504030201000#128)))
    bytesAfter 0x1000 4 o =
      [0x00#8, 0x10#8, 0x20#8, 0x30#8] ∧
      posAfter 0 o = some 4 := by decide
theorem test_wrF32_be :
    let o := step (send base (rq 0x0000204A#32 (din := 0xF0E0D0C0B0A090807060504030201000#128)))
    bytesAfter 0x1000 4 o =
      [0x30#8, 0x20#8, 0x10#8, 0x00#8] ∧
      posAfter 0 o = some 4 := by decide
theorem test_wrF64_le :
    let o := step (send base (rq 0x0000104B#32 (din := 0xF0E0D0C0B0A090807060504030201000#128)))
    bytesAfter 0x1000 8 o =
      [0x00#8, 0x10#8, 0x20#8, 0x30#8, 0x40#8, 0x50#8, 0x60#8, 0x70#8] ∧
      posAfter 0 o = some 8 := by decide
theorem test_wrF64_be :
    let o := step (send base (rq 0x0000204B#32 (din := 0xF0E0D0C0B0A090807060504030201000#128)))
    bytesAfter 0x1000 8 o =
      [0x70#8, 0x60#8, 0x50#8, 0x40#8, 0x30#8, 0x20#8, 0x10#8, 0x00#8] ∧
      posAfter 0 o = some 8 := by decide
/-- Nothing is written where the value does not fit. -/
theorem test_wr_overrun :
    let o := step (send (moved base 0 15) (rq 0x00001042#32 (din := 0xFFFF#128)))
    reply o = failed .bufferOverrun ∧ bytesAfter 0x100F 2 o = [0x0F#8, 0#8] ∧
      posAfter 0 o = some 15 := by decide
theorem test_wrBytes :
    let o := step (send (base.setSlot 3 ⟨.writer, 0x3000, 2, 0⟩)
      (rq 0x00000350#32 (ipay := .bytes [1#8, 2#8])))
    reply o = okVal 2#128 ∧ bytesAfter 0x3000 3 o = [1#8, 2#8, 0#8] ∧ posAfter 3 o = some 2 := by decide
theorem test_wrBytes_overrun :
    let o := step (send (base.setSlot 3 ⟨.writer, 0x3000, 2, 0⟩)
      (rq 0x00000350#32 (ipay := .bytes [1#8, 2#8, 3#8])))
    reply o = failed .bufferOverrun ∧ bytesAfter 0x3000 2 o = [0#8, 0#8] := by decide
/-! ## The host's actions -/

theorem test_host_store :
    bytesAfter 0x3000 2 (step { base with host := [.store 0x3000 [7#8, 8#8]] }) = [7#8, 8#8] := by
  decide
theorem test_host_store_outside :
    step { base with host := [.store 0xFFFFFFFFFFFFFFFF [7#8, 8#8]] } = .fault .outsideMem := rfl
theorem test_host_reads_absent :
    step { base with resp := some { status := .ok }, host := [.readField .dout] } =
      .fault (.absentField .dout) := rfl
theorem test_host_reset :
    slotAfter 1 (step { base with host := [.reset] }) = none := by decide
/-- An illegal word changes nothing but the response and the history. -/
theorem test_illegal :
    step (send base (rq 0x00003124#32)) =
      .next { base with
        resp := some { status := .illegalCommand }, history := [{ status := .illegalCommand }] } := rfl

/-! ## Witnesses: states and operands that meet the statements' hypotheses

Each is named after the statement of Certificates/Slice0/Obligations.lean it serves; where a
statement has several clauses, one part for each, at a boundary value. -/

theorem base_inv : Inv base := by constructor <;> decide
theorem narrow_inv : Inv { narrow with slots := [] } := by constructor <;> decide
theorem send_inv {s : State} (r : Request) (h : Inv s) : Inv (send s r) :=
  ⟨h.params, h.slots, h.mem, h.inside, h.codec⟩

/-- Slot 0 of the small state is a good writer, slot 1 and slot 2 good readers. -/
theorem good0 : GoodSlot base 0 .writer ⟨.writer, 0x1000, 16, 0⟩ :=
  ⟨by decide, by decide, .inr (.inr ⟨rfl, rfl⟩)⟩
theorem good1 : GoodSlot base 1 .reader ⟨.reader, 0x1000, 16, 0⟩ :=
  ⟨by decide, by decide, .inr (.inl ⟨rfl, rfl⟩)⟩
theorem good2 : GoodSlot base 2 .reader ⟨.reader, 0x2000, 7, 0⟩ :=
  ⟨by decide, by decide, .inr (.inl ⟨rfl, rfl⟩)⟩
theorem good1_any : GoodSlot base 1 .any ⟨.reader, 0x1000, 16, 0⟩ :=
  ⟨by decide, by decide, .inl rfl⟩
theorem in1 : InMem base ⟨.reader, 0x1000, 16, 0⟩ := by unfold InMem; decide
/-- The three ways a slot is bad: the index, unbound, the mode. -/
theorem bad_index : BadSlot base 4 .any := .inl (by decide)
theorem bad_unbound : BadSlot base 3 .any := .inr (.inl (by decide))
theorem bad_mode_reader : BadSlot base 0 .reader :=
  .inr (.inr ⟨⟨.writer, 0x1000, 16, 0⟩, by decide, by simp [modeFits]⟩)
theorem bad_mode_writer : BadSlot base 1 .writer :=
  .inr (.inr ⟨⟨.reader, 0x1000, 16, 0⟩, by decide, by simp [modeFits]⟩)

theorem witness_ResetUnbindsEverySlotAndKeepsMem :
    (∃ (s : State) (rest : List HostAction), s.req = none ∧ s.host = .reset :: rest ∧
      s.slot 1 ≠ none) ∧
    (∃ (s t : State) (r : Request), s.req = some r ∧ step s = .next t) :=
  ⟨⟨{ base with host := [.reset, .reset] }, [.reset], rfl, rfl, by decide⟩,
    ⟨send base (rq 0x00000112#32), _, _, rfl, rfl⟩⟩

theorem witness_EveryStepKeepsInvariant :
    ∃ s t : State, Inv s ∧ step s = .next t ∧ t.mem ≠ s.mem :=
  ⟨send base (rq 0x00000040#32 (din := 0xAB#128)), _, send_inv _ base_inv, rfl, by decide⟩

/-- A legal request and an illegal word. -/
theorem witness_EveryFormedRequestCompletes :
    (∃ (s : State) (r : Request), Inv s ∧ s.req = some r ∧ decode r.cmd = some .b32Encode ∧
      ∀ i, decode r.cmd = some i → r.formed s.cfg i = true) ∧
    (∃ (s : State) (r : Request), Inv s ∧ s.req = some r ∧ decode r.cmd = none ∧
      ∀ i, decode r.cmd = some i → r.formed s.cfg i = true) := by
  refine ⟨⟨send base (rq 0x3#32), _, send_inv _ base_inv, rfl, by decide, ?_⟩,
    ⟨send base (rq 0x3124#32), _, send_inv _ base_inv, rfl, by decide, ?_⟩⟩
  · intro i h
    have : decode 0x3#32 = some .b32Encode := by decide
    rw [show (rq 0x3#32).cmd = 0x3#32 from rfl, this] at h
    cases h
    decide
  · intro i h
    have : decode 0x3124#32 = none := by decide
    rw [show (rq 0x3124#32).cmd = 0x3124#32 from rfl, this] at h
    cases h

theorem witness_StepRunsTheDecodedCommand :
    ∃ (s : State) (r : Request) (i : Instr), s.req = some r ∧ decode r.cmd = some i :=
  ⟨send base (rq 0x2124#32), _, .rdU32 1 .big, rfl, by decide⟩

/-- A command that runs with a reset coming; no action; a request; a store one byte past the top of
MEM, and one that ends at the top. -/
theorem witness_HostActsOnlyBetweenCommands :
    (∃ (s t : State) (r : Request), s.req = some r ∧ step s = .next t ∧ s.host = [.reset]) ∧
    (∃ s : State, s.req = none ∧ s.host = []) ∧
    (∃ (s : State) (r : Request) (rest : List HostAction), s.req = none ∧
      s.host = .issue r :: rest) ∧
    (∃ (s : State) (a : Nat) (bs : List Byte) (rest : List HostAction), s.req = none ∧
      s.host = .store a bs :: rest ∧ a + bs.length = 2 ^ s.cfg.addrW + 1) ∧
    (∃ (s : State) (a : Nat) (bs : List Byte) (rest : List HostAction), s.req = none ∧
      s.host = .store a bs :: rest ∧ a + bs.length = 2 ^ s.cfg.addrW) :=
  ⟨⟨send { base with host := [.reset] } (rq 0x120#32), _, _, rfl, rfl, rfl⟩, ⟨base, rfl, rfl⟩,
    ⟨{ base with host := [.issue (rq 0x1#32)] }, _, _, rfl, rfl⟩,
    ⟨{ narrow with host := [.store 0xFFFF [1#8, 2#8]] }, _, _, _, rfl, rfl, by decide⟩,
    ⟨{ narrow with host := [.store 0xFFFF [1#8]] }, _, _, _, rfl, rfl, by decide⟩⟩

theorem witness_DecodeUndoesEncode : Instr.wf (.wrF64 15 .big) = true := by decide
theorem witness_EncodeUndoesDecode : decode 0x00002F4B#32 = some (.wrF64 15 .big) := by decide
theorem witness_OneRowDecidesEachWord :
    ∃ (w : CmdWord) (row row' : Row), row ∈ opcodeRows ∧ row' ∈ opcodeRows ∧
      w &&& row.group.mask = row.pattern ∧ w &&& row'.group.mask = row'.pattern :=
  ⟨0x00002F20#32, ⟨0x20#32, .numeric, .rdU8⟩, ⟨0x20#32, .numeric, .rdU8⟩,
    by simp [opcodeRows, numericReadRows], by simp [opcodeRows, numericReadRows], by decide,
    by decide⟩

/-- One word for each of the reserved encodings. -/
theorem witness_ReservedWordsAreIllegalAndChangeNothing :
    ∀ w ∈ [0x00000051#32, 0x0000002C#32, 0x00003124#32, 0x00000101#32, 0x00001030#32, 0x00004033#32,
      0x00010001#32], ∃ (s : State) (r : Request), s.req = some r ∧ r.cmd = w ∧
        ReservedWord r.cmd := by
  intro w hw
  refine ⟨send base (rq w), _, rfl, rfl, ?_⟩
  fin_cases hw <;> (unfold ReservedWord; decide)

/-- The ends of the two alphabet ranges, and their neighbours. -/
theorem witness_AlphabetAndValuesAreInverse :
    [0x40, 0x41, 0x5A, 0x5B, 0x31, 0x32, 0x37, 0x38, 0x3D].map charToValue =
      [none, some 0, some 25, none, none, some 26, some 31, none, none] ∧
    [0, 25, 26, 31].map alphabet = [0x41, 0x5A, 0x32, 0x37] := by decide

/-- A negative count and the counts 0 and 2^63 - 1. -/
theorem witness_EnclenGivesTheEncodedSize :
    ∀ a ∈ [M, 0#64, 0x7FFFFFFFFFFFFFFF#64], ∃ (s : State) (r : Request), s.req = some r ∧
      r.a0 = a ∧ (r.a0.toInt < 0 ∨ 0 ≤ r.a0.toInt) :=
  fun a _ => ⟨send base (rq 0x1#32 a), _, rfl, rfl, by omega⟩
theorem witness_DeclenGivesTheDecodedSize :
    M.toInt < 0 ∧ 0 ≤ (0#64).toInt ∧ ∃ (s : State) (r : Request), s.req = some r ∧ r.a0 = M :=
  ⟨by decide, by decide, send base (rq 0x2#32 M), _, rfl, rfl⟩

/-- Capacities 7 and 8 for one byte, a negative one, and no byte at all. -/
theorem witness_EncodeRunsTheEncoder :
    (∃ (s : State) (r : Request) (bs : List Byte), s.req = some r ∧ r.ipay = .bytes bs ∧
      bs.length ≤ lenMax ∧ r.a0.toInt < (encodedLength bs.length : Int)) ∧
    (∃ (s : State) (r : Request) (bs : List Byte), s.req = some r ∧ r.ipay = .bytes bs ∧
      bs.length ≤ lenMax ∧ (encodedLength bs.length : Int) ≤ r.a0.toInt ∧ bs ≠ []) ∧
    (∃ (s : State) (r : Request) (bs : List Byte), s.req = some r ∧ r.ipay = .bytes bs ∧
      bs.length ≤ lenMax ∧ (encodedLength bs.length : Int) ≤ r.a0.toInt ∧ bs = []) :=
  ⟨⟨send base (rq 0x3#32 7#64 (ipay := .bytes [0x66#8])), _, [0x66#8], rfl, rfl, by decide, by decide⟩,
    ⟨send base (rq 0x3#32 8#64 (ipay := .bytes [0x66#8])), _, [0x66#8], rfl, rfl, by decide, by decide,
      by decide⟩,
    ⟨send base (rq 0x3#32 0#64), _, [], rfl, rfl, by decide, by decide, rfl⟩⟩

/-- The reference reading on 95_test_vectors.md S7. -/
theorem witness_EncoderSpellsTheBytesInBase32 :
    foobar ≠ [] ∧ (encRun accW foobar).out = foobarText ∧ refEncode foobar = foobarText := by decide

/-- The counts of 41_base32.md R122 for one byte. -/
theorem witness_EncoderStepAndSymbolCounts :
    ([0x66#8] : List Byte) ≠ [] ∧ symbolCount 1 = 2 ∧ encodedLength 1 - symbolCount 1 = 6 := by decide

theorem witness_EncodeOutputShape :
    ∃ (s t : State) (r : Request) (bs : List Byte) (out : List CodeUnit) (rsp : Response),
      s.req = some r ∧ r.ipay = .bytes bs ∧ exec .b32Encode s = .next t ∧ t.resp = some rsp ∧
      rsp.opay = some (.chars out) :=
  ⟨send base (rq 0x3#32 8#64 (ipay := .bytes [0x66#8])), _, _, _, _, _, rfl, rfl, rfl, rfl, rfl⟩

/-- "MY" with capacity 0 and 1, and "M=Y". -/
theorem witness_DecodeRunsTheDecoder :
    (∃ (s : State) (r : Request) (cs : List CodeUnit), s.req = some r ∧ r.ipay = .chars cs ∧
      (Payload.chars cs).fits s.cfg = true ∧ r.a0.toInt < (decodedLength cs.length : Int)) ∧
    (∃ (s : State) (r : Request) (cs : List CodeUnit), s.req = some r ∧ r.ipay = .chars cs ∧
      (Payload.chars cs).fits s.cfg = true ∧ (decodedLength cs.length : Int) ≤ r.a0.toInt ∧
      ∀ c ∈ cs, charToValue c ≠ none) ∧
    (∃ (s : State) (r : Request) (cs : List CodeUnit) (e : BadChar), s.req = some r ∧
      r.ipay = .chars cs ∧ (Payload.chars cs).fits s.cfg = true ∧
      (decodedLength cs.length : Int) ≤ r.a0.toInt ∧ decRun accW cs = .error e) :=
  ⟨⟨send base (rq 0x4#32 0#64 (ipay := .chars [0x4D, 0x59])), _, [0x4D, 0x59], rfl, rfl, by decide,
      by decide⟩,
    ⟨send base (rq 0x4#32 1#64 (ipay := .chars [0x4D, 0x59])), _, [0x4D, 0x59], rfl, rfl, by decide,
      by decide, by decide⟩,
    ⟨send base (rq 0x4#32 1#64 (ipay := .chars [0x4D, 0x3D, 0x59])), _, [0x4D, 0x3D, 0x59],
      ⟨0x3D, 1⟩, rfl, rfl, by decide, by decide, rfl⟩⟩

/-- "M=Y": the pad character at index 1, in the core and, unstripped, in the wrapper. -/
theorem witness_FirstBadCharacterIsReported :
    (∃ (s : State) (r : Request) (cs : List CodeUnit) (j m : Nat) (c : CodeUnit),
      s.req = some r ∧ r.ipay = .chars cs ∧ (Payload.chars cs).fits s.cfg = true ∧
      cs[j]? = some c ∧ charToValue c = none ∧ (∀ i, i < j → charToValue (cs.getD i 0) ≠ none) ∧
      (decodedLength cs.length : Int) ≤ r.a0.toInt ∧ IsStripped cs m ∧ j < m ∧
      (decodedLength m : Int) ≤ r.a0.toInt) ∧
    (∃ (s t : State) (rsp : Response), exec .b32Encode s = .next t ∧ t.resp = some rsp) := by
  refine ⟨⟨send base (rq 0x4#32 1#64 (ipay := .chars [0x4D, 0x3D, 0x59])), _, [0x4D, 0x3D, 0x59], 1,
    3, 0x3D, rfl, rfl, by decide, rfl, by decide, by decide, by decide, ?_, by decide, by decide⟩,
    ⟨send base (rq 0x3#32), _, _, rfl, rfl⟩⟩
  refine ⟨by decide, fun i h1 h2 => ?_, .inr (by decide)⟩
  simp only [List.length_cons, List.length_nil] at h2
  omega

theorem witness_DecoderReadsTheNumberInBase32 :
    [0x4D, 0x59].map charToValue = [12, 24].map some ∧ refDecode [12, 24] = [0x66#8] := by decide
theorem witness_DecoderStepAndLeftoverCounts :
    ∀ c ∈ ([0x41, 0x41, 0x41] : List CodeUnit), charToValue c ≠ none := by decide

theorem witness_StripCountsWhatIsLeft :
    ∃ (s : State) (r : Request) (cs : List CodeUnit), s.req = some r ∧ r.ipay = .chars cs ∧
      (Payload.chars cs).fits s.cfg = true :=
  ⟨send base (rq 0x5#32 (ipay := .chars [0x3D, 0x3D])), _, [0x3D, 0x3D], rfl, rfl, by decide⟩

/-- "MY=": capacity 0 and 1; "=": nothing is left; "my": a bad character. -/
theorem witness_DecodepStripsThenDecodes :
    (∃ (s : State) (r : Request) (cs : List CodeUnit) (m : Nat), s.req = some r ∧
      r.ipay = .chars cs ∧ (Payload.chars cs).fits s.cfg = true ∧ IsStripped cs m ∧
      r.a0.toInt < (decodedLength m : Int)) ∧
    (∃ (s : State) (r : Request) (cs : List CodeUnit) (m : Nat), s.req = some r ∧
      r.ipay = .chars cs ∧ (Payload.chars cs).fits s.cfg = true ∧ IsStripped cs m ∧
      (decodedLength m : Int) ≤ r.a0.toInt ∧ m = 0) ∧
    (∃ (s : State) (r : Request) (cs : List CodeUnit) (m : Nat), s.req = some r ∧
      r.ipay = .chars cs ∧ (Payload.chars cs).fits s.cfg = true ∧ IsStripped cs m ∧
      (decodedLength m : Int) ≤ r.a0.toInt ∧ m ≠ 0 ∧ ∀ c ∈ cs.take m, charToValue c ≠ none) ∧
    (∃ (s : State) (r : Request) (cs : List CodeUnit) (m : Nat) (e : BadChar), s.req = some r ∧
      r.ipay = .chars cs ∧ (Payload.chars cs).fits s.cfg = true ∧ IsStripped cs m ∧
      (decodedLength m : Int) ≤ r.a0.toInt ∧ m ≠ 0 ∧ decRun accW (cs.take m) = .error e) := by
  have hs : IsStripped [0x4D, 0x59, 0x3D] 2 := by
    refine ⟨by decide, fun i h1 h2 => ?_, .inr (by decide)⟩
    simp only [List.length_cons, List.length_nil] at h2
    obtain rfl : i = 2 := by omega
    rfl
  have h0 : IsStripped [0x3D] 0 := by
    refine ⟨by decide, fun i h1 h2 => ?_, .inl rfl⟩
    simp only [List.length_cons, List.length_nil] at h2
    obtain rfl : i = 0 := by omega
    rfl
  have h2 : IsStripped [0x6D, 0x79] 2 := by
    refine ⟨by decide, fun i h1 h2 => ?_, .inr (by decide)⟩
    simp only [List.length_cons, List.length_nil] at h2
    omega
  exact ⟨⟨send base (rq 0x6#32 0#64 (ipay := .chars [0x4D, 0x59, 0x3D])), _, _, 2, rfl, rfl,
      by decide, hs, by decide⟩,
    ⟨send base (rq 0x6#32 0#64 (ipay := .chars [0x3D])), _, _, 0, rfl, rfl, by decide, h0, by decide,
      rfl⟩,
    ⟨send base (rq 0x6#32 1#64 (ipay := .chars [0x4D, 0x59, 0x3D])), _, _, 2, rfl, rfl, by decide, hs,
      by decide, by decide, by decide⟩,
    ⟨send base (rq 0x6#32 1#64 (ipay := .chars [0x6D, 0x79])), _, _, 2, ⟨0x6D, 0⟩, rfl, rfl,
      by decide, h2, by decide, by decide, rfl⟩⟩

/-- One byte: text of 8 characters, capacity 1. -/
theorem witness_DecodeOfEncodeGivesTheBytesBack :
    ∃ (s s' : State) (r r' : Request) (bs : List Byte), s.req = some r ∧ r.ipay = .bytes bs ∧
      r.a0.toInt = (encodedLength bs.length : Int) ∧ s'.cfg.wf = true ∧ s'.req = some r' ∧
      r'.ipay = .chars (encRun accW bs).out ∧ r'.a0.toInt = (bs.length : Int) :=
  ⟨send base (rq 0x3#32 8#64 (ipay := .bytes [0x66#8])),
    send base (rq 0x6#32 1#64 (ipay := .chars (encRun accW [0x66#8]).out)), _, _, [0x66#8], rfl, rfl,
    by decide, by decide, rfl, rfl, by decide⟩

theorem witness_DecodedLengthOfTheByteCountIsTooSmallACapacity :
    ∃ (s : State) (r : Request) (bs : List Byte), bs ≠ [] ∧ s.req = some r ∧
      r.ipay = .chars (encRun accW bs).out ∧
      (Payload.chars (encRun accW bs).out).fits s.cfg = true ∧
      r.a0.toInt = (decodedLength bs.length : Int) :=
  ⟨send base (rq 0x6#32 0#64 (ipay := .chars (encRun accW [0x66#8]).out)), _, [0x66#8], by decide, rfl,
    rfl, by decide, by decide⟩

theorem witness_AnyAccumulatorWidthFromTwelveAgrees :
    12 ≤ 12 ∧ (∃ d : DecRegs accW, decRun accW [0x4D, 0x59] = .ok d) ∧
      (∃ e, decRun accW [0x3D] = .error e) :=
  ⟨by decide, ⟨_, rfl⟩, ⟨_, rfl⟩⟩

theorem witness_CodecResultIsAFunctionOfTheRequest :
    ∃ (i : Instr) (s s' t t' : State), isCodec i = true ∧ s ≠ s' ∧ s.req = s'.req ∧
      exec i s = .next t ∧ exec i s' = .next t' :=
  ⟨.b32Enclen, send base (rq 0x1#32), send bigHost (rq 0x1#32), _, _, rfl, by decide, rfl, rfl, rfl⟩
theorem witness_CodecTouchesNoSlotAndNoMem :
    ∃ (i : Instr) (s t : State), isCodec i = true ∧ exec i s = .next t :=
  ⟨.b32Decode, send base (rq 0x4#32 (ipay := .chars [])), _, rfl, rfl⟩

/-- The region ends at the top of MEM, or one byte past it; a slot past NSLOT. -/
theorem witness_OpenConstructsTheCursor :
    (∃ (s : State) (r : Request) (k : Nat), s.req = some r ∧ s.cfg.nslot ≤ k) ∧
    (∃ (s : State) (r : Request) (k : Nat), s.req = some r ∧ k < s.cfg.nslot ∧ r.a1.toInt < 0) ∧
    (∃ (s : State) (r : Request) (k : Nat), s.req = some r ∧ k < s.cfg.nslot ∧
      r.a0.toNat = 2 ^ s.cfg.addrW ∧ r.a1.toInt = 0) ∧
    (∃ (s : State) (r : Request) (k : Nat), s.req = some r ∧ k < s.cfg.nslot ∧
      (2 ^ s.cfg.addrW : Int) + 1 = r.a0.toNat + r.a1.toInt) ∧
    (∃ (s : State) (r : Request) (k len : Nat), s.req = some r ∧ k < s.cfg.nslot ∧
      r.a1.toInt = len ∧ r.a0.toNat < 2 ^ s.cfg.addrW ∧ r.a0.toNat + len = 2 ^ s.cfg.addrW) :=
  ⟨⟨send base (rq 0x510#32), _, 5, rfl, by decide⟩,
    ⟨send base (rq 0x110#32 0#64 M), _, 1, rfl, by decide, by decide⟩,
    ⟨send narrow (rq 0x10#32 0x10000#64), _, 0, rfl, by decide, by decide, by decide⟩,
    ⟨send narrow (rq 0x10#32 0xFFFF#64 2#64), _, 0, rfl, by decide, by decide⟩,
    ⟨send narrow (rq 0x10#32 0xFFFF#64 1#64), _, 0, 1, rfl, by decide, by decide, by decide,
      by decide⟩⟩

theorem witness_GetposAndRemReportTheCursor :
    (∃ (s : State) (r : Request), s.req = some r ∧ BadSlot s 3 .any) ∧
    (∃ (s : State) (r : Request) (c : Cursor), s.req = some r ∧ GoodSlot s 1 .any c ∧
      c.pos ≤ c.length ∧ c.length ≤ lenMax) :=
  ⟨⟨send base (rq 0x312#32), _, rfl, bad_unbound⟩,
    ⟨send base (rq 0x112#32), _, _, rfl, good1_any, by decide, by decide⟩⟩

/-- p = length, p = length + 1 and p = -1. -/
theorem witness_SetposMovesWithinTheRegion :
    (∃ (s : State) (r : Request), s.req = some r ∧ BadSlot s 4 .any) ∧
    (∃ (s : State) (r : Request) (c : Cursor), s.req = some r ∧ GoodSlot s 1 .any c ∧
      (c.length : Int) + 1 = r.a0.toInt) ∧
    (∃ (s : State) (r : Request) (c : Cursor), s.req = some r ∧ GoodSlot s 1 .any c ∧
      r.a0.toInt < 0) ∧
    (∃ (s : State) (r : Request) (c : Cursor) (p : Nat), s.req = some r ∧ GoodSlot s 1 .any c ∧
      r.a0.toInt = p ∧ p = c.length) :=
  ⟨⟨send base (rq 0x413#32), _, rfl, bad_index⟩,
    ⟨send base (rq 0x113#32 17#64), _, _, rfl, good1_any, by decide⟩,
    ⟨send base (rq 0x113#32 M), _, _, rfl, good1_any, by decide⟩,
    ⟨send base (rq 0x113#32 16#64), _, _, 16, rfl, good1_any, by decide, by decide⟩⟩

theorem witness_CloseUnbindsTheSlot :
    (∃ (s : State) (r : Request), s.req = some r ∧ BadSlot s 3 .any) ∧
    (∃ (s : State) (r : Request) (c : Cursor), s.req = some r ∧ GoodSlot s 1 .any c) :=
  ⟨⟨send base (rq 0x315#32), _, rfl, bad_unbound⟩,
    ⟨send base (rq 0x115#32), _, _, rfl, good1_any⟩⟩

theorem witness_SlotCheckGuardsEveryCursorCommand :
    (∃ (s : State) (r : Request) (i : Instr) (k : Nat) (n : Need), s.req = some r ∧
      i.slot? = some k ∧ needOf i = some n ∧ r.formed s.cfg i = true ∧ BadSlot s k n) ∧
    (∃ (s t : State) (r : Request) (i : Instr) (k : Nat) (n : Need) (c : Cursor) (rsp : Response),
      s.req = some r ∧ i.slot? = some k ∧ needOf i = some n ∧ r.formed s.cfg i = true ∧
      GoodSlot s k n c ∧ exec i s = .next t ∧ t.resp = some rsp) :=
  ⟨⟨send base (rq 0x150#32), _, .wrBytes 1, 1, .writer, rfl, rfl, rfl, by decide, bad_mode_writer⟩,
    ⟨send base (rq 0x120#32), _, _, .rdU8 1 .native, 1, .reader, _, _, rfl, rfl, rfl, by decide, good1,
      rfl, rfl⟩⟩

/-- A numeric read at the last position that fits, one past it, and on a bad slot. -/
theorem witness_NumericReadsGiveTheBytesValue :
    ∀ ty : NumType,
      (∃ (s : State) (r : Request), s.req = some r ∧ BadSlot s 0 .reader) ∧
      (∃ (s : State) (r : Request) (c : Cursor), s.req = some r ∧ GoodSlot s 1 .reader c ∧
        InMem s c ∧ c.length - c.pos + 1 = typeWidth ty) ∧
      (∃ (s : State) (r : Request) (c : Cursor), s.req = some r ∧ GoodSlot s 1 .reader c ∧
        InMem s c ∧ typeWidth ty = c.length - c.pos) := by
  intro ty
  have h : 1 ≤ typeWidth ty ∧ typeWidth ty ≤ 16 := by cases ty <;> decide
  have good : ∀ p, GoodSlot (send (base.setSlot 1 ⟨.reader, 0x1000, 16, p⟩) (rq 0x120#32)) 1 .reader
      ⟨.reader, 0x1000, 16, p⟩ := fun p => ⟨by show 1 < 4; decide, rfl, .inr (.inl ⟨rfl, rfl⟩)⟩
  have ok : ∀ p, InMem (send (base.setSlot 1 ⟨.reader, 0x1000, 16, p⟩) (rq 0x120#32))
      ⟨.reader, 0x1000, 16, p⟩ := fun p => by show 0x1000 + 16 ≤ 2 ^ 64; decide
  exact ⟨⟨send base (rq 0x20#32), _, rfl, bad_mode_reader⟩,
    ⟨_, _, _, rfl, good (17 - typeWidth ty), ok _, by show 16 - (17 - typeWidth ty) + 1 = _; omega⟩,
    ⟨_, _, _, rfl, good (16 - typeWidth ty), ok _, by show _ = 16 - (16 - typeWidth ty); omega⟩⟩

theorem witness_ExplicitOrdersDoNotDependOnTheHost :
    ∀ ty : NumType, ∃ (s s' : State) (o : Order) (e : Endian) (t t' u u' : State), o ≠ .native ∧
      exec (readInstr ty 1 o) s = .next t ∧
      exec (readInstr ty 1 o) { s with cfg := { s.cfg with hostOrder := e } } = .next t' ∧
      exec (writeInstr ty 0 o) s' = .next u ∧
      exec (writeInstr ty 0 o) { s' with cfg := { s'.cfg with hostOrder := e } } = .next u' ∧
      s.cfg.hostOrder = .little ∧ bigHost.cfg.hostOrder = .big := by
  intro ty
  cases ty <;>
    exact ⟨send base (rq 0x120#32), send base (rq 0x40#32), .big, .big, _, _, _, _, by decide, rfl, rfl,
      rfl, rfl, rfl, rfl⟩

/-- n = 7 (all that remains), n = 8 and n = -1. -/
theorem witness_RdBytesCopiesTheBytes :
    (∃ (s : State) (r : Request), s.req = some r ∧ BadSlot s 0 .reader) ∧
    (∃ (s : State) (r : Request) (c : Cursor), s.req = some r ∧ GoodSlot s 2 .reader c ∧
      InMem s c ∧ r.a0.toInt < 0) ∧
    (∃ (s : State) (r : Request) (c : Cursor), s.req = some r ∧ GoodSlot s 2 .reader c ∧
      InMem s c ∧ ((c.length - c.pos : Nat) : Int) + 1 = r.a0.toInt) ∧
    (∃ (s : State) (r : Request) (c : Cursor) (n : Nat), s.req = some r ∧ GoodSlot s 2 .reader c ∧
      InMem s c ∧ r.a0.toInt = n ∧ n = c.length - c.pos) :=
  ⟨⟨send base (rq 0x30#32), _, rfl, bad_mode_reader⟩,
    ⟨send base (rq 0x230#32 M), _, _, rfl, good2, by unfold InMem; decide, by decide⟩,
    ⟨send base (rq 0x230#32 8#64), _, _, rfl, good2, by unfold InMem; decide, by decide⟩,
    ⟨send base (rq 0x230#32 7#64), _, _, 7, rfl, good2, by unfold InMem; decide, by decide,
      by decide⟩⟩

theorem witness_RdSliceGivesTheView :
    (∃ (s : State) (r : Request), s.req = some r ∧ BadSlot s 0 .reader) ∧
    (∃ (s : State) (r : Request) (c : Cursor), s.req = some r ∧ GoodSlot s 2 .reader c ∧
      r.a0.toInt < 0) ∧
    (∃ (s : State) (r : Request) (c : Cursor), s.req = some r ∧ GoodSlot s 2 .reader c ∧
      ((c.length - c.pos : Nat) : Int) + 1 = r.a0.toInt) ∧
    (∃ (s : State) (r : Request) (c : Cursor) (n : Nat), s.req = some r ∧ GoodSlot s 2 .reader c ∧
      r.a0.toInt = n ∧ n = c.length - c.pos) ∧
    (∃ (s : State) (r : Request) (c : Cursor) (n : Nat), s.req = some r ∧ GoodSlot s 1 .reader c ∧
      r.a0.toInt = n ∧ n ≤ c.length - c.pos ∧ c.origin + c.pos = 2 ^ 64) :=
  ⟨⟨send base (rq 0x31#32), _, rfl, bad_mode_reader⟩,
    ⟨send base (rq 0x231#32 M), _, _, rfl, good2, by decide⟩,
    ⟨send base (rq 0x231#32 8#64), _, _, rfl, good2, by decide⟩,
    ⟨send base (rq 0x231#32 7#64), _, _, 7, rfl, good2, by decide, by decide⟩,
    ⟨send (base.setSlot 1 ⟨.reader, 0xFFFFFFFFFFFFFFF0, 16, 16⟩) (rq 0x131#32), _,
      ⟨.reader, 0xFFFFFFFFFFFFFFF0, 16, 16⟩, 0, rfl, ⟨by decide, by decide, .inr (.inl ⟨rfl, rfl⟩)⟩,
      by decide, by decide, by decide⟩⟩

/-- A region with no zero byte, a terminator, bytes that are text and bytes that are none, and a
terminator at the position. -/
theorem witness_RdCstrReadsToTheTerminator :
    (∃ (s : State) (r : Request), s.req = some r ∧ BadSlot s 0 .reader) ∧
    (∃ (s : State) (r : Request) (c : Cursor), s.req = some r ∧ GoodSlot s 1 .reader c ∧
      InMem s c ∧ c.length ≤ lenMax ∧
      ∀ j, j < c.length - c.pos → s.readByte (c.origin + c.pos + j) ≠ 0#8) ∧
    (∃ (s : State) (r : Request) (c : Cursor) (n : Nat) (txt : Text), s.req = some r ∧
      GoodSlot s 2 .reader c ∧ InMem s c ∧ c.length ≤ lenMax ∧ n < c.length - c.pos ∧
      s.readByte (c.origin + c.pos + n) = 0#8 ∧
      (∀ j, j < n → s.readByte (c.origin + c.pos + j) ≠ 0#8) ∧
      textDecode s.cfg .utf8 (s.readBytes (c.origin + c.pos) n) = some txt) ∧
    (∃ (s : State) (r : Request) (c : Cursor) (n : Nat), s.req = some r ∧
      GoodSlot s 0 .reader c ∧ InMem s c ∧ c.length ≤ lenMax ∧ n < c.length - c.pos ∧
      s.readByte (c.origin + c.pos + n) = 0#8 ∧
      (∀ j, j < n → s.readByte (c.origin + c.pos + j) ≠ 0#8) ∧
      textDecode s.cfg .utf8 (s.readBytes (c.origin + c.pos) n) = none) ∧
    (∃ (s : State) (r : Request) (c : Cursor), s.req = some r ∧ GoodSlot s 2 .reader c ∧
      InMem s c ∧ c.length ≤ lenMax ∧ 0 < c.length - c.pos ∧
      s.readByte (c.origin + c.pos) = 0#8) :=
  ⟨⟨send base (rq 0x32#32), _, rfl, bad_mode_reader⟩,
    ⟨send base (rq 0x132#32), _, _, rfl, good1, in1, by decide, by decide⟩,
    ⟨send base (rq 0x232#32), _, _, 2, [0x41, 0x42], rfl, good2, by unfold InMem; decide, by decide,
      by decide, by decide, by decide, by decide⟩,
    ⟨send (base.setSlot 0 ⟨.reader, 0x4000, 3, 0⟩) (rq 0x32#32), _, ⟨.reader, 0x4000, 3, 0⟩, 2, rfl,
      ⟨by decide, by decide, .inr (.inl ⟨rfl, rfl⟩)⟩, by unfold InMem; decide, by decide, by decide,
      by decide, by decide, by decide⟩,
    ⟨send (moved base 2 2) (rq 0x232#32), _, ⟨.reader, 0x2000, 7, 2⟩, rfl,
      ⟨by decide, by decide, .inr (.inl ⟨rfl, rfl⟩)⟩, by unfold InMem; decide, by decide, by decide,
      by decide⟩⟩

theorem witness_RdStrReadsCountedText :
    (∃ (s : State) (r : Request), s.req = some r ∧ BadSlot s 0 .reader) ∧
    (∃ (s : State) (r : Request) (c : Cursor), s.req = some r ∧ GoodSlot s 2 .reader c ∧
      InMem s c ∧ r.a0.toInt < 0) ∧
    (∃ (s : State) (r : Request) (c : Cursor), s.req = some r ∧ GoodSlot s 2 .reader c ∧
      InMem s c ∧ ((c.length - c.pos : Nat) : Int) + 1 = r.a0.toInt) ∧
    (∃ (s : State) (r : Request) (c : Cursor) (n : Nat) (txt : Text), s.req = some r ∧
      GoodSlot s 2 .reader c ∧ InMem s c ∧ r.a0.toInt = n ∧ n ≤ c.length - c.pos ∧
      textDecode s.cfg .utf8 (s.readBytes (c.origin + c.pos) n) = some txt) ∧
    (∃ (s : State) (r : Request) (c : Cursor) (n : Nat), s.req = some r ∧
      GoodSlot s 0 .reader c ∧ InMem s c ∧ r.a0.toInt = n ∧ n = c.length - c.pos ∧
      textDecode s.cfg .utf8 (s.readBytes (c.origin + c.pos) n) = none) ∧
    (∃ (s : State) (r : Request) (c : Cursor), s.req = some r ∧ GoodSlot s 2 .reader c ∧
      InMem s c ∧ r.a0.toInt = 0) :=
  ⟨⟨send base (rq 0x33#32), _, rfl, bad_mode_reader⟩,
    ⟨send base (rq 0x233#32 M), _, _, rfl, good2, by unfold InMem; decide, by decide⟩,
    ⟨send base (rq 0x233#32 8#64), _, _, rfl, good2, by unfold InMem; decide, by decide⟩,
    ⟨send base (rq 0x233#32 3#64), _, _, 3, [0x41, 0x42, 0], rfl, good2, by unfold InMem; decide,
      by decide, by decide, by decide⟩,
    ⟨send (base.setSlot 0 ⟨.reader, 0x4000, 2, 0⟩) (rq 0x33#32 2#64), _, ⟨.reader, 0x4000, 2, 0⟩, 2,
      rfl, ⟨by decide, by decide, .inr (.inl ⟨rfl, rfl⟩)⟩, by unfold InMem; decide, by decide,
      by decide, by decide⟩,
    ⟨send base (rq 0x233#32), _, _, rfl, good2, by unfold InMem; decide, by decide⟩⟩

theorem witness_ReadsChangeOnlyTheirPosition :
    ∃ (i : Instr) (s t : State) (k : Nat) (c : Cursor), isRead i = true ∧ i.slot? = some k ∧
      exec i s = .next t ∧ s.slot k = some c ∧ t.slot k ≠ s.slot k :=
  ⟨.rdU8 1 .native, send base (rq 0x120#32), _, 1, _, rfl, rfl, rfl, good1.2.1, by decide⟩

/-- A memory that differs just below and just above the region of slot 2. -/
theorem witness_ReadsSeeOnlyTheirRegion :
    ∃ (i : Instr) (s t t' : State) (m : Memory) (k : Nat) (c : Cursor), isRead i = true ∧
      i.slot? = some k ∧ s.slot k = some c ∧ m ≠ s.mem ∧
      (∀ a, c.origin + c.pos ≤ a → a < c.origin + c.length →
        memGet s.cfg m a = memGet s.cfg s.mem a) ∧
      exec i s = .next t ∧ exec i { s with mem := m } = .next t' := by
  refine ⟨.rdBytes 2, send base (rq 0x230#32 7#64), _, _, memSet cfg0 mem0 0x2007 1#8, 2, _, rfl, rfl,
    good2.2.1, by decide, ?_, rfl, rfl⟩
  have h : ∀ j < 7, memGet cfg0 (memSet cfg0 mem0 0x2007 1#8) (0x2000 + j) =
      memGet cfg0 mem0 (0x2000 + j) := by decide
  intro a h1 h2
  simp only [Nat.add_zero] at h1 h2
  have := h (a - 0x2000) (by omega)
  rwa [show 0x2000 + (a - 0x2000) = a by omega] at this

theorem witness_NumericWritesStoreTheValuesBytes :
    ∀ ty : NumType,
      (∃ (s : State) (r : Request), s.req = some r ∧ BadSlot s 1 .writer) ∧
      (∃ (s : State) (r : Request) (c : Cursor), s.req = some r ∧ GoodSlot s 0 .writer c ∧
        InMem s c ∧ c.length - c.pos + 1 = typeWidth ty) ∧
      (∃ (s : State) (r : Request) (c : Cursor), s.req = some r ∧ GoodSlot s 0 .writer c ∧
        InMem s c ∧ typeWidth ty = c.length - c.pos) := by
  intro ty
  have h : 1 ≤ typeWidth ty ∧ typeWidth ty ≤ 16 := by cases ty <;> decide
  have good : ∀ p, GoodSlot (send (base.setSlot 0 ⟨.writer, 0x1000, 16, p⟩) (rq 0x40#32)) 0 .writer
      ⟨.writer, 0x1000, 16, p⟩ := fun p => ⟨by show 0 < 4; decide, rfl, .inr (.inr ⟨rfl, rfl⟩)⟩
  have ok : ∀ p, InMem (send (base.setSlot 0 ⟨.writer, 0x1000, 16, p⟩) (rq 0x40#32))
      ⟨.writer, 0x1000, 16, p⟩ := fun p => by show 0x1000 + 16 ≤ 2 ^ 64; decide
  exact ⟨⟨send base (rq 0x140#32), _, rfl, bad_mode_writer⟩,
    ⟨_, _, _, rfl, good (17 - typeWidth ty), ok _, by show 16 - (17 - typeWidth ty) + 1 = _; omega⟩,
    ⟨_, _, _, rfl, good (16 - typeWidth ty), ok _, by show _ = 16 - (16 - typeWidth ty); omega⟩⟩

/-- A payload that fills the region, one that is a byte too long, and a reader slot. -/
theorem witness_WrBytesStoresThePayload :
    (∃ (s : State) (r : Request) (bs : List Byte), s.req = some r ∧ r.ipay = .bytes bs ∧
      bs.length ≤ lenMax ∧ BadSlot s 1 .writer) ∧
    (∃ (s : State) (r : Request) (bs : List Byte) (c : Cursor), s.req = some r ∧
      r.ipay = .bytes bs ∧ bs.length ≤ lenMax ∧ GoodSlot s 3 .writer c ∧ InMem s c ∧
      c.length - c.pos + 1 = bs.length) ∧
    (∃ (s : State) (r : Request) (bs : List Byte) (c : Cursor), s.req = some r ∧
      r.ipay = .bytes bs ∧ bs.length ≤ lenMax ∧ GoodSlot s 3 .writer c ∧ InMem s c ∧
      bs.length = c.length - c.pos) := by
  have good : ∀ r, GoodSlot (send (base.setSlot 3 ⟨.writer, 0x3000, 2, 0⟩) r) 3 .writer
      ⟨.writer, 0x3000, 2, 0⟩ := fun r => ⟨by show 3 < 4; decide, rfl, .inr (.inr ⟨rfl, rfl⟩)⟩
  have ok : ∀ r, InMem (send (base.setSlot 3 ⟨.writer, 0x3000, 2, 0⟩) r)
      ⟨.writer, 0x3000, 2, 0⟩ := fun r => by show 0x3000 + 2 ≤ 2 ^ 64; decide
  exact ⟨⟨send base (rq 0x150#32), _, [], rfl, rfl, by decide, bad_mode_writer⟩,
    ⟨_, rq 0x350#32 (ipay := .bytes [1#8, 2#8, 3#8]), _, _, rfl, rfl, by decide, good _, ok _, rfl⟩,
    ⟨_, rq 0x350#32 (ipay := .bytes [1#8, 2#8]), _, _, rfl, rfl, by decide, good _, ok _, rfl⟩⟩

/-- A write through a good slot and one through a bad slot. -/
theorem witness_WritesChangeOnlyTheirBytesAndPosition :
    (∃ (i : Instr) (s t t' : State) (r : Request) (k a : Nat) (m : Memory) (c : Cursor),
      isWrite i = true ∧ i.slot? = some k ∧ s.req = some r ∧ exec i s = .next t ∧
      s.storeAddress k = some a ∧ s.slot k = some c ∧ exec i { s with mem := m } = .next t') ∧
    (∃ (i : Instr) (s t : State) (r : Request) (k : Nat), isWrite i = true ∧ i.slot? = some k ∧
      s.req = some r ∧ exec i s = .next t ∧ s.storeAddress k = none ∧ s.slot k = none) :=
  ⟨⟨.wrU32 0 .little, send base (rq 0x1044#32), _, _, _, 0, 0x1000, [], _, rfl, rfl, rfl, rfl,
      by decide, good0.2.1, rfl⟩,
    ⟨.wrU32 3 .little, send base (rq 0x1344#32), _, _, 3, rfl, rfl, rfl, rfl, by decide, by decide⟩⟩

/-- Writer slot 0 and reader slot 1 over the same 16 bytes. -/
theorem witness_ValueWrittenIsReadBack :
    ∀ ty : NumType, ∃ (s t u : State) (r r' : Request) (c d : Cursor), s.req = some r ∧
      GoodSlot s 0 .writer c ∧ InMem s c ∧ typeWidth ty ≤ c.length - c.pos ∧
      exec (writeInstr ty 0 .big) s = .next t ∧ u.cfg = t.cfg ∧
      (∀ a, u.readByte a = t.readByte a) ∧ u.req = some r' ∧ GoodSlot u 1 .reader d ∧ InMem u d ∧
      d.origin + d.pos = c.origin + c.pos ∧ typeWidth ty ≤ d.length - d.pos := by
  intro ty
  have h : typeWidth ty ≤ 16 := by cases ty <;> decide
  have he : ∃ t, exec (writeInstr ty 0 .big) (send base (rq 0x40#32)) = .next t ∧ t.cfg = cfg0 ∧
      t.slot 1 = some ⟨.reader, 0x1000, 16, 0⟩ := by cases ty <;> exact ⟨_, rfl, rfl, rfl⟩
  obtain ⟨t, ht, hc, hs⟩ := he
  refine ⟨send base (rq 0x40#32), t, send t (rq 0x120#32), _, _, ⟨.writer, 0x1000, 16, 0⟩,
    ⟨.reader, 0x1000, 16, 0⟩, rfl, good0, by unfold InMem; decide, h, ht, rfl, fun a => rfl, rfl, ?_,
    ?_, rfl, h⟩
  · exact ⟨by show 1 < t.cfg.nslot; rw [hc]; decide, hs, .inr (.inl ⟨rfl, rfl⟩)⟩
  · show 0x1000 + 16 ≤ 2 ^ t.cfg.addrW
    rw [hc]
    decide

theorem witness_BytesWrittenAreReadBack :
    ∃ (s t u : State) (r r' : Request) (c d : Cursor) (bs : List Byte), s.req = some r ∧
      r.ipay = .bytes bs ∧ GoodSlot s 0 .writer c ∧ InMem s c ∧ bs.length ≤ c.length - c.pos ∧
      exec (.wrBytes 0) s = .next t ∧ u.cfg = t.cfg ∧ (∀ a, u.readByte a = t.readByte a) ∧
      u.req = some r' ∧ GoodSlot u 1 .reader d ∧ InMem u d ∧ d.origin + d.pos = c.origin + c.pos ∧
      bs.length ≤ d.length - d.pos ∧ r'.a0.toInt = (bs.length : Int) := by
  have he : ∃ t, exec (.wrBytes 0) (send base (rq 0x50#32 (ipay := .bytes [1#8, 2#8]))) = .next t ∧
      t.cfg = cfg0 ∧ t.slot 1 = some ⟨.reader, 0x1000, 16, 0⟩ := ⟨_, rfl, rfl, rfl⟩
  obtain ⟨t, ht, hc, hs⟩ := he
  refine ⟨send base (rq 0x50#32 (ipay := .bytes [1#8, 2#8])), t, send t (rq 0x130#32 2#64), _, _,
    ⟨.writer, 0x1000, 16, 0⟩, ⟨.reader, 0x1000, 16, 0⟩, [1#8, 2#8], rfl, rfl, good0,
    by unfold InMem; decide, by decide, ht, rfl, fun a => rfl, rfl, ?_, ?_, rfl, by decide, by decide⟩
  · exact ⟨by show 1 < t.cfg.nslot; rw [hc]; decide, hs, .inr (.inl ⟨rfl, rfl⟩)⟩
  · show 0x1000 + 16 ≤ 2 ^ t.cfg.addrW
    rw [hc]
    decide

theorem witness_OtherSlotsAreUntouched :
    ∃ (i : Instr) (s t : State) (j : Nat), exec i s = .next t ∧ i.slot? ≠ some j ∧ s.slot j ≠ none :=
  ⟨.curClose 1, send base (rq 0x115#32), _, 0, rfl, by decide, by decide⟩

theorem witness_OnlyConstructionAndReleaseReshapeACursor :
    ∃ (s t : State) (r : Request) (i : Instr) (j : Nat) (c : Cursor), s.req = some r ∧
      decode r.cmd = some i ∧ step s = .next t ∧ s.slot j = some c ∧
      (∀ m, i ≠ openInstr m j) ∧ i ≠ .curClose j ∧ t.slot j ≠ some c := by
  refine ⟨send base (rq 0x120#32), _, _, .rdU8 1 .native, 1, _, rfl, by decide, rfl, good1.2.1,
    fun m => ?_, by decide, by decide⟩
  cases m <;> simp [openInstr]

theorem witness_BoundSlotsStayBound :
    ∃ (s t : State) (j : Nat) (c : Cursor), step s = .next t ∧ s.slot j = some c ∧
      (∀ r, s.req = some r → decode r.cmd ≠ some (.curClose j)) ∧
      (∀ rest, s.req = none → s.host ≠ .reset :: rest) := by
  refine ⟨send base (rq 0x120#32), _, 1, _, rfl, good1.2.1, fun r hr => ?_, fun rest hr => ?_⟩
  · obtain rfl : rq 0x120#32 = r := by simpa [send] using hr
    decide
  · simp [send] at hr

theorem witness_OnlyWritesChangeMem :
    ∃ (i : Instr) (s t : State), isWrite i = false ∧ exec i s = .next t :=
  ⟨.rdSlice 2, send base (rq 0x231#32 2#64), _, rfl, rfl⟩
theorem witness_ParametersNeverChange : ∃ s t : State, step s = .next t :=
  ⟨{ base with host := [.reset] }, _, rfl⟩

theorem witness_FailureChangesNoPersistentState :
    ∃ (s t : State) (r : Request) (rsp : Response), s.req = some r ∧ step s = .next t ∧
      t.resp = some rsp ∧ rsp.status ≠ .ok :=
  ⟨send (moved base 0 15) (rq 0x1042#32), _, _, _, rfl, rfl, rfl, by decide⟩
theorem witness_HistoryKeepsEveryFailure :
    (∃ (s t : State) (r : Request), s.req = some r ∧ step s = .next t) ∧
    (∃ s t : State, s.req = none ∧ step s = .next t) :=
  ⟨⟨send base (rq 0x3124#32), _, _, rfl, rfl⟩, ⟨{ base with host := [.reset] }, _, rfl, rfl⟩⟩

theorem witness_ResponseFieldsAreDefinedAsTheRulesSay :
    (∃ (s t : State) (r : Request) (i : Instr), s.req = some r ∧ step s = .next t ∧
      decode r.cmd = some i) ∧
    (∃ (s : State) (f : Field) (rest : List HostAction) (rsp : Response), s.req = none ∧
      s.host = .readField f :: rest ∧ s.resp = some rsp ∧ rsp.has f = true) ∧
    (∃ (s : State) (f : Field) (rest : List HostAction), s.req = none ∧
      s.host = .readField f :: rest ∧ ∀ rsp, s.resp = some rsp → rsp.has f = false) :=
  ⟨⟨send base (rq 0x120#32), _, _, .rdU8 1 .native, rfl, rfl, by decide⟩,
    ⟨{ base with resp := some { status := .ok }, host := [.readField .status] }, _, _, _, rfl, rfl,
      rfl, rfl⟩,
    ⟨{ base with host := [.readField .dout] }, _, _, rfl, rfl, by simp [base]⟩⟩

theorem witness_StatusesComeFromTheCommandsThatRaiseThem :
    ∃ (i : Instr) (s t : State) (rsp : Response), exec i s = .next t ∧ t.resp = some rsp ∧
      rsp.status = .malformedData :=
  ⟨.rdCstr 1, send base (rq 0x132#32), _, _, rfl, rfl, by decide⟩

theorem witness_TheFirstFailureInOrderIsReported :
    (∃ (s t : State) (r : Request) (rsp : Response) (i : Instr) (j : Nat) (c : CodeUnit),
      s.req = some r ∧ step s = .next t ∧ t.resp = some rsp ∧ decode r.cmd = some i ∧
      rsp.status = .invalidCharacter ∧ firstBadChar r i j c) ∧
    (∃ (s : State) (r : Request) (k : Nat) (n : Need) (i : Instr),
      i ∈ [.rdBytes k, .rdSlice k, .rdStr k .utf8, .curSetpos k] ∧ needOf i = some n ∧
      s.req = some r ∧ BadSlot s k n ∧ r.a0.toInt < 0) ∧
    (∃ (s : State) (r : Request) (k : Nat), s.req = some r ∧ s.cfg.nslot ≤ k ∧ r.a1.toInt < 0) ∧
    (∃ (s : State) (r : Request) (k : Nat) (c : Cursor) (i : Instr),
      i ∈ [.rdBytes k, .rdSlice k, .rdStr k .utf8] ∧ s.req = some r ∧ GoodSlot s k .reader c ∧
      InMem s c ∧ c.pos = c.length ∧ r.a0.toInt < 0) ∧
    (∃ (s : State) (r : Request) (cs : List CodeUnit) (e : BadChar) (m : Nat), s.req = some r ∧
      r.ipay = .chars cs ∧ (Payload.chars cs).fits s.cfg = true ∧ decRun accW cs = .error e ∧
      r.a0.toInt < (decodedLength cs.length : Int) ∧ IsStripped cs m ∧
      decRun accW (cs.take m) = .error e ∧ r.a0.toInt < (decodedLength m : Int)) ∧
    (∃ (s : State) (r : Request) (k : Nat) (c : Cursor), s.req = some r ∧ GoodSlot s k .reader c ∧
      InMem s c ∧ textDecode s.cfg .utf8 (s.readBytes (c.origin + c.pos) (c.length - c.pos)) = none ∧
      ((c.length - c.pos : Nat) : Int) < r.a0.toInt) :=
  ⟨⟨send base (rq 0x4#32 1#64 (ipay := .chars [0x6D, 0x31])), _, _, _, .b32Decode, 0, 0x6D, rfl, rfl,
      rfl, by decide, rfl, [0x6D, 0x31], rfl, .inl rfl, rfl, by decide, by decide⟩,
    ⟨send base (rq 0x30#32 M), _, 0, .reader, .rdBytes 0, by decide, rfl, rfl, bad_mode_reader,
      by decide⟩,
    ⟨send base (rq 0x510#32 0#64 M), _, 5, rfl, by decide, by decide⟩,
    ⟨send (base.setSlot 1 ⟨.reader, 0x1000, 16, 16⟩) (rq 0x130#32 M), _, 1, ⟨.reader, 0x1000, 16, 16⟩,
      .rdBytes 1, by decide, rfl, ⟨by decide, by decide, .inr (.inl ⟨rfl, rfl⟩)⟩,
      by unfold InMem; decide, rfl, by decide⟩,
    ⟨send base (rq 0x4#32 0#64 (ipay := .chars [0x31, 0x41])), _, [0x31, 0x41], ⟨0x31, 0⟩, 2, rfl, rfl,
      by decide, rfl, by decide, by unfold IsStripped; decide, rfl, by decide⟩,
    ⟨send (base.setSlot 0 ⟨.reader, 0x4000, 2, 0⟩) (rq 0x33#32 3#64), _, 0, ⟨.reader, 0x4000, 2, 0⟩,
      rfl, ⟨by decide, by decide, .inr (.inl ⟨rfl, rfl⟩)⟩, by unfold InMem; decide, by decide,
      by decide⟩⟩

theorem witness_UnnamedRequestFieldsAreIgnored :
    (∃ (i : Instr) (r r' : Request), sameOperands i r r' ∧ r ≠ r') ∧
    (∃ (i : Instr) (s t : State), exec i s = .next t) := by
  refine ⟨⟨.wrU8 0 .native, rq 0x40#32 (din := 0x1AA#128), rq 0x40#32 M (din := 0xAA#128), ?_,
    by decide⟩, ⟨.wrU8 0 .native, send base (rq 0x40#32), _, rfl⟩⟩
  exact fun _ => by decide

/-- No request; a byte payload for a text command; a region that ends past the top of MEM. -/
theorem witness_StopsAreNamed :
    (∃ s : State, s.req = none) ∧
    (∃ (i : Instr) (s : State) (r : Request), s.req = some r ∧ r.formed s.cfg i = false) ∧
    (∃ (i : Instr) (s : State) (r : Request) (k : Nat) (n : Need) (c : Cursor), s.req = some r ∧
      r.formed s.cfg i = true ∧ touchesMem i = true ∧ i.slot? = some k ∧ needOf i = some n ∧
      GoodSlot s k n c ∧ 2 ^ s.cfg.addrW + 1 = c.origin + c.length) :=
  ⟨⟨base, rfl⟩, ⟨.b32Decode, send base (rq 0x4#32), _, rfl, by decide⟩,
    ⟨.rdU8 0 .native, send (narrow.setSlot 0 ⟨.reader, 0xFFFF, 2, 0⟩) (rq 0x20#32), _, 0, .reader,
      ⟨.reader, 0xFFFF, 2, 0⟩, rfl, by decide, rfl, rfl, rfl,
      ⟨by decide, by decide, .inr (.inl ⟨rfl, rfl⟩)⟩, by decide⟩⟩

/-- An exhausted reader with the count 0, with the count 1, and with the position p = length; an
exhausted writer with an empty payload and with one byte. -/
theorem witness_ExhaustedCursorAcceptsWhatNeedsNoByte :
    (∀ a0 ∈ [0#64, 1#64, 16#64], ∃ (s : State) (r : Request) (c : Cursor), s.req = some r ∧
      GoodSlot s 1 .any c ∧ InMem s c ∧ c.pos = c.length ∧ c.length ≤ lenMax ∧ c.mode = .reader ∧
      r.a0 = a0 ∧ c.length = 16) ∧
    (∀ bs ∈ [[], [7#8]], ∃ (s : State) (r : Request) (c : Cursor), s.req = some r ∧
      GoodSlot s 0 .any c ∧ InMem s c ∧ c.pos = c.length ∧ c.length ≤ lenMax ∧ c.mode = .writer ∧
      r.ipay = .bytes bs ∧ bs.length ≤ lenMax) := by
  refine ⟨fun a0 _ => ⟨send (base.setSlot 1 ⟨.reader, 0x1000, 16, 16⟩) (rq 0x130#32 a0), _,
    ⟨.reader, 0x1000, 16, 16⟩, rfl, ⟨by show 1 < 4; decide, rfl, .inl rfl⟩, ?_, rfl, by decide, rfl,
    rfl, rfl⟩, fun bs hb => ⟨send (base.setSlot 0 ⟨.writer, 0x1000, 16, 16⟩)
    (rq 0x50#32 (ipay := .bytes bs)), _, ⟨.writer, 0x1000, 16, 16⟩, rfl,
    ⟨by show 0 < 4; decide, rfl, .inl rfl⟩, ?_, rfl, by decide, rfl, rfl, ?_⟩⟩
  · show 0x1000 + 16 ≤ 2 ^ 64; decide
  · show 0x1000 + 16 ≤ 2 ^ 64; decide
  · revert bs; decide

end Sys2Proof.Tests
end

section
/-! The accumulator's width (00_scope.md R8): "Only bits `ACC[11:0]` are ever read." Keeping the low
12 bits of the accumulator commutes with every step of the encoder and of the decoder, so each width
from 12 up runs as the 12-bit machine does. -/

namespace Sys2Proof.Machine

/-! ## Windows of the accumulator -/

/-- The n bits of an accumulator above its low k bits, as a number. -/
theorem window_toNat {w k n : Nat} (hn : n ≤ w) (acc : BitVec w) :
    ((acc >>> k) &&& BitVec.ofNat w (2 ^ n - 1)).toNat = acc.toNat / 2 ^ k % 2 ^ n := by
  have hmask : (BitVec.ofNat w (2 ^ n - 1)).toNat = 2 ^ n - 1 := by
    have hle : 2 ^ n ≤ 2 ^ w := Nat.pow_le_pow_right (by decide) hn
    have hpos : 0 < 2 ^ n := Nat.two_pow_pos n
    rw [BitVec.toNat_ofNat, Nat.mod_eq_of_lt (by omega)]
  rw [BitVec.toNat_and, hmask, Nat.and_two_pow_sub_one_eq_mod, BitVec.toNat_ushiftRight,
    Nat.shiftRight_eq_div_pow]

/-- A window that lies in the low 12 bits reads the same after they alone are kept. -/
theorem window_setWidth_toNat {w k n : Nat} (hw : 12 ≤ w) (hkn : k + n ≤ 12) (acc : BitVec w) :
    ((acc.setWidth 12 >>> k) &&& BitVec.ofNat 12 (2 ^ n - 1)).toNat =
      ((acc >>> k) &&& BitVec.ofNat w (2 ^ n - 1)).toNat := by
  rw [window_toNat (by omega), window_toNat (by omega), BitVec.toNat_setWidth]
  obtain ⟨m, hm⟩ := Nat.exists_eq_add_of_le hkn
  rw [hm, Nat.pow_add, Nat.pow_add, Nat.mul_assoc, Nat.mod_mul_right_div_self,
    Nat.mod_mul_right_mod]

/-! ## The encoder -/

/-- The encoder's registers with the low 12 bits of ACC alone. -/
def EncRegs.low {w : Nat} (r : EncRegs w) : EncRegs 12 :=
  { r with acc := r.acc.setWidth 12 }

section
variable {w : Nat} (src : List Byte) (r : EncRegs w)

@[simp] theorem EncRegs.low_rem : r.low.rem = r.rem := rfl
@[simp] theorem EncRegs.low_i : r.low.i = r.i := rfl
@[simp] theorem EncRegs.low_o : r.low.o = r.o := rfl
@[simp] theorem EncRegs.low_phase : r.low.phase = r.phase := rfl
@[simp] theorem EncRegs.low_out : r.low.out = r.out := rfl

theorem encFill_of_load {src : List Byte} {r : EncRegs w} (h : r.rem < 5 ∧ r.i < src.length) :
    encFill src r = { r with
      acc := (r.acc <<< 8) ||| (src.getD r.i 0#8).setWidth w
      rem := r.rem + 8
      i := r.i + 1 } :=
  if_pos h

theorem encFill_of_flush {src : List Byte} {r : EncRegs w} (hrem : r.rem < 5)
    (hi : ¬ r.i < src.length) :
    encFill src r = { r with acc := r.acc <<< (5 - r.rem), rem := 5 } :=
  (if_neg fun h => hi h.2).trans (if_pos hrem)

theorem encFill_of_five_le {src : List Byte} {r : EncRegs w} (h : 5 ≤ r.rem) :
    encFill src r = r :=
  (if_neg fun hload => Nat.not_lt.2 h hload.1).trans (if_neg (Nat.not_lt.2 h))

/-- R118, R119: after the load or the flush there is a symbol to emit. -/
theorem five_le_encFill_rem : 5 ≤ (encFill src r).rem := by
  rcases Nat.lt_or_ge r.rem 5 with hrem | hrem
  · by_cases hi : r.i < src.length
    · rw [encFill_of_load ⟨hrem, hi⟩]
      exact Nat.le_add_left_of_le (by decide)
    · rw [encFill_of_flush hrem hi]
  · rwa [encFill_of_five_le hrem]

/-- R118: "afterwards the valid bits are `ACC[REM-1:0]` with `REM <= 12`". -/
theorem encFill_rem_le {src : List Byte} {r : EncRegs w} (h : r.rem ≤ 12) :
    (encFill src r).rem ≤ 12 := by
  rcases Nat.lt_or_ge r.rem 5 with hrem | hrem
  · by_cases hi : r.i < src.length
    · rw [encFill_of_load ⟨hrem, hi⟩]
      exact Nat.add_le_add_right (Nat.le_of_lt_succ hrem) 8
    · rw [encFill_of_flush hrem hi]
      exact Nat.le_add_right 5 7
  · rwa [encFill_of_five_le hrem]

@[simp] theorem encPad_rem : (encPad src r).rem = r.rem := by
  unfold encPad
  dsimp only
  split <;> rfl

/-- R122: "`REM` stays within 0..12 throughout". -/
theorem encStep_rem_le {src : List Byte} {r : EncRegs w} (h : r.rem ≤ 12) :
    (encStep src r).rem ≤ 12 := by
  unfold encStep
  split
  · split
    · exact h
    · exact (Nat.sub_le _ 5).trans (encFill_rem_le h)
  · rwa [encPad_rem]
  · exact h

theorem encFill_low (hw : 12 ≤ w) : encFill src r.low = (encFill src r).low := by
  rcases Nat.lt_or_ge r.rem 5 with hrem | hrem
  · by_cases hi : r.i < src.length
    · rw [encFill_of_load ⟨hrem, hi⟩, encFill_of_load (r := r.low) ⟨hrem, hi⟩]
      simp only [EncRegs.low, BitVec.setWidth_or, BitVec.setWidth_shiftLeft_of_le hw,
        BitVec.setWidth_setWidth_of_le _ hw]
    · rw [encFill_of_flush hrem hi, encFill_of_flush (r := r.low) hrem hi]
      simp only [EncRegs.low, BitVec.setWidth_shiftLeft_of_le hw]
  · rw [encFill_of_five_le hrem, encFill_of_five_le (r := r.low) hrem]

/-- The symbol emitted is a window of 5 bits below REM, so within the low 12 bits. -/
theorem encEmit_low {r : EncRegs w} (hw : 12 ≤ w) (h5 : 5 ≤ r.rem) (h12 : r.rem ≤ 12) :
    encEmit r.low = (encEmit r).low := by
  have hsym : ((r.low.acc >>> (r.low.rem - 5)) &&& BitVec.ofNat 12 0x1F).toNat =
      ((r.acc >>> (r.rem - 5)) &&& BitVec.ofNat w 0x1F).toNat :=
    window_setWidth_toNat (n := 5) hw (by rw [EncRegs.low_rem]; omega) r.acc
  unfold encEmit
  rw [hsym]
  rfl

theorem encPad_low : encPad src r.low = (encPad src r).low := by
  unfold encPad
  dsimp only
  rw [apply_ite EncRegs.low]
  rfl

/-- One step on the low 12 bits is the low 12 bits of one step. -/
theorem encStep_low {r : EncRegs w} (hw : 12 ≤ w) (h : r.rem ≤ 12) :
    encStep src r.low = (encStep src r).low := by
  unfold encStep
  rw [EncRegs.low_phase]
  split
  · rw [encFill_low src r hw, encEmit_low hw (five_le_encFill_rem src r) (encFill_rem_le h),
      EncRegs.low_rem, EncRegs.low_i, apply_ite EncRegs.low]
    rfl
  · exact encPad_low src r
  · rfl

theorem encSteps_low {r : EncRegs w} (hw : 12 ≤ w) (h : r.rem ≤ 12) (k : Nat) :
    encSteps src k r.low = (encSteps src k r).low := by
  induction k generalizing r with
  | zero => rfl
  | succ k ih => rw [encSteps, encSteps, encStep_low src hw h, ih (encStep_rem_le h)]

/-- The encoder of 12 bits runs as the encoder of w bits does, on its low 12 bits. -/
theorem encRun_low (hw : 12 ≤ w) : encRun 12 src = (encRun w src).low := by
  have hstart : encStart 12 src = (encStart w src).low := by
    simp [encStart, EncRegs.low, BitVec.setWidth_setWidth_of_le _ hw]
  rw [encRun, hstart, encSteps_low src hw (by decide : (8 : Nat) ≤ 12), encRun]

end

/-! ## The decoder -/

/-- The decoder's registers with the low 12 bits of ACC alone. -/
def DecRegs.low {w : Nat} (r : DecRegs w) : DecRegs 12 :=
  { r with acc := r.acc.setWidth 12 }

section
variable {w : Nat} (src : List CodeUnit) {r : DecRegs w}

@[simp] theorem DecRegs.low_rem : r.low.rem = r.rem := rfl
@[simp] theorem DecRegs.low_j : r.low.j = r.j := rfl
@[simp] theorem DecRegs.low_o : r.low.o = r.o := rfl
@[simp] theorem DecRegs.low_phase : r.low.phase = r.phase := rfl
@[simp] theorem DecRegs.low_out : r.low.out = r.out := rfl

/-- R124: "Before the add `REM <= 7`". -/
theorem decTake_rem_le {v : Nat} (h : r.rem ≤ 7) : (decTake r v).rem ≤ 7 := by
  unfold decTake
  dsimp only
  split <;> dsimp only <;> omega

/-- The byte emitted is a window of 8 bits below REM, so within the low 12 bits. -/
theorem decTake_low (hw : 12 ≤ w) (h : r.rem ≤ 7) (v : Nat) :
    decTake r.low v = (decTake r v).low := by
  have hacc : (r.low.acc <<< 5) ||| BitVec.ofNat 12 v =
      ((r.acc <<< 5) ||| BitVec.ofNat w v).setWidth 12 := by
    rw [BitVec.setWidth_or, BitVec.setWidth_shiftLeft_of_le hw, BitVec.setWidth_ofNat_of_le hw]
    rfl
  unfold decTake
  simp only [hacc, DecRegs.low_rem]
  split
  · next h8 =>
    have hbyte := window_setWidth_toNat (k := r.rem + 5 - 8) (n := 8) hw (by omega)
      ((r.acc <<< 5) ||| BitVec.ofNat w v)
    unfold DecRegs.low
    congr 3
    exact BitVec.eq_of_toNat_eq (by
      rw [BitVec.toNat_setWidth, BitVec.toNat_setWidth]
      exact congrArg (· % 2 ^ 8) hbyte)
  · rfl

theorem decStep_of_end {src : List CodeUnit} (hj : r.j = src.length) :
    decStep src r = .ok { r with phase := .done } :=
  if_pos hj

theorem decStep_of_value {src : List CodeUnit} {v : Nat} (hj : r.j ≠ src.length)
    (hv : charToValue (src.getD r.j 0) = some v) : decStep src r = .ok (decTake r v) := by
  simp only [decStep, if_neg hj, hv]

theorem decStep_of_invalid {src : List CodeUnit} (hj : r.j ≠ src.length)
    (hv : charToValue (src.getD r.j 0) = none) :
    decStep src r = .error { char := src.getD r.j 0, index := r.j } := by
  simp only [decStep, if_neg hj, hv]

theorem decStep_low (hw : 12 ≤ w) (h : r.rem ≤ 7) :
    decStep src r.low = (decStep src r).map DecRegs.low := by
  by_cases hj : r.j = src.length
  · rw [decStep_of_end hj, decStep_of_end (r := r.low) hj]
    rfl
  · cases hv : charToValue (src.getD r.j 0) with
    | none =>
      rw [decStep_of_invalid hj hv, decStep_of_invalid (r := r.low) hj hv]
      rfl
    | some v =>
      rw [decStep_of_value hj hv, decStep_of_value (r := r.low) hj hv, decTake_low hw h]
      rfl

theorem decStep_rem_le {src : List CodeUnit} {r' : DecRegs w} (hs : decStep src r = .ok r')
    (h : r.rem ≤ 7) : r'.rem ≤ 7 := by
  by_cases hj : r.j = src.length
  · rw [decStep_of_end hj] at hs
    cases hs
    exact h
  · cases hv : charToValue (src.getD r.j 0) with
    | none =>
      rw [decStep_of_invalid hj hv] at hs
      cases hs
    | some v =>
      rw [decStep_of_value hj hv] at hs
      cases hs
      exact decTake_rem_le h

theorem decSteps_low (hw : 12 ≤ w) (h : r.rem ≤ 7) (k : Nat) :
    decSteps src k r.low = (decSteps src k r).map DecRegs.low := by
  induction k generalizing r with
  | zero => rfl
  | succ k ih =>
    rw [decSteps, decSteps, DecRegs.low_phase, decStep_low src hw h]
    cases r.phase with
    | done => rfl
    | loop =>
      cases hs : decStep src r with
      | error e => rfl
      | ok r' => exact ih (decStep_rem_le hs h)

/-- The decoder of 12 bits runs as the decoder of w bits does, on its low 12 bits. -/
theorem decRun_low (hw : 12 ≤ w) : decRun 12 src = (decRun w src).map DecRegs.low := by
  have hstart : decStart 12 = (decStart w).low := by simp [decStart, DecRegs.low]
  rw [decRun, hstart, decSteps_low src hw (Nat.zero_le 7), decRun]

end

/-- Settles O27: both widths run as the 12-bit machine does, on their low 12 bits. -/
theorem anyAccumulatorWidthFromTwelveAgrees : Obligations.AnyAccumulatorWidthFromTwelveAgrees := by
  intro w hw
  have h16 : 12 ≤ accW := by decide
  have henc (bs : List Byte) : (encRun w bs).low = (encRun accW bs).low :=
    (encRun_low bs hw).symm.trans (encRun_low bs h16)
  have hdec (cs : List CodeUnit) :
      (decRun w cs).map DecRegs.low = (decRun accW cs).map DecRegs.low :=
    (decRun_low cs hw).symm.trans (decRun_low cs h16)
  refine ⟨fun bs _ => congrArg EncRegs.out (henc bs), fun cs d hd => ?_, fun cs e he => ?_⟩
  · have hrun := hdec cs
    rw [hd] at hrun
    cases hw' : decRun w cs with
    | error e => rw [hw'] at hrun; cases hrun
    | ok d' =>
      rw [hw'] at hrun
      exact ⟨d', rfl, congrArg DecRegs.out (Except.ok.inj hrun)⟩
  · have hrun := hdec cs
    rw [he] at hrun
    cases hw' : decRun w cs with
    | error e' =>
      rw [hw'] at hrun
      exact congrArg Except.error (Except.error.inj hrun)
    | ok d' => rw [hw'] at hrun; cases hrun

end Sys2Proof.Machine
end

section
/-! The codec's responses (10_state.md R37). Two runs of one codec command on the same request read
the same operands and the same payload, and nothing else of the state reaches the response. -/

namespace Sys2Proof.Machine

open Sys2Proof.Safety

/-! ## Two runs on the same request -/

/-- Two states with the same request run their commands on that one request. -/
theorem withRequest_next_both {s s' t t' : State} {f f' : Request → Result}
    (hreq : s.req = s'.req) (h : withRequest s f = .next t) (h' : withRequest s' f' = .next t') :
    ∃ r, f r = .next t ∧ f' r = .next t' := by
  obtain ⟨r, hr, h⟩ := withRequest_eq_next.1 h
  rw [withRequest_of_req (hreq ▸ hr)] at h'
  exact ⟨r, h, h'⟩

/-- Two runs on one request read the same bytes of its payload. -/
theorem withBytes_next_both {s s' t t' : State} {r : Request} {f f' : List Byte → Result}
    (h : withBytes s r f = .next t) (h' : withBytes s' r f' = .next t') :
    ∃ bs, f bs = .next t ∧ f' bs = .next t' := by
  obtain ⟨bs, hb, -, h⟩ := withBytes_eq_next.1 h
  obtain ⟨bs', hb', -, h'⟩ := withBytes_eq_next.1 h'
  cases hb.symm.trans hb'
  exact ⟨bs, h, h'⟩

/-- Two runs on one request read the same code units of its payload. -/
theorem withChars_next_both {s s' t t' : State} {r : Request} {f f' : List CodeUnit → Result}
    (h : withChars s r f = .next t) (h' : withChars s' r f' = .next t') :
    ∃ cs, f cs = .next t ∧ f' cs = .next t' := by
  obtain ⟨cs, hc, -, h⟩ := withChars_eq_next.1 h
  obtain ⟨cs', hc', -, h'⟩ := withChars_eq_next.1 h'
  cases hc.symm.trans hc'
  exact ⟨cs, h, h'⟩

/-! ## The responses -/

theorem sizeCommand_resp_congr {s s' t t' : State} {size : Nat → Nat} (hreq : s.req = s'.req)
    (h : sizeCommand s size = .next t) (h' : sizeCommand s' size = .next t') :
    t.resp = t'.resp := by
  obtain ⟨r, ht, ht'⟩ := withRequest_next_both hreq h h'
  cases ht
  cases ht'
  split <;> rfl

theorem State.runDecoder_resp_congr (s s' : State) (cs : List CodeUnit) :
    (s.runDecoder cs).resp = (s'.runDecoder cs).resp := by
  unfold State.runDecoder
  split <;> rfl

/-- The response of a codec command is a function of its request (10_state.md R37). -/
theorem exec_codec_resp_congr {i : Instr} {s s' t t' : State} (hi : isCodec i = true)
    (hreq : s.req = s'.req) (h : exec i s = .next t) (h' : exec i s' = .next t') :
    t.resp = t'.resp := by
  cases i
  case b32Enclen => exact sizeCommand_resp_congr hreq h h'
  case b32Declen => exact sizeCommand_resp_congr hreq h h'
  case b32Encode =>
    obtain ⟨r, h, h'⟩ := withRequest_next_both hreq h h'
    obtain ⟨bs, ht, ht'⟩ := withBytes_next_both h h'
    cases ht
    cases ht'
    split
    · rfl
    · split <;> rfl
  case b32Decode =>
    obtain ⟨r, h, h'⟩ := withRequest_next_both hreq h h'
    obtain ⟨cs, ht, ht'⟩ := withChars_next_both h h'
    cases ht
    cases ht'
    split
    · rfl
    · exact State.runDecoder_resp_congr s s' cs
  case b32Strip =>
    obtain ⟨r, h, h'⟩ := withRequest_next_both hreq h h'
    obtain ⟨cs, ht, ht'⟩ := withChars_next_both h h'
    cases ht
    cases ht'
    rfl
  case b32Decodep =>
    obtain ⟨r, h, h'⟩ := withRequest_next_both hreq h h'
    obtain ⟨cs, ht, ht'⟩ := withChars_next_both h h'
    cases ht
    cases ht'
    split
    · rfl
    · split
      · rfl
      · exact State.runDecoder_resp_congr s s' (cs.take (strippedCount cs))
  all_goals cases hi

/-- No register of the codec survives any command (10_state.md R40). -/
theorem exec_leaves_codec_idle {i : Instr} {s t : State} (h : exec i s = .next t) :
    t.codec = .idle := by
  obtain ⟨r, -, rsp, u, rfl, -⟩ := exec_next h
  exact u.complete_codec rsp

/-- Settles O28: the two runs read one request, and every command ends in `State.complete`. -/
theorem codecResultIsAFunctionOfTheRequest : Obligations.CodecResultIsAFunctionOfTheRequest :=
  fun _ _ _ _ _ hi hreq h h' => ⟨exec_codec_resp_congr hi hreq h h', exec_leaves_codec_idle h⟩

end Sys2Proof.Machine
end

section
/-! What reshapes a cursor (10_state.md R33): of everything a command can do to the slot file
(`Effect`), only a construction and a release replace a cursor, and the rest moves one. -/

namespace Sys2Proof.Machine

open Sys2Proof.Safety

/-- Moving the cursor of slot k moves that slot's position and nothing else of any cursor. -/
theorem State.setSlot_pos_slot {s : State} {k j p : Nat} {c d : Cursor} (hd : s.slot k = some d)
    (hc : s.slot j = some c) :
    ∃ q, (s.setSlot k { d with pos := p }).slot j = some { c with pos := q } ∧
      (q ≠ c.pos → k = j) := by
  rw [State.setSlot_slot]
  by_cases hjk : j = k
  · subst hjk
    cases hc.symm.trans hd
    exact ⟨p, if_pos rfl, fun _ => rfl⟩
  · exact ⟨c.pos, by rw [if_neg hjk, hc], fun h => absurd rfl h⟩

/-- A command that neither constructs nor releases slot j changes at most the position of its
cursor, and that only as a read, a write or CUR.SETPOS of slot j. -/
theorem Effect.slot_shape {i : Instr} {s u : State} {r : Request} {j : Nat} {c : Cursor}
    (he : Effect i s r u) (hc : s.slot j = some c) (hopen : ∀ m, i ≠ openInstr m j)
    (hclose : i ≠ .curClose j) :
    ∃ p, u.slot j = some { c with pos := p } ∧
      (p ≠ c.pos → i.slot? = some j ∧
        (isRead i = true ∨ isWrite i = true ∨ i = .curSetpos j)) := by
  cases he with
  | keep => exact ⟨c.pos, hc, fun h => absurd rfl h⟩
  | openSlot m k len hi =>
    have hjk : j ≠ k := by
      rintro rfl
      exact hopen m hi
    exact ⟨c.pos, by rw [State.setSlot_slot, if_neg hjk, hc], fun h => absurd rfl h⟩
  | setPos k p d hi hs =>
    obtain ⟨q, hq, hmove⟩ := State.setSlot_pos_slot (p := p) (checkSlot_good.1 hs).2.1 hc
    refine ⟨q, hq, fun hne => ?_⟩
    cases hmove hne
    exact ⟨by rw [hi]; rfl, .inr (.inr hi)⟩
  | close k d hi =>
    have hjk : j ≠ k := by
      rintro rfl
      exact hclose hi
    exact ⟨c.pos, by rw [State.clearSlot_slot, if_neg hjk, hc], fun h => absurd rfl h⟩
  | read k n d hi hk hs =>
    obtain ⟨q, hq, hmove⟩ :=
      State.setSlot_pos_slot (p := d.pos + n) (checkSlot_good.1 hs).2.1 hc
    exact ⟨q, hq, fun hne => ⟨hmove hne ▸ hk, .inl hi⟩⟩
  | write k d bs hi hk hs =>
    obtain ⟨q, hq, hmove⟩ :=
      State.setSlot_pos_slot (p := d.pos + bs.length) (checkSlot_good.1 hs).2.1 hc
    exact ⟨q, hq, fun hne => ⟨hmove hne ▸ hk, .inr (.inl hi)⟩⟩

/-- A step with a legal command pending runs that command (10_state.md R20). -/
theorem step_of_decode {s : State} {r : Request} {i : Instr} (hr : s.req = some r)
    (hd : decode r.cmd = some i) : step s = exec i s := by
  simp [step, hr, hd]

/-- Settles O49, from what a command can do to the slots. -/
theorem onlyConstructionAndReleaseReshapeACursor :
    Obligations.OnlyConstructionAndReleaseReshapeACursor := by
  intro s t r i j c hr hd hstep hc hopen hclose
  rw [step_of_decode hr hd] at hstep
  obtain ⟨r', -, rsp, u, rfl, -, heff, -⟩ := exec_next hstep
  rw [State.complete_slot]
  exact heff.slot_shape hc hopen hclose

end Sys2Proof.Machine
end

section
/-! Which fields a response defines (10_state.md R25 to R28), and what the host's read of a field
does. -/

namespace Sys2Proof.Machine

open Sys2Proof.Safety

/-- A step with an illegal word pending completes with IllegalCommand (30_encoding.md R78). -/
theorem step_of_illegal {s : State} {r : Request} (hr : s.req = some r)
    (hd : decode r.cmd = none) : step s = .next s.illegal := by
  simp [step, hr, hd]

/-- A pending request completes with a response its command may give, or, for an illegal word, with
IllegalCommand. -/
theorem step_response_cases {s t : State} {r : Request} (hr : s.req = some r)
    (hstep : step s = .next t) :
    ∃ rsp, t.resp = some rsp ∧
      ((∃ i, decode r.cmd = some i ∧ MayAnswer i rsp) ∨
        (decode r.cmd = none ∧ rsp = failResponse .illegalCommand)) := by
  cases hd : decode r.cmd with
  | some i =>
    rw [step_of_decode hr hd] at hstep
    obtain ⟨r', -, rsp, u, rfl, hans, -⟩ := exec_next hstep
    exact ⟨rsp, u.complete_resp rsp, .inl ⟨i, rfl, hans⟩⟩
  | none =>
    rw [step_of_illegal hr hd] at hstep
    cases hstep
    exact ⟨failResponse .illegalCommand, rfl, .inr ⟨rfl, rfl⟩⟩

/-- A host read of a field that holds a value changes nothing (10_state.md R28). -/
theorem hostStep_readField_of_has {s : State} {f : Field} {rsp : Response}
    (hrsp : s.resp = some rsp) (hf : rsp.has f = true) : hostStep s (.readField f) = .next s := by
  simp [hostStep, hrsp, hf]

/-- A host read of a field that holds no value, or before the first response, is a fault of the
model (10_state.md R28). -/
theorem hostStep_readField_of_absent {s : State} {f : Field}
    (hf : ∀ rsp, s.resp = some rsp → rsp.has f = false) :
    hostStep s (.readField f) = .fault (.absentField f) := by
  cases hrsp : s.resp with
  | none => simp [hostStep, hrsp]
  | some rsp => simp [hostStep, hrsp, hf rsp hrsp]

/-- With no request pending a step takes the host's next action. -/
theorem step_of_host {s : State} {a : HostAction} {rest : List HostAction} (hr : s.req = none)
    (hh : s.host = a :: rest) : step s = hostStep { s with host := rest } a := by
  simp [step, hr, hh]

/-- Settles O55: the fields of each response, then the host's read of one. -/
theorem responseFieldsAreDefinedAsTheRulesSay :
    Obligations.ResponseFieldsAreDefinedAsTheRulesSay := by
  refine ⟨fun s t r hr hstep => ?_, fun s f rest hr hh => ?_⟩
  · obtain ⟨rsp, hrsp, ⟨i, hd, hans⟩ | ⟨hd, rfl⟩⟩ := step_response_cases hr hstep
    · refine ⟨rsp, hrsp, hans.einfo, ?_, hans.badChar, hans.onFail, hans.plainFail⟩
      intro i' hd'
      cases hd.symm.trans hd'
      exact hans.onOk
    · exact ⟨_, hrsp, by simp [failResponse], by simp [hd], by simp [failResponse],
        fun _ => ⟨rfl, rfl⟩, fun _ _ => rfl⟩
  · rw [step_of_host hr hh]
    exact ⟨fun rsp hrsp hf => hostStep_readField_of_has hrsp hf,
      hostStep_readField_of_absent (s := { s with host := rest })⟩

end Sys2Proof.Machine
end

section
/-! What a command reads of its request (10_state.md R21, R23). A meaning reaches its request by
`withRequest` alone and ends in `State.complete`, which drops it. So the next states of two requests
are the same term once the operands the command names are. -/

namespace Sys2Proof.Machine

open Sys2Proof.Safety

/-- The search for a zero byte depends on MEM alone (43_cursor_read.md R198). -/
theorem State.findZero_congr {s s' : State} (h : ∀ a, s.readByte a = s'.readByte a) (a n : Nat) :
    s.findZero a n = s'.findZero a n := by
  induction n generalizing a with
  | zero => rfl
  | succ n ih => simp only [State.findZero, h, ih]

section
variable (s : State) {r r' : Request} (k : Nat)

/-- RD.CSTR names no operand. -/
theorem execRdCstr_req_congr :
    execRdCstr k { s with req := some r } = execRdCstr k { s with req := some r' } := by
  have hzero (a n : Nat) : ({ s with req := some r } : State).findZero a n =
      ({ s with req := some r' } : State).findZero a n :=
    State.findZero_congr (by intro x; rfl) a n
  simp only [execRdCstr, withRequest, hzero]
  rfl

/-- A numeric read names no operand. -/
theorem readNum_req_congr (ty : NumType) (o : Order) :
    readNum ty k o { s with req := some r } = readNum ty k o { s with req := some r' } := rfl

/-- The value a numeric write stores is what `sameOperands` compares (10_state.md R23). -/
theorem writeValue_eq_of_sameOperands {ty : NumType} {o : Order}
    (h : sameOperands (writeInstr ty k o) r r') : writeValue ty r.din = writeValue ty r'.din := by
  have hdin : r.din.toNat % 256 ^ numWidth ty = r'.din.toNat % 256 ^ numWidth ty := by
    cases ty <;> exact h rfl
  simpa only [writeValue, Nat.pow_mul] using hdin

/-- A numeric write names the low 8W bits of DIN and no other operand (10_state.md R23). -/
theorem writeNum_req_congr {ty : NumType} {o : Order}
    (h : sameOperands (writeInstr ty k o) r r') :
    writeNum ty k o { s with req := some r } = writeNum ty k o { s with req := some r' } := by
  simp only [writeNum, withRequest, writeValue_eq_of_sameOperands k h]
  rfl

end

/-- Requests that agree on the operands a command names give one outcome (10_state.md R21). -/
theorem exec_req_congr {i : Instr} (s : State) {r r' : Request} (h : sameOperands i r r') :
    exec i { s with req := some r } = exec i { s with req := some r' } := by
  obtain ⟨cmd, a0, a1, din, ipay⟩ := r
  obtain ⟨cmd', a0', a1', din', ipay'⟩ := r'
  cases i
  case b32Enclen | b32Declen | curSetpos | rdBytes | rdSlice | rdStr =>
    obtain rfl : a0 = a0' := h
    rfl
  case b32Encode | b32Decode | b32Decodep =>
    obtain ⟨rfl, rfl⟩ : a0 = a0' ∧ ipay = ipay' := h
    rfl
  case b32Strip | wrBytes =>
    obtain rfl : ipay = ipay' := h
    rfl
  case curOpenr | curOpenw =>
    obtain ⟨rfl, rfl⟩ : a0 = a0' ∧ a1 = a1' := h
    rfl
  case curGetpos | curRem | curClose => rfl
  case rdU8 k o => exact readNum_req_congr s k .u8 o
  case rdI8 k o => exact readNum_req_congr s k .i8 o
  case rdU16 k o => exact readNum_req_congr s k .u16 o
  case rdI16 k o => exact readNum_req_congr s k .i16 o
  case rdU32 k o => exact readNum_req_congr s k .u32 o
  case rdI32 k o => exact readNum_req_congr s k .i32 o
  case rdU64 k o => exact readNum_req_congr s k .u64 o
  case rdI64 k o => exact readNum_req_congr s k .i64 o
  case rdU128 k o => exact readNum_req_congr s k .u128 o
  case rdI128 k o => exact readNum_req_congr s k .i128 o
  case rdF32 k o => exact readNum_req_congr s k .f32 o
  case rdF64 k o => exact readNum_req_congr s k .f64 o
  case rdCstr k => exact execRdCstr_req_congr s k
  case wrU8 k o => exact writeNum_req_congr s k (ty := .u8) h
  case wrI8 k o => exact writeNum_req_congr s k (ty := .i8) h
  case wrU16 k o => exact writeNum_req_congr s k (ty := .u16) h
  case wrI16 k o => exact writeNum_req_congr s k (ty := .i16) h
  case wrU32 k o => exact writeNum_req_congr s k (ty := .u32) h
  case wrI32 k o => exact writeNum_req_congr s k (ty := .i32) h
  case wrU64 k o => exact writeNum_req_congr s k (ty := .u64) h
  case wrI64 k o => exact writeNum_req_congr s k (ty := .i64) h
  case wrU128 k o => exact writeNum_req_congr s k (ty := .u128) h
  case wrI128 k o => exact writeNum_req_congr s k (ty := .i128) h
  case wrF32 k o => exact writeNum_req_congr s k (ty := .f32) h
  case wrF64 k o => exact writeNum_req_congr s k (ty := .f64) h

/-- No request is pending after a command (10_state.md R21). -/
theorem exec_req_none {i : Instr} {s t : State} (h : exec i s = .next t) : t.req = none := by
  obtain ⟨r, -, rsp, u, rfl, -⟩ := exec_next h
  exact u.complete_req rsp

/-- Settles O58: the operands a command names decide its outcome, and completion drops them. -/
theorem unnamedRequestFieldsAreIgnored : Obligations.UnnamedRequestFieldsAreIgnored :=
  ⟨fun _ s _ _ h => exec_req_congr s h, fun _ _ _ h => exec_req_none h⟩

end Sys2Proof.Machine
end

section
/-! Which words are reserved (30_encoding.md R75 to R79). A word is its five fields, so a match with
a row of the opcode map is a condition on each field by itself: OPC is the row's, and the fields the
row's group does not use are zero. -/

namespace Sys2Proof.Machine

open Sys2Proof.Safety

/-! ## A word is its fields (30_encoding.md R70) -/

theorem slotField_eq_zero_iff {w : CmdWord} : slotField w = 0 ↔ w.extractLsb' 8 4 = 0#4 :=
  BitVec.toNat_inj (y := 0#4)

theorem cmdWord_eq_iff_fields {w v : CmdWord} :
    w = v ↔ opcField w = opcField v ∧ w.extractLsb' 8 4 = v.extractLsb' 8 4 ∧
      ordField w = ordField v ∧ encField w = encField v ∧ rsvField w = rsvField v := by
  refine ⟨fun h => h ▸ ⟨rfl, rfl, rfl, rfl, rfl⟩, fun ⟨hopc, hslot, hord, henc, hrsv⟩ => ?_⟩
  simp only [opcField, ordField, encField, rsvField, ← BitVec.toNat_inj,
    BitVec.extractLsb'_toNat, Nat.shiftRight_eq_div_pow] at *
  omega

theorem opcField_and (w m : CmdWord) : opcField (w &&& m) = opcField w &&& opcField m :=
  BitVec.extractLsb'_and

theorem ordField_and (w m : CmdWord) : ordField (w &&& m) = ordField w &&& ordField m :=
  BitVec.extractLsb'_and

theorem encField_and (w m : CmdWord) : encField (w &&& m) = encField w &&& encField m :=
  BitVec.extractLsb'_and

theorem rsvField_and (w m : CmdWord) : rsvField (w &&& m) = rsvField w &&& rsvField m :=
  BitVec.extractLsb'_and

/-- A field under a mask that holds all of it or none of it. -/
theorem and_mask_eq_zero_iff {n : Nat} (x : BitVec n) (p : Prop) [Decidable p] :
    (x &&& if p then BitVec.allOnes n else 0#n) = 0#n ↔ (p → x = 0#n) := by
  by_cases hp : p <;> simp [hp]

/-! ## Rows of the opcode map -/

/-- A match value of the opcode map is its OPC alone (30_encoding.md R77). -/
theorem opcodeRows_pattern_fields : ∀ row ∈ opcodeRows,
    row.pattern.extractLsb' 8 4 = 0#4 ∧ ordField row.pattern = 0#2 ∧
      encField row.pattern = 0#2 ∧ rsvField row.pattern = 0#16 := by
  decide

theorem mem_codecOpcodes_iff_group : ∀ row ∈ opcodeRows,
    (opcField row.pattern).toNat ∈ codecOpcodes ↔ row.group = .codec := by
  decide

theorem mem_numericOpcodes_iff_group : ∀ row ∈ opcodeRows,
    (opcField row.pattern).toNat ∈ numericOpcodes ↔ row.group = .numeric := by
  decide

theorem opcodeRows_opcode_listed : ∀ row ∈ opcodeRows,
    (opcField row.pattern).toNat ∈ codecOpcodes ++ numericOpcodes ++ plainCursorOpcodes := by
  decide

theorem exists_row_of_listed_opcode :
    ∀ c ∈ codecOpcodes ++ numericOpcodes ++ plainCursorOpcodes,
      ∃ row ∈ opcodeRows, (opcField row.pattern).toNat = c := by
  decide

/-- The masks of 30_encoding.md R77 by field: every mask fixes OPC, ENC and RSV, only the codec's
fixes SLOT, and all but the numeric one fix ORD. -/
theorem groupMask_fields (g : Group) :
    opcField g.mask = BitVec.allOnes 8 ∧
      g.mask.extractLsb' 8 4 = (if g = .codec then BitVec.allOnes 4 else 0#4) ∧
      ordField g.mask = (if g ≠ .numeric then BitVec.allOnes 2 else 0#2) ∧
      encField g.mask = BitVec.allOnes 2 ∧ rsvField g.mask = BitVec.allOnes 16 := by
  cases g <;> decide

/-- The field use of 30_encoding.md R77, as what a match with a row asks of each field. -/
theorem matches_iff_fields {row : Row} (hrow : row ∈ opcodeRows) {w : CmdWord} :
    row.matches w = true ↔ opcField w = opcField row.pattern ∧
      (row.group = .codec → slotField w = 0) ∧ (row.group ≠ .numeric → ordField w = 0#2) ∧
      encField w = 0#2 ∧ rsvField w = 0#16 := by
  obtain ⟨hslot, hord, henc, hrsv⟩ := opcodeRows_pattern_fields row hrow
  obtain ⟨mopc, mslot, mord, menc, mrsv⟩ := groupMask_fields row.group
  rw [Row.matches, beq_iff_eq, cmdWord_eq_iff_fields, opcField_and, BitVec.extractLsb'_and,
    ordField_and, encField_and, rsvField_and, mopc, mslot, mord, menc, mrsv, hslot, hord, henc, hrsv]
  simp only [BitVec.and_allOnes, and_mask_eq_zero_iff, slotField_eq_zero_iff]

/-! ## The decoder's answer (30_encoding.md R78) -/

theorem orderOfField_eq_none_iff : ∀ o : BitVec 2, orderOfField o = none ↔ o = 3#2 := by
  decide

theorem decode_eq_none_iff {w : CmdWord} :
    decode w = none ↔ (∀ row ∈ opcodeRows, ¬ row.matches w = true) ∨ ordField w = 3#2 := by
  rw [← orderOfField_eq_none_iff, ← List.find?_eq_none, decode]
  cases opcodeRows.find? (·.matches w) <;> cases orderOfField (ordField w) <;> simp

/-- The illegal words are the reserved encodings (30_encoding.md R78, R79). -/
theorem decode_eq_none_iff_reserved (w : CmdWord) : decode w = none ↔ ReservedWord w := by
  rw [decode_eq_none_iff, ReservedWord]
  constructor
  · rintro (hno | hord)
    · by_contra hlegal
      push Not at hlegal
      obtain ⟨hlisted, -, hslot, hord, henc, hrsv⟩ := hlegal
      obtain ⟨row, hrow, hopc⟩ := exists_row_of_listed_opcode _ hlisted
      rw [← hopc, mem_codecOpcodes_iff_group row hrow] at hslot
      rw [← hopc, mem_numericOpcodes_iff_group row hrow] at hord
      exact hno row hrow
        ((matches_iff_fields hrow).2 ⟨(BitVec.eq_of_toNat_eq hopc).symm, hslot, hord, henc, hrsv⟩)
    · exact .inr (.inl hord)
  · intro hres
    by_contra hlegal
    push Not at hlegal
    obtain ⟨⟨row, hrow, hm⟩, hord3⟩ := hlegal
    obtain ⟨hopc, hslot, hord, henc, hrsv⟩ := (matches_iff_fields hrow).1 hm
    rw [hopc, mem_codecOpcodes_iff_group row hrow, mem_numericOpcodes_iff_group row hrow] at hres
    obtain h | h | ⟨h, h'⟩ | ⟨h, h'⟩ | h | h := hres
    · exact h (opcodeRows_opcode_listed row hrow)
    · exact hord3 h
    · exact h' (hslot h)
    · exact h' (hord h)
    · exact h henc
    · exact h hrsv

/-- Settles O11: a word matches a row exactly when no field of it is reserved, and the completion of
an illegal word writes nothing but the response and the history. -/
theorem reservedWordsAreIllegalAndChangeNothing :
    Obligations.ReservedWordsAreIllegalAndChangeNothing :=
  ⟨decode_eq_none_iff_reserved, fun s _ hr hres =>
    ⟨s.illegal, step_of_illegal hr ((decode_eq_none_iff_reserved _).2 hres),
      rfl, rfl, rfl, rfl, rfl, rfl, rfl, rfl⟩⟩

/-- Settles O7: the decoder run on each of the eight words. -/
theorem exampleWordsDecodeAsTheSpecSays : Obligations.ExampleWordsDecodeAsTheSpecSays :=
  ⟨by decide, by decide, by decide, by decide, by decide, by decide, by decide, by decide⟩

end Sys2Proof.Machine
end

section
/-! What the six codec commands share: the word that selects each of them (30_encoding.md R76, R77),
the alphabet (41_base32.md section 1), and what a meaning answers once its request and payload are
known (41_base32.md section 2). -/

namespace Sys2Proof.Machine

open Sys2Proof.Safety

/-! ## The words -/

/-- What the decoder reads comes from a row that matches (30_encoding.md R78). -/
theorem decode_eq_some {w : CmdWord} {i : Instr} (h : decode w = some i) :
    ∃ row ∈ opcodeRows, row.matches w = true ∧ ∃ o, row.build (slotField w) o = i := by
  unfold decode at h
  split at h
  · cases h
  · next row hrow =>
    split at h
    · cases h
    · next o ho =>
      have hm : row.matches w = true := List.find?_some (p := fun row => Row.matches row w) hrow
      exact ⟨row, List.mem_of_find?_eq_some hrow, hm, o, Option.some.inj h⟩

/-- A row that builds a codec command is of the codec group, and its match value is the command's
word. -/
theorem codec_row_of_build : ∀ row ∈ opcodeRows, ∀ k o, isCodec (row.build k o) = true →
    row.group = .codec ∧ row.pattern = encode (row.build k o) := by
  simp [opcodeRows, codecRows, controlRows, numericReadRows, rangeReadRows, numericWriteRows,
    rangeWriteRows, isCodec, encode, bareWord, cmdWord]

theorem decode_encode_of_isCodec {i : Instr} (hi : isCodec i = true) :
    decode (encode i) = some i := by
  cases i
  case b32Enclen | b32Declen | b32Encode | b32Decode | b32Strip | b32Decodep => decide
  all_goals cases hi

/-- A codec command's row fixes every bit of the word (30_encoding.md R77): one word selects it. -/
theorem selectedByWord_encode {i : Instr} (hi : isCodec i = true) :
    SelectedByWord (encode i) i := by
  intro v
  constructor
  · intro hv
    obtain ⟨row, hrow, hm, o, rfl⟩ := decode_eq_some hv
    obtain ⟨hgroup, hpattern⟩ := codec_row_of_build row hrow _ o hi
    rw [Row.matches, beq_iff_eq, hgroup, hpattern] at hm
    rw [← hm]
    exact BitVec.and_allOnes.symm
  · rintro rfl
    exact decode_encode_of_isCodec hi

/-! ## The alphabet (41_base32.md R101, R102) -/

theorem charToValue_of_letter {c : Nat} (h : 0x41 ≤ c ∧ c ≤ 0x5A) :
    charToValue c = some (c - 0x41) :=
  if_pos h

theorem charToValue_of_digit {c : Nat} (h : 0x32 ≤ c ∧ c ≤ 0x37) :
    charToValue c = some (c - 0x32 + 26) :=
  have hl : ¬ (0x41 ≤ c ∧ c ≤ 0x5A) := by omega
  (if_neg hl).trans (if_pos h)

theorem charToValue_of_other {c : Nat} (hl : ¬ (0x41 ≤ c ∧ c ≤ 0x5A))
    (hd : ¬ (0x32 ≤ c ∧ c ≤ 0x37)) : charToValue c = none :=
  (if_neg hl).trans (if_neg hd)

theorem alphabet_of_le {v : Nat} (h : v ≤ 25) : alphabet v = 0x41 + v := if_pos h

theorem alphabet_of_lt {v : Nat} (h : 25 < v) : alphabet v = 0x32 + (v - 26) :=
  if_neg (Nat.not_le.2 h)

theorem charToValue_alphabet {v : Nat} (h : v < 32) : charToValue (alphabet v) = some v := by
  rcases Nat.lt_or_ge 25 v with hv | hv
  · rw [alphabet_of_lt hv, charToValue_of_digit (by omega)]
    congr 1
    omega
  · rw [alphabet_of_le hv, charToValue_of_letter (by omega)]
    congr 1
    omega

theorem alphabet_of_charToValue {c v : Nat} (h : charToValue c = some v) :
    v < 32 ∧ alphabet v = c := by
  by_cases hl : 0x41 ≤ c ∧ c ≤ 0x5A
  · rw [charToValue_of_letter hl] at h
    cases h
    have hc : 0x41 + (c - 0x41) = c := by omega
    exact ⟨by omega, (alphabet_of_le (by omega)).trans hc⟩
  by_cases hd : 0x32 ≤ c ∧ c ≤ 0x37
  · rw [charToValue_of_digit hd] at h
    cases h
    have hc : 0x32 + (c - 0x32 + 26 - 26) = c := by omega
    exact ⟨by omega, (alphabet_of_lt (by omega)).trans hc⟩
  · rw [charToValue_of_other hl hd] at h
    cases h

/-- Settles O12: both tables by their ranges, which do not meet. -/
theorem alphabetAndValuesAreInverse : Obligations.AlphabetAndValuesAreInverse :=
  ⟨fun _ h h' => charToValue_of_letter ⟨h, h'⟩, fun _ h h' => charToValue_of_digit ⟨h, h'⟩,
    fun _ => charToValue_of_other, fun _ => alphabet_of_le, fun _ h _ => alphabet_of_lt h,
    fun _ => charToValue_alphabet, fun _ _ => alphabet_of_charToValue⟩

/-! ## Completion -/

/-- A meaning that only completes writes nothing but the response and the history. -/
theorem answers_of_exec_complete {s : State} {i : Instr} {r : Response}
    (h : exec i s = .next (s.complete r)) : Answers s i r :=
  ⟨s.complete r, h, rfl, rfl, rfl, rfl, rfl, rfl, fun _ => rfl, fun _ => rfl⟩

theorem fails_of_exec_fail {s : State} {i : Instr} {st : Status}
    (h : exec i s = .next (s.fail st)) : Fails s i st :=
  answers_of_exec_complete h

theorem zext128_toNat {n : Nat} (h : n < 2 ^ 128) : (zext128 n).toNat = n :=
  (BitVec.toNat_ofNat n 128).trans (Nat.mod_eq_of_lt h)

theorem toNat_toInt_lt (a : Word64) : a.toInt.toNat < 2 ^ 63 := by
  have h : a.toInt < 2 ^ 63 := BitVec.toInt_lt
  omega

/-! ## The meanings, once the request is known -/

theorem withBytes_of_ipay {s : State} {r : Request} {bs : List Byte} (hp : r.ipay = .bytes bs)
    (hl : bs.length ≤ lenMax) (f : List Byte → Result) : withBytes s r f = f bs := by
  simp [withBytes, hp, Payload.fits, Payload.length, hl]

theorem withChars_of_ipay {s : State} {r : Request} {cs : List CodeUnit} (hp : r.ipay = .chars cs)
    (hf : (Payload.chars cs).fits s.cfg = true) (f : List CodeUnit → Result) :
    withChars s r f = f cs := by
  simp [withChars, hp, hf]

/-- A text that fits has at most LEN_MAX units (10_state.md R24). -/
theorem length_le_of_fits {c : Config} {cs : List CodeUnit} (h : (Payload.chars cs).fits c = true) :
    cs.length ≤ lenMax := by
  rw [Payload.fits, Bool.and_eq_true, decide_eq_true_iff] at h
  exact h.1

theorem capTooSmall_eq_false {a : Word64} {n : Nat} (h : (n : Int) ≤ a.toInt) :
    ¬ capTooSmall a n = true := by
  rw [capTooSmall_iff]
  omega

/-- The size commands (41_base32.md R106, R107): a negative count fails, and any other is answered
by its size. -/
theorem sizeCommand_spec {s : State} {r : Request} {i : Instr} {size : Nat → Nat}
    (hexec : exec i s = sizeCommand s size) (hr : s.req = some r)
    (hsize : size r.a0.toInt.toNat < 2 ^ 128) :
    (r.a0.toInt < 0 → Fails s i .invalidArgument) ∧
    (0 ≤ r.a0.toInt → ∃ v : Word128, v.toNat = size r.a0.toInt.toNat ∧
      Answers s i { status := .ok, dout := some v }) := by
  rw [sizeCommand, withRequest_of_req hr] at hexec
  refine ⟨fun hneg => fails_of_exec_fail ?_, fun hpos => ⟨_, zext128_toNat hsize, ?_⟩⟩
  · rw [hexec]
    exact congrArg Host.Outcome.next (if_pos hneg)
  · refine answers_of_exec_complete ?_
    rw [hexec]
    exact congrArg Host.Outcome.next (if_neg (Int.not_lt.2 hpos))

/-- Settles O13: the size of the largest count fits DOUT. -/
theorem enclenGivesTheEncodedSize : Obligations.EnclenGivesTheEncodedSize := by
  refine ⟨selectedByWord_encode (i := .b32Enclen) rfl, fun s r hr => ?_⟩
  refine sizeCommand_spec (size := encodedLength) rfl hr ?_
  have := toNat_toInt_lt r.a0
  unfold encodedLength
  omega

/-- Settles O14: the size of the largest count fits DOUT. -/
theorem declenGivesTheDecodedSize : Obligations.DeclenGivesTheDecodedSize := by
  refine ⟨selectedByWord_encode (i := .b32Declen) rfl, fun s r hr => ?_⟩
  refine sizeCommand_spec (size := decodedLength) rfl hr ?_
  have := toNat_toInt_lt r.a0
  unfold decodedLength
  omega

end Sys2Proof.Machine
end

section
/-! The encoder's run (41_base32.md R116 to R122, R129). Every LOOP step emits one symbol, and the
bits loaded are the bits emitted and the bits held, until the flush; so the step count decides when
the loop ends. -/

namespace Sys2Proof.Machine

open Sys2Proof.Safety

/-! ## Counts -/

/-- The pad characters by n mod 5 (41_base32.md R122). -/
theorem padCount_eq (n : Nat) :
    encodedLength n - symbolCount n = [0, 6, 4, 3, 1].getD (n % 5) 0 := by
  obtain ⟨q, d, hd, rfl⟩ : ∃ q d, d < 5 ∧ n = 5 * q + d :=
    ⟨n / 5, n % 5, Nat.mod_lt n (by decide), (Nat.div_add_mod n 5).symm⟩
  rw [Nat.mul_add_mod, Nat.mod_eq_of_lt hd]
  unfold encodedLength symbolCount
  interval_cases d <;> simp only [List.getD_cons_zero, List.getD_cons_succ] <;> omega

theorem symbolCount_le_encodedLength (n : Nat) : symbolCount n ≤ encodedLength n := by
  unfold symbolCount encodedLength
  omega

theorem padCount_le (n : Nat) : encodedLength n - symbolCount n ≤ 6 := by
  unfold symbolCount encodedLength
  omega

/-! ## Steps -/

section
variable {w : Nat} {src : List Byte} {r : EncRegs w}

@[simp] theorem encFill_o : (encFill src r).o = r.o := by
  unfold encFill
  split
  · rfl
  · split <;> rfl

@[simp] theorem encFill_out : (encFill src r).out = r.out := by
  unfold encFill
  split
  · rfl
  · split <;> rfl

@[simp] theorem encFill_phase : (encFill src r).phase = r.phase := by
  unfold encFill
  split
  · rfl
  · split <;> rfl

@[simp] theorem encEmit_rem : (encEmit r).rem = r.rem - 5 := rfl
@[simp] theorem encEmit_i : (encEmit r).i = r.i := rfl
@[simp] theorem encEmit_o : (encEmit r).o = r.o + 1 := rfl
@[simp] theorem encEmit_phase : (encEmit r).phase = r.phase := rfl

/-- R120: the character emitted stands for the five bits at the top of ACC. -/
theorem encEmit_out : ∃ v, v < 32 ∧ (encEmit r).out = r.out ++ [alphabet v] := by
  refine ⟨_, ?_, rfl⟩
  rw [BitVec.toNat_and]
  have hmask : (BitVec.ofNat w 0x1F).toNat ≤ 31 :=
    (BitVec.toNat_ofNat 31 w).trans_le (Nat.mod_le 31 _)
  exact Nat.lt_succ_of_le (Nat.and_le_right.trans hmask)

/-- R120: with a bit held or a byte to load, a LOOP step emits. -/
theorem encStep_of_emit (hph : r.phase = .loop) (h : ¬ (r.rem = 0 ∧ r.i = src.length)) :
    encStep src r = encEmit (encFill src r) := by
  simp [encStep, hph, h]

/-- R117: with every byte loaded and no bit held, LOOP ends. -/
theorem encStep_of_spent (hph : r.phase = .loop) (h : r.rem = 0 ∧ r.i = src.length) :
    encStep src r = { r with phase := .pad } := by
  simp [encStep, hph, h]

theorem encStep_of_pad (hph : r.phase = .pad) : encStep src r = encPad src r := by
  simp [encStep, hph]

theorem encStep_of_done (hph : r.phase = .done) : encStep src r = r := by
  simp [encStep, hph]

theorem encSteps_of_done (hph : r.phase = .done) (k : Nat) : encSteps src k r = r := by
  induction k with
  | zero => rfl
  | succ k ih => rw [encSteps, encStep_of_done hph, ih]

theorem encSteps_add (a b : Nat) (r : EncRegs w) :
    encSteps src (a + b) r = encSteps src b (encSteps src a r) := by
  induction a generalizing r with
  | zero => rw [Nat.zero_add, encSteps]
  | succ a ih => rw [Nat.succ_add, encSteps, encSteps, ih]

theorem encSteps_rem_le (h : r.rem ≤ 12) (k : Nat) : (encSteps src k r).rem ≤ 12 := by
  induction k generalizing r with
  | zero => exact h
  | succ k ih => exact ih (encStep_rem_le h)

end

/-! ## The LOOP phase -/

/-- Every unit is an alphabet character. -/
def IsSymbols (out : List CodeUnit) : Prop := ∀ c ∈ out, ∃ v, v < 32 ∧ c = alphabet v

/-- What holds in LOOP over n bytes: the bits held and emitted are those loaded, up to the flush,
which comes with the last symbol. -/
structure EncLoop {w : Nat} (n : Nat) (r : EncRegs w) : Prop where
  phase : r.phase = .loop
  loaded : r.i ≤ n
  written : r.out.length = r.o
  symbols : IsSymbols r.out
  bits : r.rem + 5 * r.o = 8 * r.i ∨ (r.i = n ∧ r.rem = 0 ∧ r.o = symbolCount n)

section
variable {w : Nat} {src : List Byte} {r : EncRegs w}

theorem encLoop_start (hsrc : src ≠ []) : EncLoop src.length (encStart w src) where
  phase := rfl
  loaded := List.length_pos_iff.2 hsrc
  written := rfl
  symbols := fun _ hc => absurd hc List.not_mem_nil
  bits := .inl rfl

theorem EncLoop.not_spent {n : Nat} (h : EncLoop n r) (ho : r.o < symbolCount n) :
    ¬ (r.rem = 0 ∧ r.i = n) := by
  have hbits := h.bits
  unfold symbolCount at *
  omega

theorem EncLoop.spent {n : Nat} (h : EncLoop n r) (ho : r.o = symbolCount n) :
    r.rem = 0 ∧ r.i = n := by
  have hbits := h.bits
  have hloaded := h.loaded
  unfold symbolCount at *
  omega

/-- The load and the flush keep the count of bits right for the symbol that is emitted next. -/
theorem EncLoop.fill (h : EncLoop src.length r) (ho : r.o < symbolCount src.length) :
    (encFill src r).i ≤ src.length ∧
      ((encFill src r).rem - 5 + 5 * (r.o + 1) = 8 * (encFill src r).i ∨
        ((encFill src r).i = src.length ∧ (encFill src r).rem - 5 = 0 ∧
          r.o + 1 = symbolCount src.length)) := by
  have hbits := h.bits
  have hloaded := h.loaded
  rcases Nat.lt_or_ge r.rem 5 with hrem | hrem
  · by_cases hi : r.i < src.length
    · rw [encFill_of_load ⟨hrem, hi⟩]
      exact ⟨hi, .inl (by dsimp only; omega)⟩
    · rw [encFill_of_flush hrem hi]
      exact ⟨hloaded, .inr ⟨by dsimp only; omega, rfl, by unfold symbolCount at *; omega⟩⟩
  · rw [encFill_of_five_le hrem]
    exact ⟨hloaded, .inl (by omega)⟩

/-- R122: a LOOP step emits one symbol. -/
theorem EncLoop.step (h : EncLoop src.length r) (ho : r.o < symbolCount src.length) :
    EncLoop src.length (encStep src r) ∧ (encStep src r).o = r.o + 1 := by
  obtain ⟨hloaded, hbits⟩ := h.fill ho
  obtain ⟨v, hv, hout⟩ := encEmit_out (r := encFill src r)
  rw [encStep_of_emit h.phase (h.not_spent ho)]
  rw [encFill_out] at hout
  refine ⟨⟨?_, hloaded, ?_, ?_, ?_⟩, ?_⟩
  · rw [encEmit_phase, encFill_phase, h.phase]
  · rw [hout, List.length_append, h.written, encEmit_o, encFill_o, List.length_singleton]
  · rw [hout]
    intro c hc
    rcases List.mem_append.1 hc with hc | hc
    · exact h.symbols c hc
    · exact ⟨v, hv, List.mem_singleton.1 hc⟩
  · rw [encEmit_rem, encEmit_o, encEmit_i, encFill_o]
    exact hbits
  · rw [encEmit_o, encFill_o]

theorem EncLoop.steps {k : Nat} (h : EncLoop src.length r)
    (hk : r.o + k ≤ symbolCount src.length) :
    EncLoop src.length (encSteps src k r) ∧ (encSteps src k r).o = r.o + k := by
  induction k generalizing r with
  | zero => exact ⟨h, rfl⟩
  | succ k ih =>
    obtain ⟨hstep, ho⟩ := h.step (by omega)
    obtain ⟨hsteps, ho'⟩ := ih hstep (by omega)
    exact ⟨hsteps, by rw [encSteps, ho', ho]; omega⟩

/-- The first `symbolCount` steps, each one a symbol (R122). -/
theorem encLoop_of_le {k : Nat} (hsrc : src ≠ []) (hk : k ≤ symbolCount src.length) :
    EncLoop src.length (encSteps src k (encStart w src)) ∧
      (encSteps src k (encStart w src)).o = k := by
  obtain ⟨hloop, ho⟩ := (encLoop_start (w := w) hsrc).steps (k := k)
    ((Nat.zero_add k).trans_le hk)
  exact ⟨hloop, ho.trans (Nat.zero_add k)⟩

/-! ## The PAD phase -/

/-- At DONE, with p pad characters written to what r had. -/
structure EncDone (src : List Byte) (p : Nat) (r d : EncRegs w) : Prop where
  phase : d.phase = .done
  written : d.o = encodedLength src.length
  out : d.out = r.out ++ List.replicate p padChar

/-- R121: with at most one pad character to write, a PAD step is the last. -/
theorem encPad_last {p : Nat} (hp : p ≤ 1) (ho : r.o + p = encodedLength src.length) :
    EncDone src p r (encPad src r) := by
  unfold encPad
  rcases Nat.le_one_iff_eq_zero_or_eq_one.1 hp with rfl | rfl
  · rw [if_neg (by omega)]
    exact ⟨rfl, ho, (List.append_nil _).symm⟩
  · rw [if_pos (by omega)]
    exact ⟨if_neg (by omega), ho, rfl⟩

/-- R121: with more to write, a PAD step writes one pad character and stays in PAD. -/
theorem encPad_more (ho : r.o + 1 < encodedLength src.length) :
    encPad src r = { r with out := r.out ++ [padChar], o := r.o + 1, phase := .pad } := by
  simp [encPad, ho, Nat.lt_of_succ_lt ho]

theorem encSteps_of_pad {p k : Nat} (hph : r.phase = .pad)
    (ho : r.o + p = encodedLength src.length) (hk : p ≤ k + 1) :
    EncDone src p r (encSteps src (k + 1) r) := by
  induction k generalizing r p with
  | zero =>
    rw [encSteps, encStep_of_pad hph]
    exact encPad_last hk ho
  | succ k ih =>
    rw [encSteps, encStep_of_pad hph]
    rcases Nat.lt_or_ge 1 p with hp | hp
    · obtain ⟨q, rfl⟩ := Nat.exists_eq_add_of_lt hp
      rw [encPad_more (by omega)]
      obtain ⟨hdone, hwritten, hout⟩ := ih (p := 1 + q)
        (r := { r with out := r.out ++ [padChar], o := r.o + 1, phase := .pad }) rfl
        (by dsimp only; omega) (by omega)
      refine ⟨hdone, hwritten, ?_⟩
      rw [hout, List.append_assoc, List.singleton_append, ← List.replicate_succ]
    · have hlast := encPad_last (r := r) hp ho
      rwa [encSteps_of_done hlast.phase]

/-- After the last symbol seven steps are enough: to PAD, and up to six pad characters (R122). -/
theorem EncLoop.finish (h : EncLoop src.length r) (ho : r.o = symbolCount src.length) :
    EncDone src (encodedLength src.length - symbolCount src.length) r (encSteps src 7 r) := by
  rw [encSteps, encStep_of_spent h.phase (h.spent ho)]
  have hpad := encSteps_of_pad (src := src) (r := { r with phase := .pad }) (k := 5) rfl
    (p := encodedLength src.length - symbolCount src.length)
    (by rw [ho]; exact Nat.add_sub_cancel' (symbolCount_le_encodedLength _)) (padCount_le _)
  exact ⟨hpad.phase, hpad.written, hpad.out⟩

/-! ## The whole run -/

/-- R122: the state at DONE is the one after the last symbol, with its pad characters written. -/
theorem encRun_done (hsrc : src ≠ []) :
    EncDone src (encodedLength src.length - symbolCount src.length)
      (encSteps src (symbolCount src.length) (encStart w src)) (encRun w src) := by
  obtain ⟨hloop, ho⟩ := encLoop_of_le (w := w) hsrc (Nat.le_refl _)
  rw [show encRun w src = encSteps src (symbolCount src.length + 7) (encStart w src) from rfl,
    encSteps_add]
  exact hloop.finish ho

end

/-- Settles O17: the invariant `EncLoop` up to the last symbol, then the seven steps to DONE. -/
theorem encoderStepAndSymbolCounts : Obligations.EncoderStepAndSymbolCounts := by
  intro src hsrc n total at_
  have hloop (k : Nat) (hk : k ≤ total) : EncLoop n (at_ k) ∧ (at_ k).o = k :=
    encLoop_of_le hsrc hk
  obtain ⟨hlast, ho⟩ := hloop total (Nat.le_refl _)
  obtain ⟨hrem, hi⟩ := hlast.spent ho
  have hrun : EncDone src (encodedLength n - total) (at_ total) (at_ (total + 7)) :=
    encRun_done hsrc
  refine ⟨fun k hk => ?_, rfl, hi, ho, hrem, hlast.phase, fun k => ?_, hrun.phase, hrun.written,
    ?_, padCount_eq n⟩
  · obtain ⟨hk', ho'⟩ := hloop k (Nat.le_of_lt hk)
    exact ⟨hk'.phase, hk'.not_spent (ho'.trans_lt hk), ho'⟩
  · have hk : (at_ k).rem ≤ 12 := encSteps_rem_le (r := encStart accW src) (by decide : 8 ≤ 12) k
    exact ⟨hk, encFill_rem_le hk⟩
  · rw [hrun.out]
    exact List.drop_left' (hlast.written.trans ho)

/-! ## B32.ENCODE -/

/-- What B32.ENCODE answers for a list of bytes: no bytes give the empty text and start no run
(41_base32.md R108). -/
def encodedText (bs : List Byte) : List CodeUnit :=
  if bs = [] then [] else (encRun accW bs).out

theorem encodedText_of_ne_nil {bs : List Byte} (h : bs ≠ []) :
    encodedText bs = (encRun accW bs).out := if_neg h

/-- R129: alphabet characters, then the pad characters. -/
theorem encodedText_eq (bs : List Byte) : ∃ symbols, symbols.length = symbolCount bs.length ∧
    IsSymbols symbols ∧ encodedText bs =
      symbols ++ List.replicate (encodedLength bs.length - symbolCount bs.length) padChar := by
  rcases eq_or_ne bs [] with rfl | h
  · exact ⟨[], rfl, fun _ hc => absurd hc List.not_mem_nil, rfl⟩
  · obtain ⟨hloop, ho⟩ := encLoop_of_le (w := accW) h (Nat.le_refl _)
    exact ⟨_, hloop.written.trans ho, hloop.symbols,
      (encodedText_of_ne_nil h).trans (encRun_done h).out⟩

theorem encodedText_length (bs : List Byte) :
    (encodedText bs).length = encodedLength bs.length := by
  obtain ⟨symbols, hlength, -, htext⟩ := encodedText_eq bs
  rw [htext, List.length_append, List.length_replicate, hlength]
  exact Nat.add_sub_cancel' (symbolCount_le_encodedLength _)

/-- B32.ENCODE's next state: the capacity check, then the text and its length. -/
theorem exec_b32Encode {s : State} {r : Request} {bs : List Byte} (hr : s.req = some r)
    (hp : r.ipay = .bytes bs) (hl : bs.length ≤ lenMax) :
    exec .b32Encode s = .next (if capTooSmall r.a0 (encodedLength bs.length)
      then s.fail .invalidArgument
      else s.complete (payloadResponse (zext128 (encodedText bs).length)
        (.chars (encodedText bs)))) := by
  rw [exec, execB32Encode, withRequest_of_req hr, withBytes_of_ipay hp hl]
  rcases eq_or_ne bs [] with rfl | h
  · rfl
  · rw [if_neg (mt List.length_eq_zero_iff.1 h), encodedText_of_ne_nil h]
    rfl

/-- Settles O15: the encoder reaches DONE with a text of `encodedLength` units, and that length fits
DOUT. -/
theorem encodeRunsTheEncoder : Obligations.EncodeRunsTheEncoder := by
  refine ⟨selectedByWord_encode (i := .b32Encode) rfl, fun s r bs hr hp hl =>
    ⟨fun hcap => fails_of_exec_fail ?_, fun hcap => ?_⟩⟩
  · rw [exec_b32Encode hr hp hl, if_pos (capTooSmall_iff.2 hcap)]
  · have hsize : (encodedText bs).length < 2 ^ 128 := by
      rw [encodedText_length]
      unfold encodedLength lenMax at *
      omega
    refine ⟨_, encodedText bs, (zext128_toNat hsize).trans (encodedText_length bs),
      encodedText_length bs, fun h => if_pos h,
      fun h => ⟨(encRun_done h).phase, encodedText_of_ne_nil h⟩, answers_of_exec_complete ?_⟩
    rw [exec_b32Encode hr hp hl, if_neg (capTooSmall_eq_false hcap)]
    rfl

/-- The only payload B32.ENCODE answers is the text of its bytes. -/
theorem exec_b32Encode_opay {s t : State} {r : Request} {bs : List Byte} {out : List CodeUnit}
    {rsp : Response} (hr : s.req = some r) (hp : r.ipay = .bytes bs)
    (h : exec .b32Encode s = .next t) (ht : t.resp = some rsp)
    (hout : rsp.opay = some (.chars out)) : out = encodedText bs := by
  obtain ⟨r', hr', hbytes⟩ := withRequest_eq_next.1 h
  cases hr.symm.trans hr'
  obtain ⟨bs', hp', hl, -⟩ := withBytes_eq_next.1 hbytes
  cases hp.symm.trans hp'
  rw [exec_b32Encode hr hp hl, Host.Outcome.next.injEq] at h
  subst h
  split at ht
  · cases ht
    cases hout
  · cases ht
    cases hout
    rfl

/-- Settles O18: the text is the LOOP phase's symbols and the PAD phase's pad characters. -/
theorem encodeOutputShape : Obligations.EncodeOutputShape := by
  refine ⟨fun s t r bs out rsp hr hp h ht hout => ?_, fun n => ?_⟩
  · cases exec_b32Encode_opay hr hp h ht hout
    obtain ⟨symbols, -, hsymbols, htext⟩ := encodedText_eq bs
    refine ⟨encodedText_length bs, ?_, symbols.length, ?_, ?_⟩
    · rw [encodedText_length]
      exact Nat.mul_mod_left _ 8
    · rw [htext, List.take_left]
      exact hsymbols
    · rw [htext, List.drop_left]
      exact fun c hc => List.eq_of_mem_replicate hc
  · rw [Nat.mul_comm n 8]
    exact symbolCount_le_encodedLength n

end Sys2Proof.Machine
end

section
/-! The decoder's run (41_base32.md R123 to R127) and the commands that strip and decode (R109 to
R111, R126). Every LOOP step takes in five bits, so the step count decides how many bytes are out
and how many bits are held. -/

namespace Sys2Proof.Machine

open Sys2Proof.Safety

/-! ## Steps -/

/-- What holds in LOOP after j characters: five bits for each, eight of them in each byte out. -/
structure DecLoop {w : Nat} (r : DecRegs w) : Prop where
  phase : r.phase = .loop
  held : r.rem = 5 * r.j % 8
  written : r.o = 5 * r.j / 8
  length : r.out.length = r.o

section
variable {w : Nat} {cs : List CodeUnit} {r : DecRegs w}

theorem decLoop_start : DecLoop (decStart w) :=
  ⟨rfl, rfl, (Nat.zero_div 8).symm, rfl⟩

/-- R124: taking in a character keeps the counts, whether or not it fills a byte. -/
theorem DecLoop.take (h : DecLoop r) (v : Nat) : DecLoop (decTake r v) := by
  obtain ⟨hphase, hheld, hwritten, hlength⟩ := h
  have hcounts : (decTake r v).rem = 5 * (r.j + 1) % 8 ∧ (decTake r v).o = 5 * (r.j + 1) / 8 ∧
      (decTake r v).out.length = (decTake r v).o := by
    unfold decTake
    dsimp only
    split
    · exact ⟨by dsimp only; omega, by dsimp only; omega, by simp [hlength]⟩
    · exact ⟨by dsimp only; omega, by dsimp only; omega, hlength⟩
  obtain ⟨hrem, ho, hout⟩ := hcounts
  exact ⟨(decTake_phase r v).trans hphase, by rw [hrem, decTake_j], by rw [ho, decTake_j], hout⟩

theorem decSteps_of_loop (hph : r.phase = .loop) {r' : DecRegs w} (hs : decStep cs r = .ok r')
    (k : Nat) : decSteps cs (k + 1) r = decSteps cs k r' := by
  simp only [decSteps, hph, hs]

/-- R125: over alphabet characters each LOOP step takes in one. -/
theorem DecLoop.steps (hcs : ∀ c ∈ cs, charToValue c ≠ none) {k : Nat} (m : Nat) (h : DecLoop r)
    (hk : r.j + k ≤ cs.length) :
    ∃ d, decSteps cs (k + m) r = decSteps cs m d ∧ DecLoop d ∧ d.j = r.j + k := by
  induction k generalizing r with
  | zero => exact ⟨r, by rw [Nat.zero_add], h, rfl⟩
  | succ k ih =>
    have hj : r.j < cs.length := by omega
    have hmem : cs.getD r.j 0 ∈ cs := by
      rw [List.getD_eq_getElem _ _ hj]
      exact List.getElem_mem hj
    obtain ⟨v, hv⟩ := Option.ne_none_iff_exists'.1 (hcs _ hmem)
    obtain ⟨d, hd, hloop, hdj⟩ := ih (h.take v) (by rw [decTake_j]; omega)
    refine ⟨d, ?_, hloop, by rw [hdj, decTake_j]; omega⟩
    rw [Nat.succ_add, decSteps_of_loop h.phase (decStep_of_value (Nat.ne_of_lt hj) hv), hd]

theorem decSteps_of_end (hph : r.phase = .loop) (hj : r.j = cs.length) :
    decSteps cs 1 r = .ok { r with phase := .done } := by
  rw [decSteps_of_loop hph (decStep_of_end hj), decSteps]

/-- R125: after k characters the decoder is in LOOP, with the counts of `DecLoop`. -/
theorem decLoop_of_le (hcs : ∀ c ∈ cs, charToValue c ≠ none) {k : Nat} (hk : k ≤ cs.length) :
    ∃ d, decSteps cs k (decStart w) = .ok d ∧ DecLoop d ∧ d.j = k := by
  obtain ⟨d, hd, hloop, hj⟩ := (decLoop_start (w := w)).steps hcs (k := k) 0
    ((Nat.zero_add k).trans_le hk)
  exact ⟨d, hd, hloop, hj.trans (Nat.zero_add k)⟩

/-- R125: the run's last step leaves LOOP and moves nothing else. -/
theorem decRun_of_alphabet (hcs : ∀ c ∈ cs, charToValue c ≠ none) :
    ∃ d : DecRegs w, decRun w cs = .ok { d with phase := .done } ∧ DecLoop d ∧
      d.j = cs.length := by
  obtain ⟨d, hd, hloop, hj⟩ := (decLoop_start (w := w)).steps hcs (k := cs.length) 1
    (Nat.zero_add cs.length).le
  have hj : d.j = cs.length := hj.trans (Nat.zero_add _)
  exact ⟨d, hd.trans (decSteps_of_end hloop.phase hj), hloop, hj⟩

/-- R127: the number of bytes out is that of the whole groups of eight bits. -/
theorem DecLoop.length_out (h : DecLoop r) (hj : r.j = cs.length) :
    r.out.length = decodedLength cs.length := by
  rw [h.length, h.written, hj, Nat.mul_comm]
  rfl

/-- R126: the run stops at the first character outside the alphabet. -/
theorem decRun_of_first_bad {j : Nat} {c : CodeUnit} (hj : cs[j]? = some c)
    (hc : charToValue c = none) (hfirst : ∀ i, i < j → charToValue (cs.getD i 0) ≠ none) :
    decRun w cs = .error { char := c, index := j } := by
  obtain ⟨hlt, -⟩ := List.getElem?_eq_some_iff.1 hj
  have hget : cs.getD j 0 = c := by rw [List.getD_eq_getElem?_getD, hj, Option.getD_some]
  obtain ⟨d, -, -, hall⟩ | ⟨e, he, -, hchar, hbad, hbefore⟩ := decRun_cases (w := w) cs
  · exact absurd (hget ▸ hc) (hall j hlt)
  · have hindex : e.index = j := by
      rcases Nat.lt_trichotomy e.index j with h | h | h
      · exact absurd (hchar ▸ hbad) (hfirst _ h)
      · exact h
      · exact absurd (hget ▸ hc) (hbefore _ h)
    rw [he, ← hget, ← hindex, hchar]

end

/-- The bits left over by n mod 8 (41_base32.md R127). -/
theorem leftoverBits_eq (n : Nat) : 5 * n % 8 = [0, 5, 2, 7, 4, 1, 6, 3].getD (n % 8) 0 := by
  have hmod : 5 * n % 8 = 5 * (n % 8) % 8 := by omega
  have htable : ∀ d, d < 8 → 5 * d % 8 = [0, 5, 2, 7, 4, 1, 6, 3].getD d 0 := by decide
  rw [hmod, htable _ (Nat.mod_lt n (by decide))]

/-- Settles O22: the invariant `DecLoop` gives every count. -/
theorem decoderStepAndLeftoverCounts : Obligations.DecoderStepAndLeftoverCounts := by
  refine fun cs hcs => ⟨fun k hk => ?_, ?_⟩
  · obtain ⟨d, hd, hloop, rfl⟩ := decLoop_of_le (w := accW) hcs hk
    exact ⟨d, hd, hloop.phase, rfl, hloop.held, hloop.written⟩
  · obtain ⟨d, hd, hloop, hj⟩ := decRun_of_alphabet (w := accW) hcs
    have hout : d.out.length = decodedLength cs.length := hloop.length_out hj
    refine ⟨_, hd, rfl, hloop.length.symm.trans hout, hout, ?_⟩
    exact (hloop.held.trans (by rw [hj])).trans (leftoverBits_eq _)

/-! ## The meanings -/

section
variable {s : State} {r : Request} {cs : List CodeUnit}

theorem exec_b32Decode (hr : s.req = some r) (hp : r.ipay = .chars cs)
    (hf : (Payload.chars cs).fits s.cfg = true) :
    exec .b32Decode s = .next (if capTooSmall r.a0 (decodedLength cs.length)
      then s.fail .invalidArgument else s.runDecoder cs) := by
  rw [exec, execB32Decode, withRequest_of_req hr, withChars_of_ipay hp hf]

theorem exec_b32Strip (hr : s.req = some r) (hp : r.ipay = .chars cs)
    (hf : (Payload.chars cs).fits s.cfg = true) :
    exec .b32Strip s = .next (s.complete (valueResponse (zext128 (strippedCount cs)))) := by
  rw [exec, execB32Strip, withRequest_of_req hr, withChars_of_ipay hp hf]

/-- B32.DECODEP's next state. The clause for m = 0 (41_base32.md R111) is what the decoder answers
for the empty text. -/
theorem exec_b32Decodep {m : Nat} (hr : s.req = some r) (hp : r.ipay = .chars cs)
    (hf : (Payload.chars cs).fits s.cfg = true) (hm : IsStripped cs m) :
    exec .b32Decodep s = .next (if capTooSmall r.a0 (decodedLength m)
      then s.fail .invalidArgument else s.runDecoder (cs.take m)) := by
  rw [isStripped_unique hm (strippedCount_isStripped cs), exec, execB32Decodep,
    withRequest_of_req hr, withChars_of_ipay hp hf]
  dsimp only
  split
  · rfl
  · split
    · next h0 =>
      rw [h0]
      rfl
    · rfl

/-- R126: the decoder's failure is completed as it stands. -/
theorem State.runDecoder_of_error {e : BadChar} (h : decRun accW cs = .error e) :
    s.runDecoder cs = s.complete (badCharResponse e.char e.index) := by
  unfold State.runDecoder
  rw [h]

theorem State.runDecoder_of_ok {d : DecRegs accW} (h : decRun accW cs = .ok d) :
    s.runDecoder cs = s.complete (payloadResponse (zext128 d.out.length) (.bytes d.out)) := by
  unfold State.runDecoder
  rw [h]
  rfl

/-- A command that runs the decoder on a text of alphabet characters answers its bytes and their
count (41_base32.md R109, R111). -/
theorem answers_of_alphabet {i : Instr} (hexec : exec i s = .next (s.runDecoder cs))
    (hlength : cs.length ≤ lenMax) (hcs : ∀ c ∈ cs, charToValue c ≠ none) :
    ∃ (d : DecRegs accW) (v : Word128), decRun accW cs = .ok d ∧ d.phase = .done ∧
      v.toNat = d.out.length ∧ d.out.length = decodedLength cs.length ∧
      Answers s i { status := .ok, dout := some v, opay := some (.bytes d.out) } := by
  obtain ⟨d, hd, hloop, hj⟩ := decRun_of_alphabet (w := accW) hcs
  have hout : d.out.length = decodedLength cs.length := hloop.length_out hj
  have hsize : d.out.length < 2 ^ 128 := by
    rw [hout]
    unfold decodedLength lenMax at *
    omega
  refine ⟨_, _, hd, rfl, zext128_toNat hsize, hout, answers_of_exec_complete ?_⟩
  rw [hexec, State.runDecoder_of_ok hd]
  rfl

/-- A command whose decoder stops answers the character and its index (41_base32.md R126). -/
theorem answers_of_bad_char {i : Instr} {e : BadChar} (hexec : exec i s = .next (s.runDecoder cs))
    (he : decRun accW cs = .error e) :
    Answers s i (badCharResponse e.char e.index) :=
  answers_of_exec_complete (by rw [hexec, State.runDecoder_of_error he])

/-- A command that runs the decoder reports the first character outside the alphabet (41_base32.md
R126). -/
theorem answers_of_first_bad {i : Instr} {j : Nat} {c : CodeUnit}
    (hexec : exec i s = .next (s.runDecoder cs)) (hlength : cs.length ≤ lenMax)
    (hj : cs[j]? = some c) (hc : charToValue c = none)
    (hfirst : ∀ i, i < j → charToValue (cs.getD i 0) ≠ none) :
    ∃ v : Word128, v.toNat = j ∧
      Answers s i { status := .invalidCharacter, einfo := some c, dout := some v } := by
  obtain ⟨hlt, -⟩ := List.getElem?_eq_some_iff.1 hj
  have hindex : j < 2 ^ 128 := by
    unfold lenMax at hlength
    omega
  exact ⟨_, zext128_toNat hindex, answers_of_bad_char hexec (decRun_of_first_bad hj hc hfirst)⟩

end

/-! ## The obligations -/

/-- Settles O19: the capacity check, then the two ends of the decoder's run. -/
theorem decodeRunsTheDecoder : Obligations.DecodeRunsTheDecoder := by
  refine ⟨selectedByWord_encode (i := .b32Decode) rfl, fun s r cs hr hp hf =>
    ⟨fun hcap => fails_of_exec_fail ?_, fun hcap => ?_⟩⟩
  · rw [exec_b32Decode hr hp hf, if_pos (capTooSmall_iff.2 hcap)]
  · have hexec : exec .b32Decode s = .next (s.runDecoder cs) := by
      rw [exec_b32Decode hr hp hf, if_neg (capTooSmall_eq_false hcap)]
    refine ⟨fun hcs => ?_, fun e he => answers_of_bad_char hexec he⟩
    obtain ⟨d, v, hd, hphase, hv, hout, hans⟩ :=
      answers_of_alphabet hexec (length_le_of_fits hf) hcs
    exact ⟨d, v, hd, hphase, hv.trans hout, hout, hans⟩

/-- Settles O20: a text and its first m units have the same first bad character below m, and the
encoder's statuses do not include InvalidCharacter. -/
theorem firstBadCharacterIsReported : Obligations.FirstBadCharacterIsReported := by
  refine ⟨fun s r cs j c hr hp hf hj hc hfirst => ⟨fun hcap => ?_, fun m hm hjm hcap => ?_⟩,
    fun s t rsp h ht hst => ?_⟩
  · refine answers_of_first_bad ?_ (length_le_of_fits hf) hj hc hfirst
    rw [exec_b32Decode hr hp hf, if_neg (capTooSmall_eq_false hcap)]
  · refine answers_of_first_bad (cs := cs.take m) ?_ ?_ ?_ hc fun i hi => ?_
    · rw [exec_b32Decodep hr hp hf hm, if_neg (capTooSmall_eq_false hcap)]
    · exact (List.length_take_le' m cs).trans (length_le_of_fits hf)
    · rw [List.getElem?_take_of_lt hjm, hj]
    · rw [List.getD_eq_getElem?_getD, List.getElem?_take_of_lt (hi.trans hjm),
        ← List.getD_eq_getElem?_getD]
      exact hfirst i hi
  · obtain ⟨r, -, rsp', u, rfl, hans, -⟩ := exec_next h
    rw [State.complete_resp] at ht
    cases ht
    have hraise := hans.status
    rw [hst] at hraise
    cases hraise

/-- Settles O23: `strippedCount` is the stripped count, and it fits DOUT. -/
theorem stripCountsWhatIsLeft : Obligations.StripCountsWhatIsLeft := by
  refine ⟨selectedByWord_encode (i := .b32Strip) rfl, fun s r cs hr hp hf =>
    ⟨zext128 (strippedCount cs), ?_, answers_of_exec_complete (exec_b32Strip hr hp hf)⟩⟩
  have hstripped := strippedCount_isStripped cs
  have hlength := hstripped.1.trans (length_le_of_fits hf)
  rw [zext128_toNat (by unfold lenMax at hlength; omega)]
  exact hstripped

/-- Settles O24: the capacity check, then the decoder on the stripped text. -/
theorem decodepStripsThenDecodes : Obligations.DecodepStripsThenDecodes := by
  refine ⟨selectedByWord_encode (i := .b32Decodep) rfl, fun s r cs m hr hp hf hm =>
    ⟨fun hcap => fails_of_exec_fail ?_, fun hcap => ?_⟩⟩
  · rw [exec_b32Decodep hr hp hf hm, if_pos (capTooSmall_iff.2 hcap)]
  · have hexec : exec .b32Decodep s = .next (s.runDecoder (cs.take m)) := by
      rw [exec_b32Decodep hr hp hf hm, if_neg (capTooSmall_eq_false hcap)]
    have hlength : (cs.take m).length = m := List.length_take_of_le hm.1
    refine ⟨?_, fun _ hcs => ?_, fun e _ he => answers_of_bad_char hexec he⟩
    · rintro rfl
      exact answers_of_exec_complete hexec
    · have hans := answers_of_alphabet hexec
        (hlength.trans_le (hm.1.trans (length_le_of_fits hf))) hcs
      rwa [hlength] at hans

end Sys2Proof.Machine
end

section
/-! Which words select a command with a slot (30_encoding.md R76 to R78). No two rows of the opcode
map share an OPC, so a word matches at most one row, and a command is built by one row alone. -/

namespace Sys2Proof.Machine

open Sys2Proof.Safety

/-- Rows with one OPC are one row. -/
theorem row_eq_of_opcField_eq {row row' : Row} (hrow : row ∈ opcodeRows)
    (hrow' : row' ∈ opcodeRows) (h : opcField row.pattern = opcField row'.pattern) :
    row = row' := by
  have hnodup : (opcodeRows.map fun row => opcField row.pattern).Nodup := by decide
  exact List.inj_on_of_nodup_map hnodup hrow hrow' h

/-- At most one row matches a word. -/
theorem row_eq_of_matches {row row' : Row} {w : CmdWord} (hrow : row ∈ opcodeRows)
    (hrow' : row' ∈ opcodeRows) (hm : row.matches w = true) (hm' : row'.matches w = true) :
    row = row' := by
  obtain ⟨hopc, -⟩ := (matches_iff_fields hrow).1 hm
  obtain ⟨hopc', -⟩ := (matches_iff_fields hrow').1 hm'
  exact row_eq_of_opcField_eq hrow hrow' (hopc.symm.trans hopc')

/-- A word that matches a row, with an ORD that is an order, is read by that row. -/
theorem decode_of_matches {row : Row} {w : CmdWord} {o : Order} (hrow : row ∈ opcodeRows)
    (hm : row.matches w = true) (ho : orderOfField (ordField w) = some o) :
    decode w = some (row.build (slotField w) o) := by
  cases hfind : opcodeRows.find? (·.matches w) with
  | none => exact absurd hm (List.find?_eq_none.1 hfind row hrow)
  | some row' =>
    have hm' : row'.matches w = true := List.find?_some (p := fun row => Row.matches row w) hfind
    have heq := row_eq_of_matches (List.mem_of_find?_eq_some hfind) hrow hm' hm
    simp only [decode, hfind, ho, heq]

/-- The OPC of a word is its opcode's low eight bits: the other fields stand above them. -/
theorem opcField_cmdWord (opc : BitVec 32) (k : Nat) (ord enc : BitVec 32) :
    opcField (cmdWord opc k ord enc) = opcField opc := by
  ext i hi
  simp [opcField, cmdWord, hi, show i < 12 by omega, show i < 14 by omega]

/-- The word of a command has the OPC of the row that builds the command. -/
theorem opcField_encode_build : ∀ row ∈ opcodeRows, ∀ k o,
    opcField (encode (row.build k o)) = opcField row.pattern := by
  simp [opcodeRows, codecRows, controlRows, numericReadRows, rangeReadRows, numericWriteRows,
    rangeWriteRows, encode, bareWord, slotWord, numWord, opcField_cmdWord]

/-- A command is built by one row alone. -/
theorem row_eq_of_build_eq {row row' : Row} {k k' : Nat} {o o' : Order} (hrow : row ∈ opcodeRows)
    (hrow' : row' ∈ opcodeRows) (h : row.build k o = row'.build k' o') : row = row' := by
  refine row_eq_of_opcField_eq hrow hrow' ?_
  rw [← opcField_encode_build row hrow k o, h, opcField_encode_build row' hrow' k' o']

/-- A row outside the codec builds a command of the slot it is given. -/
theorem slot?_build : ∀ row ∈ opcodeRows, row.group ≠ .codec → ∀ k o,
    (row.build k o).slot? = some k := by
  simp [opcodeRows, codecRows, controlRows, numericReadRows, rangeReadRows, numericWriteRows,
    rangeWriteRows, Instr.slot?]

/-- A row that fixes every field but SLOT (30_encoding.md R77): exactly its words select its
command. -/
theorem selectedBySlot_of_mem_opcodeRows {w : CmdWord} {g : Group} {mk : Nat → Instr}
    (hrow : ⟨w, g, fun k _ => mk k⟩ ∈ opcodeRows) (hcodec : g ≠ .codec) (hnumeric : g ≠ .numeric) :
    SelectedBySlot w mk := by
  have hmask : g.mask = 0xFFFFF0FF#32 := by
    cases g with
    | codec => exact absurd rfl hcodec
    | numeric => exact absurd rfl hnumeric
    | control | byteRange | string => rfl
  have hmatches (v : CmdWord) :
      (Row.mk w g fun k _ => mk k).matches v = true ↔ v &&& 0xFFFFF0FF#32 = w := by
    rw [Row.matches, beq_iff_eq, hmask]
  intro v k
  constructor
  · intro hv
    obtain ⟨row, hrow', hm, o, hb⟩ := decode_eq_some hv
    obtain rfl := row_eq_of_build_eq hrow' hrow (k' := k) (o' := o) hb
    have hslot : (mk (slotField v)).slot? = some (slotField v) :=
      slot?_build _ hrow hcodec (slotField v) o
    have hslot' : (mk k).slot? = some k := slot?_build _ hrow hcodec k o
    rw [show mk (slotField v) = mk k from hb, hslot'] at hslot
    exact ⟨(hmatches v).1 hm, (Option.some.inj hslot).symm⟩
  · rintro ⟨hw, rfl⟩
    have hm := (hmatches v).2 hw
    obtain ⟨-, -, hord, -⟩ := (matches_iff_fields hrow).1 hm
    exact decode_of_matches (o := .native) hrow hm (by rw [hord hnumeric]; rfl)

/-- The words of a cursor control command (30_encoding.md R76). -/
theorem selectedBySlot_of_mem_controlRows {w : CmdWord} {mk : Nat → Instr}
    (hrow : ⟨w, .control, fun k _ => mk k⟩ ∈ controlRows) : SelectedBySlot w mk :=
  selectedBySlot_of_mem_opcodeRows (g := .control) (by simp [opcodeRows, hrow]) (by decide)
    (by decide)

end Sys2Proof.Machine
end

section
/-! The slot check (42_cursor_control.md R154), said once: the commands that run it, what it asks of
the slot, and that nothing else in them is reported as IllegalCommand. -/

namespace Sys2Proof.Machine

open Sys2Proof.Safety

/-! ## The outcome of the check -/

section
variable {s : State} {k : Nat} {n : Need} {c : Cursor} (f : Cursor → State)

theorem onSlot_of_badSlot (h : BadSlot s k n) :
    onSlot s k n f = .next (s.fail .illegalCommand) := by
  simp only [onSlot, checkSlot_bad.2 h]

theorem onSlot_of_goodSlot (h : GoodSlot s k n c) : onSlot s k n f = .next (f c) := by
  simp only [onSlot, checkSlot_good.2 h]

theorem onRegion_of_badSlot (h : BadSlot s k n) :
    onRegion s k n f = .next (s.fail .illegalCommand) := by
  simp only [onRegion, checkSlot_bad.2 h]

theorem onRegion_of_goodSlot (h : GoodSlot s k n c) (hin : InMem s c) :
    onRegion s k n f = .next (f c) := by
  simp only [onRegion, checkSlot_good.2 h, if_pos (Cursor.regionInMem_iff.2 hin)]

end

/-! ## The commands that run it -/

theorem exec_openInstr (m : Mode) (k : Nat) (s : State) :
    exec (openInstr m k) s = construct m k s := by
  cases m <;> rfl

theorem exec_readInstr (ty : NumType) (k : Nat) (o : Order) (s : State) :
    exec (readInstr ty k o) s = readNum ty k o s := by
  cases ty <;> rfl

theorem exec_writeInstr (ty : NumType) (k : Nat) (o : Order) (s : State) :
    exec (writeInstr ty k o) s = writeNum ty k o s := by
  cases ty <;> rfl

/-- The cursor commands of slot k other than construction, by the variant their check needs. -/
inductive ChecksSlot (k : Nat) : Need → Instr → Prop
  | getpos : ChecksSlot k .any (.curGetpos k)
  | setpos : ChecksSlot k .any (.curSetpos k)
  | rem : ChecksSlot k .any (.curRem k)
  | close : ChecksSlot k .any (.curClose k)
  | readNum (ty : NumType) (o : Order) : ChecksSlot k .reader (readInstr ty k o)
  | rdBytes : ChecksSlot k .reader (.rdBytes k)
  | rdSlice : ChecksSlot k .reader (.rdSlice k)
  | rdCstr : ChecksSlot k .reader (.rdCstr k)
  | rdStr (e : TextEncoding) : ChecksSlot k .reader (.rdStr k e)
  | writeNum (ty : NumType) (o : Order) : ChecksSlot k .writer (writeInstr ty k o)
  | wrBytes : ChecksSlot k .writer (.wrBytes k)

theorem checksSlot_of_needOf {i : Instr} {k : Nat} {n : Need} (hk : i.slot? = some k)
    (hn : needOf i = some n) : ChecksSlot k n i := by
  cases i <;> cases hk <;> cases hn
  case curGetpos => exact .getpos
  case curSetpos => exact .setpos
  case curRem => exact .rem
  case curClose => exact .close
  case rdU8 o => exact .readNum .u8 o
  case rdI8 o => exact .readNum .i8 o
  case rdU16 o => exact .readNum .u16 o
  case rdI16 o => exact .readNum .i16 o
  case rdU32 o => exact .readNum .u32 o
  case rdI32 o => exact .readNum .i32 o
  case rdU64 o => exact .readNum .u64 o
  case rdI64 o => exact .readNum .i64 o
  case rdU128 o => exact .readNum .u128 o
  case rdI128 o => exact .readNum .i128 o
  case rdF32 o => exact .readNum .f32 o
  case rdF64 o => exact .readNum .f64 o
  case rdBytes => exact .rdBytes
  case rdSlice => exact .rdSlice
  case rdCstr => exact .rdCstr
  case rdStr e => exact .rdStr e
  case wrU8 o => exact .writeNum .u8 o
  case wrI8 o => exact .writeNum .i8 o
  case wrU16 o => exact .writeNum .u16 o
  case wrI16 o => exact .writeNum .i16 o
  case wrU32 o => exact .writeNum .u32 o
  case wrI32 o => exact .writeNum .i32 o
  case wrU64 o => exact .writeNum .u64 o
  case wrI64 o => exact .writeNum .i64 o
  case wrU128 o => exact .writeNum .u128 o
  case wrI128 o => exact .writeNum .i128 o
  case wrF32 o => exact .writeNum .f32 o
  case wrF64 o => exact .writeNum .f64 o
  case wrBytes => exact .wrBytes

/-! ## What the commands report once the check has passed -/

/-- The state holds no response with the status IllegalCommand. -/
def NotIllegal (t : State) : Prop := ∀ rsp, t.resp = some rsp → rsp.status ≠ .illegalCommand

theorem notIllegal_complete (s : State) {rsp : Response} (h : rsp.status ≠ .illegalCommand) :
    NotIllegal (s.complete rsp) := by
  rintro _ ⟨⟩
  exact h

theorem notIllegal_ok (s : State) {rsp : Response} (h : rsp.status = .ok) :
    NotIllegal (s.complete rsp) :=
  notIllegal_complete s (h ▸ by decide)

theorem notIllegal_fail (s : State) {st : Status} (h : st ≠ .illegalCommand) :
    NotIllegal (s.fail st) :=
  notIllegal_complete s h

theorem notIllegal_ite {p : Prop} [Decidable p] {t u : State} (ht : NotIllegal t)
    (hu : NotIllegal u) : NotIllegal (if p then t else u) := by
  split
  · exact ht
  · exact hu

theorem notIllegal_withCount {s : State} {r : Request} {c : Cursor} {f : Nat → State}
    (h : ∀ n, NotIllegal (f n)) : NotIllegal (withCount s r c f) :=
  notIllegal_ite (notIllegal_fail s (by decide))
    (notIllegal_ite (notIllegal_fail s (by decide)) (h _))

theorem notIllegal_finishText (s : State) (k : Nat) (c : Cursor) (e : TextEncoding)
    (bs : List Byte) (n : Nat) : NotIllegal (finishText s k c e bs n) := by
  unfold finishText
  split
  · exact notIllegal_fail s (by decide)
  · exact notIllegal_ok _ rfl

/-- The bytes of a request that can be formed for WR.BYTES (10_state.md R24). -/
theorem ipay_of_formed_wrBytes {c : Config} {k : Nat} {r : Request}
    (h : r.formed c (.wrBytes k) = true) : ∃ bs, r.ipay = .bytes bs ∧ bs.length ≤ lenMax := by
  cases hp : r.ipay with
  | chars cs => simp [Request.formed, Instr.payloadKind, hp] at h
  | bytes bs =>
    have hfits : (Payload.bytes bs).fits c = true := by
      simpa only [Request.formed, Instr.payloadKind, hp] using h
    rw [Payload.fits, Bool.and_eq_true, decide_eq_true_iff] at hfits
    exact ⟨bs, rfl, hfits.1⟩

/-- Every cursor command other than construction is CheckSlot and then a meaning that does not
report IllegalCommand. -/
theorem exec_eq_of_checksSlot {i : Instr} {k : Nat} {n : Need} {s : State} {r : Request}
    (hi : ChecksSlot k n i) (hr : s.req = some r) (hf : r.formed s.cfg i = true) :
    ∃ f : Cursor → State, (∀ c, NotIllegal (f c)) ∧
      (exec i s = onSlot s k n f ∨ exec i s = onRegion s k n f) := by
  cases hi with
  | getpos | rem =>
    exact ⟨_, fun _ => notIllegal_ok s rfl, .inl (withRequest_of_req hr _)⟩
  | setpos =>
    exact ⟨_, fun _ => notIllegal_ite (notIllegal_fail s (by decide))
      (notIllegal_ok _ rfl), .inl (withRequest_of_req hr _)⟩
  | close =>
    exact ⟨_, fun _ => notIllegal_ok _ rfl, .inl (withRequest_of_req hr _)⟩
  | readNum ty o =>
    refine ⟨_, fun _ => ?_, .inr ((exec_readInstr ty k o s).trans (withRequest_of_req hr _))⟩
    exact notIllegal_ite (notIllegal_fail s (by decide)) (notIllegal_ok _ rfl)
  | rdBytes =>
    exact ⟨_, fun _ => notIllegal_withCount fun _ => notIllegal_ok _ rfl,
      .inr (withRequest_of_req hr _)⟩
  | rdSlice =>
    exact ⟨_, fun _ => notIllegal_withCount fun _ => notIllegal_ok _ rfl,
      .inl (withRequest_of_req hr _)⟩
  | rdCstr =>
    refine ⟨_, fun c => ?_, .inr (withRequest_of_req hr _)⟩
    split
    · exact notIllegal_fail s (by decide)
    · exact notIllegal_finishText s k c _ _ _
  | rdStr e =>
    exact ⟨_, fun c => notIllegal_withCount fun _ => notIllegal_finishText s k c e _ _,
      .inr (withRequest_of_req hr _)⟩
  | writeNum ty o =>
    refine ⟨_, fun _ => ?_, .inr ((exec_writeInstr ty k o s).trans (withRequest_of_req hr _))⟩
    exact notIllegal_ite (notIllegal_fail s (by decide)) (notIllegal_ok _ rfl)
  | wrBytes =>
    obtain ⟨bs, hp, hl⟩ := ipay_of_formed_wrBytes hf
    refine ⟨_, fun _ => ?_, .inr ((withRequest_of_req hr _).trans (withBytes_of_ipay hp hl _))⟩
    exact notIllegal_ite (notIllegal_fail s (by decide)) (notIllegal_ok _ rfl)

/-- A command on a bad slot fails with IllegalCommand. -/
theorem fails_of_badSlot {i : Instr} {k : Nat} {n : Need} {s : State} {r : Request}
    (hi : ChecksSlot k n i) (hr : s.req = some r) (hf : r.formed s.cfg i = true)
    (hbad : BadSlot s k n) : Fails s i .illegalCommand := by
  obtain ⟨f, -, hexec | hexec⟩ := exec_eq_of_checksSlot hi hr hf
  · exact fails_of_exec_fail (hexec.trans (onSlot_of_badSlot f hbad))
  · exact fails_of_exec_fail (hexec.trans (onRegion_of_badSlot f hbad))

/-- A command on a good slot does not report IllegalCommand. -/
theorem notIllegal_of_goodSlot {i : Instr} {k : Nat} {n : Need} {s t : State} {r : Request}
    {c : Cursor} (hi : ChecksSlot k n i) (hr : s.req = some r) (hf : r.formed s.cfg i = true)
    (hgood : GoodSlot s k n c) (hexec : exec i s = .next t) : NotIllegal t := by
  have hcheck := checkSlot_good.2 hgood
  obtain ⟨f, hok, heq | heq⟩ := exec_eq_of_checksSlot hi hr hf
  · rw [heq, onSlot_of_goodSlot f hgood] at hexec
    cases hexec
    exact hok c
  · rw [heq, onRegion_eq_next] at hexec
    obtain ⟨hbad, -⟩ | ⟨d, -, -, rfl⟩ := hexec
    · cases hcheck.symm.trans hbad
    · exact hok d

/-- Settles O34: each of the commands is the slot check and then what reports no IllegalCommand. -/
theorem slotCheckGuardsEveryCursorCommand : Obligations.SlotCheckGuardsEveryCursorCommand := by
  intro s r i k n hr hk hn hf
  have hi := checksSlot_of_needOf hk hn
  exact ⟨fails_of_badSlot hi hr hf, fun _ _ _ hgood hexec =>
    notIllegal_of_goodSlot hi hr hf hgood hexec _⟩

end Sys2Proof.Machine
end

section
/-! Cursor control (42_cursor_control.md sections 1 to 4): what each of the six commands does to its
slot, and that it does nothing else. -/

namespace Sys2Proof.Machine

open Sys2Proof.Safety

/-! ## Completion with a slot changed -/

theorem completes_setSlot {s : State} {i : Instr} {k : Nat} {c : Cursor} {rsp : Response}
    (h : exec i s = .next ((s.setSlot k c).complete rsp)) :
    Completes s i rsp (rebound s.slot k (some c)) s.readByte :=
  ⟨_, h, rfl, rfl, rfl, rfl, rfl, rfl, fun j => s.setSlot_slot k j c, fun _ => rfl⟩

theorem completes_clearSlot {s : State} {i : Instr} {k : Nat} {rsp : Response}
    (h : exec i s = .next ((s.clearSlot k).complete rsp)) :
    Completes s i rsp (rebound s.slot k none) s.readByte :=
  ⟨_, h, rfl, rfl, rfl, rfl, rfl, rfl, fun j => s.clearSlot_slot k j, fun _ => rfl⟩

/-! ## Construction (R150 to R153) -/

theorem exec_openInstr_of_req {s : State} {r : Request} (hr : s.req = some r) (m : Mode) (k : Nat) :
    exec (openInstr m k) s = .next (if s.cfg.nslot ≤ k then s.fail .illegalCommand
      else if badRegion s.cfg r.a0.toNat r.a1.toInt then s.fail .invalidArgument
      else (s.setSlot k { mode := m, origin := r.a0.toNat, length := r.a1.toInt.toNat, pos := 0
        }).complete okResponse) :=
  (exec_openInstr m k s).trans (withRequest_of_req hr _)

/-- Settles O30: the three outcomes are the branches of `Construct`. -/
theorem openConstructsTheCursor : Obligations.OpenConstructsTheCursor := by
  refine ⟨selectedBySlot_of_mem_controlRows (by simp [controlRows]),
    selectedBySlot_of_mem_controlRows (by simp [controlRows]), fun s r m k hr => ?_⟩
  have hexec := exec_openInstr_of_req hr m k
  refine ⟨fun hk => fails_of_exec_fail ?_, fun hk hbad => fails_of_exec_fail ?_,
    fun len hk hlen horg hin => completes_setSlot (rsp := okResponse) ?_⟩
  · rw [hexec, if_pos hk]
  · rw [hexec, if_neg (Nat.not_le.2 hk), if_pos (badRegion_iff.2 hbad)]
  · have hregion : ¬ badRegion s.cfg r.a0.toNat len = true := by
      rw [badRegion_iff]
      have : ((r.a0.toNat + len : Nat) : Int) ≤ (2 ^ s.cfg.addrW : Nat) := Int.ofNat_le.2 hin
      push_cast at this
      omega
    rw [hexec, hlen, if_neg (Nat.not_le.2 hk), if_neg hregion, Int.toNat_natCast]

/-! ## Position and remaining (R155 to R162), and release (R165) -/

section
variable {s : State} {r : Request} {k : Nat} {c : Cursor}

theorem answers_curGetpos (hr : s.req = some r) (hgood : GoodSlot s k .any c) :
    Answers s (.curGetpos k) { status := .ok, dout := some (zext128 c.pos) } :=
  answers_of_exec_complete ((withRequest_of_req hr _).trans (onSlot_of_goodSlot _ hgood))

theorem answers_curRem (hr : s.req = some r) (hgood : GoodSlot s k .any c) :
    Answers s (.curRem k) { status := .ok, dout := some (zext128 (c.length - c.pos)) } :=
  answers_of_exec_complete ((withRequest_of_req hr _).trans (onSlot_of_goodSlot _ hgood))

theorem exec_curSetpos (hr : s.req = some r) (hgood : GoodSlot s k .any c) :
    exec (.curSetpos k) s = .next (if r.a0.toInt < 0 ∨ (c.length : Int) < r.a0.toInt
      then s.fail .invalidArgument
      else (s.setSlot k { c with pos := r.a0.toInt.toNat }).complete okResponse) :=
  (withRequest_of_req hr _).trans (onSlot_of_goodSlot _ hgood)

theorem fails_curSetpos (hr : s.req = some r) (hgood : GoodSlot s k .any c)
    (hp : r.a0.toInt < 0 ∨ (c.length : Int) < r.a0.toInt) :
    Fails s (.curSetpos k) .invalidArgument :=
  fails_of_exec_fail (by rw [exec_curSetpos hr hgood, if_pos hp])

theorem completes_curSetpos {p : Nat} (hr : s.req = some r) (hgood : GoodSlot s k .any c)
    (hp : r.a0.toInt = p) (hle : p ≤ c.length) :
    Completes s (.curSetpos k) { status := .ok } (rebound s.slot k (some { c with pos := p }))
      s.readByte := by
  have hrange : ¬ ((p : Int) < 0 ∨ (c.length : Int) < p) := by omega
  refine completes_setSlot (rsp := okResponse) ?_
  rw [exec_curSetpos hr hgood, hp, if_neg hrange, Int.toNat_natCast]

theorem completes_curClose (hr : s.req = some r) (hgood : GoodSlot s k .any c) :
    Completes s (.curClose k) { status := .ok } (rebound s.slot k none) s.readByte :=
  completes_clearSlot ((withRequest_of_req hr _).trans (onSlot_of_goodSlot _ hgood))

end

/-- A length or position of a cursor fits DOUT (10_state.md R31). -/
theorem zext128_toNat_of_le_lenMax {n : Nat} (h : n ≤ lenMax) : (zext128 n).toNat = n := by
  refine zext128_toNat (lt_of_le_of_lt h ?_)
  decide

/-- Settles O31: both values fit DOUT. -/
theorem getposAndRemReportTheCursor : Obligations.GetposAndRemReportTheCursor := by
  refine ⟨selectedBySlot_of_mem_controlRows (by simp [controlRows]),
    selectedBySlot_of_mem_controlRows (by simp [controlRows]), fun s r k hr => ⟨fun hbad => ?_, ?_⟩⟩
  · exact ⟨fails_of_badSlot .getpos hr rfl hbad, fails_of_badSlot .rem hr rfl hbad⟩
  · intro c hgood hpos hlen
    exact ⟨_, _, zext128_toNat_of_le_lenMax (hpos.trans hlen),
      zext128_toNat_of_le_lenMax ((Nat.sub_le _ _).trans hlen),
      answers_curGetpos hr hgood, answers_curRem hr hgood⟩

/-- Settles O32: the slot check, then the two branches of CUR.SETPOS. -/
theorem setposMovesWithinTheRegion : Obligations.SetposMovesWithinTheRegion := by
  refine ⟨selectedBySlot_of_mem_controlRows (by simp [controlRows]), fun s r k hr => ?_⟩
  exact ⟨fails_of_badSlot .setpos hr rfl, fun c hgood =>
    ⟨fails_curSetpos hr hgood, fun _ => completes_curSetpos hr hgood⟩⟩

/-- Settles O33: the slot check, then the release. -/
theorem closeUnbindsTheSlot : Obligations.CloseUnbindsTheSlot := by
  refine ⟨selectedBySlot_of_mem_controlRows (by simp [controlRows]), fun s r k hr => ?_⟩
  exact ⟨fails_of_badSlot .close hr rfl, fun _ => completes_curClose hr⟩

end Sys2Proof.Machine
end

section
/-! What a read or a write answers on a good slot (43_cursor_read.md R180, R195; 44_cursor_write.md
R220, R234): its branches on the remaining count, and its failure when too few bytes remain. -/

namespace Sys2Proof.Machine

open Sys2Proof.Safety

/-- A slot that holds a cursor is good for each need that the cursor's mode fits. -/
theorem goodSlot_of_any {s : State} {k : Nat} {n : Need} {c : Cursor}
    (h : GoodSlot s k .any c) (hm : modeFits n c.mode) : GoodSlot s k n c :=
  let ⟨hk, hslot, _⟩ := h
  ⟨hk, hslot, hm⟩

section
variable {s : State} {r : Request} {c : Cursor} (f : Nat → State)

/-- A count that the region still holds passes CheckCount (43_cursor_read.md R195). -/
theorem withCount_of_le {n : Nat} (hn : r.a0.toInt = n) (hle : n ≤ c.remaining) :
    withCount s r c f = f n := by
  have hsign : ¬ (n : Int) < 0 := by omega
  have hbound : ¬ (c.remaining : Int) < n := by omega
  simp only [withCount, signedOperand, hn, if_neg hsign, if_neg hbound, Int.toNat_natCast]

/-- A count above what remains fails CheckCount (43_cursor_read.md R195). -/
theorem withCount_of_lt (h : (c.remaining : Int) < r.a0.toInt) :
    withCount s r c f = s.fail .bufferUnderrun :=
  have hsign : ¬ r.a0.toInt < 0 := by omega
  (if_neg hsign).trans (if_pos h)

end

/-! ## Reads -/

section
variable {s : State} {r : Request} {k : Nat} {c : Cursor}

theorem exec_rdBytes (hr : s.req = some r) (hgood : GoodSlot s k .reader c) (hin : InMem s c) :
    exec (.rdBytes k) s = .next (withCount s r c fun n => (s.setSlot k (c.advance n)).complete
      (payloadResponse (zext128 n) (.bytes (s.readBytes c.address n)))) :=
  (withRequest_of_req hr _).trans (onRegion_of_goodSlot _ hgood hin)

theorem exec_rdSlice (hr : s.req = some r) (hgood : GoodSlot s k .reader c) :
    exec (.rdSlice k) s = .next (withCount s r c fun n => (s.setSlot k (c.advance n)).complete
      (valueResponse (sliceDescriptor n c.address))) :=
  (withRequest_of_req hr _).trans (onSlot_of_goodSlot _ hgood)

theorem exec_rdStr (hr : s.req = some r) (hgood : GoodSlot s k .reader c) (hin : InMem s c)
    (e : TextEncoding) : exec (.rdStr k e) s =
      .next (withCount s r c fun n => finishText s k c e (s.readBytes c.address n) n) :=
  (withRequest_of_req hr _).trans (onRegion_of_goodSlot _ hgood hin)

theorem exec_readInstr_of_goodSlot (hr : s.req = some r) (hgood : GoodSlot s k .reader c)
    (hin : InMem s c) (ty : NumType) (o : Order) : exec (readInstr ty k o) s =
      .next (if c.remaining < numWidth ty then s.fail .bufferUnderrun
        else (s.setSlot k (c.advance (numWidth ty))).complete (valueResponse (extendRead ty
          (bytesValue (effOrder s.cfg o) (s.readBytes c.address (numWidth ty)))))) :=
  ((exec_readInstr ty k o s).trans (withRequest_of_req hr _)).trans
    (onRegion_of_goodSlot _ hgood hin)

theorem fails_readInstr (hr : s.req = some r) (hgood : GoodSlot s k .reader c) (hin : InMem s c)
    {ty : NumType} (hshort : c.remaining < numWidth ty) (o : Order) :
    Fails s (readInstr ty k o) .bufferUnderrun :=
  fails_of_exec_fail (by rw [exec_readInstr_of_goodSlot hr hgood hin, if_pos hshort])

/-- A counted read of more bytes than remain fails (43_cursor_read.md R195). -/
theorem fails_countedRead (hr : s.req = some r) (hgood : GoodSlot s k .reader c) (hin : InMem s c)
    (hshort : (c.remaining : Int) < r.a0.toInt) {i : Instr}
    (hi : i ∈ [.rdBytes k, .rdSlice k, .rdStr k .utf8]) : Fails s i .bufferUnderrun := by
  simp only [List.mem_cons, List.not_mem_nil, or_false] at hi
  refine fails_of_exec_fail ?_
  obtain rfl | rfl | rfl := hi
  · rw [exec_rdBytes hr hgood hin, withCount_of_lt _ hshort]
  · rw [exec_rdSlice hr hgood, withCount_of_lt _ hshort]
  · rw [exec_rdStr hr hgood hin, withCount_of_lt _ hshort]

/-! ## Writes -/

theorem exec_writeInstr_of_goodSlot (hr : s.req = some r) (hgood : GoodSlot s k .writer c)
    (hin : InMem s c) (ty : NumType) (o : Order) : exec (writeInstr ty k o) s =
      .next (if c.remaining < numWidth ty then s.fail .bufferOverrun
        else (storeAndAdvance s k c (valueBytes (effOrder s.cfg o) (numWidth ty)
          (writeValue ty r.din))).complete okResponse) :=
  ((exec_writeInstr ty k o s).trans (withRequest_of_req hr _)).trans
    (onRegion_of_goodSlot _ hgood hin)

theorem fails_writeInstr (hr : s.req = some r) (hgood : GoodSlot s k .writer c) (hin : InMem s c)
    {ty : NumType} (hshort : c.remaining < numWidth ty) (o : Order) :
    Fails s (writeInstr ty k o) .bufferOverrun :=
  fails_of_exec_fail (by rw [exec_writeInstr_of_goodSlot hr hgood hin, if_pos hshort])

theorem exec_wrBytes {bs : List Byte} (hr : s.req = some r) (hp : r.ipay = .bytes bs)
    (hl : bs.length ≤ lenMax) (hgood : GoodSlot s k .writer c) (hin : InMem s c) :
    exec (.wrBytes k) s = .next (if c.remaining < bs.length then s.fail .bufferOverrun
      else (storeAndAdvance s k c bs).complete (valueResponse (zext128 bs.length))) :=
  ((withRequest_of_req hr _).trans (withBytes_of_ipay hp hl _)).trans
    (onRegion_of_goodSlot _ hgood hin)

theorem fails_wrBytes {bs : List Byte} (hr : s.req = some r) (hp : r.ipay = .bytes bs)
    (hl : bs.length ≤ lenMax) (hgood : GoodSlot s k .writer c) (hin : InMem s c)
    (hshort : c.remaining < bs.length) : Fails s (.wrBytes k) .bufferOverrun :=
  fails_of_exec_fail (by rw [exec_wrBytes hr hp hl hgood hin, if_pos hshort])

end

end Sys2Proof.Machine
end

section
/-! The exhausted cursor (42_cursor_control.md R167): the remaining count is 0, so an access of no
byte moves the cursor by nothing, and any other fails its bounds check. -/

namespace Sys2Proof.Machine

open Sys2Proof.Safety

theorem numWidth_pos (ty : NumType) : 0 < numWidth ty := by cases ty <;> decide

/-- Rebinding a slot to the cursor it holds changes no slot. -/
theorem rebound_self {s : State} {k : Nat} {c : Cursor} (h : s.slot k = some c) :
    rebound s.slot k (some c) = s.slot := by
  funext j
  unfold rebound
  split
  · next hj => rw [hj, h]
  · rfl

/-- A command that sets the slot to the cursor it holds changes no slot and no byte of MEM. -/
theorem answers_of_setSlot_self {s : State} {i : Instr} {k : Nat} {n : Need} {c : Cursor}
    {rsp : Response} (hgood : GoodSlot s k n c)
    (h : exec i s = .next ((s.setSlot k c).complete rsp)) : Answers s i rsp := by
  obtain ⟨-, hslot, -⟩ := hgood
  have hcomp := completes_setSlot h
  rwa [rebound_self hslot] at hcomp

section
variable {s : State} {r : Request} {k : Nat} {c : Cursor}

/-- RD.BYTES of no byte. -/
theorem answers_rdBytes_zero (hr : s.req = some r) (hgood : GoodSlot s k .reader c)
    (hin : InMem s c) (h0 : r.a0.toInt = 0) :
    Answers s (.rdBytes k) { status := .ok, dout := some 0#128, opay := some (.bytes []) } := by
  refine answers_of_setSlot_self hgood ?_
  rw [exec_rdBytes hr hgood hin, withCount_of_le (n := 0) _ h0 (Nat.zero_le _)]
  rfl

/-- RD.SLICE of no byte. -/
theorem answers_rdSlice_zero (hr : s.req = some r) (hgood : GoodSlot s k .reader c)
    (h0 : r.a0.toInt = 0) :
    Answers s (.rdSlice k) { status := .ok, dout := some (sliceDescriptor 0 c.address) } := by
  refine answers_of_setSlot_self hgood ?_
  rw [exec_rdSlice hr hgood, withCount_of_le (n := 0) _ h0 (Nat.zero_le _)]
  rfl

/-- RD.STR of no byte: the empty text, under every decoder (43_cursor_read.md R199). -/
theorem answers_rdStr_zero (hr : s.req = some r) (hgood : GoodSlot s k .reader c)
    (hin : InMem s c) (h0 : r.a0.toInt = 0) (e : TextEncoding) :
    Answers s (.rdStr k e)
      { status := .ok, dout := some 0#128, opay := some (.bytes []), otext := some [] } := by
  refine answers_of_setSlot_self hgood ?_
  rw [exec_rdStr hr hgood hin, withCount_of_le (n := 0) _ h0 (Nat.zero_le _)]
  rfl

/-- RD.CSTR with nothing left finds no terminator (43_cursor_read.md R198). -/
theorem fails_rdCstr_of_exhausted (hr : s.req = some r) (hgood : GoodSlot s k .reader c)
    (hin : InMem s c) (hrem : c.remaining = 0) : Fails s (.rdCstr k) .malformedData := by
  have hzero : s.findZero c.address c.remaining = none :=
    State.findZero_eq_none.2 fun i hi => by omega
  refine fails_of_exec_fail ?_
  rw [show exec (.rdCstr k) s = execRdCstr k s from rfl, execRdCstr, withRequest_of_req hr,
    onRegion_of_goodSlot _ hgood hin, hzero]

/-- WR.BYTES of no byte. -/
theorem answers_wrBytes_nil (hr : s.req = some r) (hp : r.ipay = .bytes [])
    (hgood : GoodSlot s k .writer c) (hin : InMem s c) :
    Answers s (.wrBytes k) { status := .ok, dout := some 0#128 } := by
  refine answers_of_setSlot_self hgood ?_
  rw [exec_wrBytes hr hp (Nat.zero_le _) hgood hin, if_neg (by simp)]
  rfl

end

/-- Settles O60: with nothing remaining, what needs no byte leaves the cursor where it is and the
rest fails its bounds check. -/
theorem exhaustedCursorAcceptsWhatNeedsNoByte :
    Obligations.ExhaustedCursorAcceptsWhatNeedsNoByte := by
  intro s r k c hr hgood hin hpos hlen
  have hrem : c.remaining = 0 := by rw [Cursor.remaining, hpos, Nat.sub_self]
  have hwidth (ty : NumType) : c.remaining < numWidth ty := hrem ▸ numWidth_pos ty
  have hdout : Answers s (.curRem k) { status := .ok, dout := some 0#128 } := by
    have h := answers_curRem hr hgood
    rwa [← Cursor.remaining, hrem] at h
  refine ⟨⟨zext128 c.pos, ?_, answers_curGetpos hr hgood⟩, hdout,
    fun _ => completes_curSetpos hr hgood, completes_curClose hr hgood, fun hmode => ?_,
    fun hmode => ?_⟩
  · rw [hpos, zext128_toNat_of_le_lenMax hlen]
  · have hread : GoodSlot s k .reader c := goodSlot_of_any hgood (.inr (.inl ⟨rfl, hmode⟩))
    refine ⟨fun h0 => ⟨answers_rdBytes_zero hr hread hin h0,
        ⟨sliceDescriptor 0 c.address, ?_, answers_rdSlice_zero hr hread h0⟩,
        answers_rdStr_zero hr hread hin h0 .utf8⟩,
      fun hcount _ => fails_countedRead hr hread hin (by omega),
      fun ty => fails_readInstr hr hread hin (hwidth ty),
      fails_rdCstr_of_exhausted hr hread hin hrem⟩
    rw [sliceDescriptor_toNat, Cursor.address, hpos]
    omega
  · have hwrite : GoodSlot s k .writer c := goodSlot_of_any hgood (.inr (.inr ⟨rfl, hmode⟩))
    refine ⟨fun hp => answers_wrBytes_nil hr hp hwrite hin, fun bs hp hne hl => ?_,
      fun ty => fails_writeInstr hr hwrite hin (hwidth ty)⟩
    exact fails_wrBytes hr hp hl hwrite hin (hrem ▸ List.length_pos_of_ne_nil hne)

end Sys2Proof.Machine
end

section
/-! Which words select a numeric command (30_encoding.md R73, R76, R77): its row leaves SLOT and ORD
free, and the command the row builds determines both. -/

namespace Sys2Proof.Machine

open Sys2Proof.Safety

/-- The ORD field a byte order is read from (30_encoding.md R73). -/
theorem orderOfField_eq_some_iff (o : Order) :
    ∀ f : BitVec 2, orderOfField f = some o ↔ f = o.field.setWidth 2 := by
  cases o <;> decide

/-- A numeric row builds another command for each slot and order. -/
theorem build_injective_of_numeric : ∀ row ∈ opcodeRows, row.group = .numeric →
    ∀ k o k' o', row.build k o = row.build k' o' → k = k' ∧ o = o' := by
  simp [opcodeRows, codecRows, controlRows, numericReadRows, rangeReadRows, numericWriteRows,
    rangeWriteRows]

theorem decode_eq_some_iff_of_numeric {w : CmdWord} {mk : Nat → Order → Instr}
    (hrow : ⟨w, .numeric, mk⟩ ∈ opcodeRows) (v : CmdWord) (k : Nat) (o : Order) :
    decode v = some (mk k o) ↔
      v &&& 0xFFFFC0FF#32 = w ∧ slotField v = k ∧ orderOfField (ordField v) = some o := by
  have hmatches : (Row.mk w .numeric mk).matches v = true ↔ v &&& 0xFFFFC0FF#32 = w := beq_iff_eq
  constructor
  · intro hv
    obtain ⟨row, hrow', hm, o₁, hb⟩ := decode_eq_some hv
    obtain rfl := row_eq_of_build_eq hrow' hrow (k' := k) (o' := o) hb
    have hord : orderOfField (ordField v) ≠ none := fun hnone => by
      rw [decode_eq_none_iff.2 (.inr ((orderOfField_eq_none_iff _).1 hnone))] at hv
      cases hv
    obtain ⟨o', ho'⟩ := Option.ne_none_iff_exists'.1 hord
    rw [decode_of_matches hrow hm ho', Option.some.injEq] at hv
    obtain ⟨hk, rfl⟩ := build_injective_of_numeric _ hrow rfl _ _ _ _ hv
    exact ⟨hmatches.1 hm, hk, ho'⟩
  · rintro ⟨hw, rfl, ho⟩
    exact decode_of_matches hrow (hmatches.2 hw) ho

/-- A row that leaves SLOT and ORD free (30_encoding.md R77): exactly its words with an ORD that is
an order select its command. -/
theorem selectedByNumeric_of_mem_opcodeRows {w : CmdWord} {mk : Nat → Order → Instr}
    (hrow : ⟨w, .numeric, mk⟩ ∈ opcodeRows) : SelectedByNumeric w mk := by
  intro v k o
  rw [decode_eq_some_iff_of_numeric hrow, orderOfField_eq_some_iff]
  cases o <;> rfl

/-- The words of a numeric read (30_encoding.md R71, R76). -/
theorem selectedByNumeric_readInstr (ty : NumType) :
    SelectedByNumeric (BitVec.ofNat 32 (0x20 + numIndex ty)) (readInstr ty) := by
  refine selectedByNumeric_of_mem_opcodeRows ?_
  cases ty <;> simp [opcodeRows, numericReadRows, readInstr, numIndex]

end Sys2Proof.Machine
end

section
/-! Numeric reads (43_cursor_read.md sections 1 and 2): the digits of the value read, its extension
to DOUT, and what of HOST_ORDER an access sees (R201). -/

namespace Sys2Proof.Machine

open Sys2Proof.Safety

/-! ## The value of the bytes (R181) -/

/-- The byte order of an access (43_cursor_read.md R181). -/
theorem effOrder_eq_ite (c : Config) (o : Order) :
    effOrder c o = if isLittle c o = true then .little else .big := by
  cases o with
  | native => cases h : c.hostOrder <;> simp [effOrder, isLittle, h]
  | little | big => rfl

/-- The j-th base-256 digit of a value is the byte whose weight the order makes 256^j. -/
theorem bytesValue_digit (c : Config) (o : Order) {bs : List Byte} {j : Nat} (h : j < bs.length) :
    bytesValue (effOrder c o) bs / 256 ^ j % 256 =
      (bs.getD (weightOffset (isLittle c o) bs.length j) 0#8).toNat := by
  rw [effOrder_eq_ite]
  cases isLittle c o with
  | true => exact leValue_digit bs j
  | false => exact beValue_digit h

theorem weightOffset_lt {width j : Nat} (little : Bool) (h : j < width) :
    weightOffset little width j < width := by
  unfold weightOffset
  split <;> omega

/-- The digits of a value read from MEM. -/
theorem bytesValue_readBytes_digit (s : State) (a : Nat) (o : Order) {width j : Nat}
    (h : j < width) :
    bytesValue (effOrder s.cfg o) (s.readBytes a width) / 256 ^ j % 256 =
      (s.readByte (a + weightOffset (isLittle s.cfg o) width j)).toNat := by
  rw [bytesValue_digit s.cfg o (by rwa [State.readBytes_length]), State.readBytes_length,
    State.readBytes_getD s (weightOffset_lt _ h)]

/-! ## The extension to DOUT (R182) -/

theorem numWidth_eq_typeWidth (ty : NumType) : numWidth ty = typeWidth ty := by
  cases ty <;> rfl

/-- The extension of a type (43_cursor_read.md R182). -/
theorem extendRead_eq_ite (ty : NumType) (raw : Nat) :
    extendRead ty raw = if isSigned ty = true
      then (BitVec.ofNat (8 * numWidth ty) raw).signExtend 128 else zext128 raw := by
  cases ty <;> rfl

theorem numWidth_le (ty : NumType) : numWidth ty ≤ 16 := by cases ty <;> decide

theorem two_pow_eight_mul (n : Nat) : 2 ^ (8 * n) = 256 ^ n := Nat.pow_mul 2 8 n

section
variable {ty : NumType} {raw : Nat} (hraw : raw < 256 ^ numWidth ty)
include hraw

theorem extendRead_toNat (h : isSigned ty = false) : (extendRead ty raw).toNat = raw := by
  have hfits : 256 ^ numWidth ty ≤ 256 ^ 16 := Nat.pow_le_pow_right (by decide) (numWidth_le ty)
  rw [extendRead_eq_ite, h, if_neg Bool.false_ne_true, zext128_toNat (hraw.trans_le hfits)]

theorem extendRead_toInt (h : isSigned ty = true) :
    (extendRead ty raw).toInt =
      if 2 * raw < 256 ^ numWidth ty then (raw : Int)
      else (raw : Int) - (256 ^ numWidth ty : Nat) := by
  have hwidth : 8 * numWidth ty ≤ 128 := Nat.mul_le_mul_left 8 (numWidth_le ty)
  rw [extendRead_eq_ite, if_pos h, BitVec.toInt_signExtend_of_le hwidth, BitVec.toInt_eq_toNat_cond,
    BitVec.toNat_ofNat, two_pow_eight_mul, Nat.mod_eq_of_lt hraw]

end

/-! ## The read -/

/-- A numeric read of bytes that remain (43_cursor_read.md R180). -/
theorem completes_readInstr {s : State} {r : Request} {k : Nat} {c : Cursor} {ty : NumType}
    (hr : s.req = some r) (hgood : GoodSlot s k .reader c) (hin : InMem s c)
    (hle : numWidth ty ≤ c.remaining) (o : Order) :
    Completes s (readInstr ty k o)
      (valueResponse (extendRead ty
        (bytesValue (effOrder s.cfg o) (s.readBytes c.address (numWidth ty)))))
      (rebound s.slot k (some { c with pos := c.pos + numWidth ty })) s.readByte := by
  refine completes_setSlot ?_
  rw [exec_readInstr_of_goodSlot hr hgood hin, if_neg (Nat.not_lt.2 hle)]
  rfl

/-- Settles O35: the digits of the bytes in the access's order, extended as the type says. -/
theorem numericReadsGiveTheBytesValue : Obligations.NumericReadsGiveTheBytesValue := by
  refine fun ty => ⟨selectedByNumeric_readInstr ty, fun s r k o hr =>
    ⟨fails_of_badSlot (.readNum ty o) hr ?_, fun c hgood hin => ?_⟩⟩
  · cases ty <;> rfl
  rw [← numWidth_eq_typeWidth]
  refine ⟨fun hshort => fails_readInstr hr hgood hin hshort o, fun hle => ?_⟩
  have hraw := bytesValue_lt (effOrder s.cfg o) (s.readBytes c.address (numWidth ty))
  rw [State.readBytes_length] at hraw
  exact ⟨_, _, hraw, fun j => bytesValue_readBytes_digit s c.address o, extendRead_toNat hraw,
    extendRead_toInt hraw, completes_readInstr hr hgood hin hle o⟩

/-! ## What an access sees of HOST_ORDER (R201, 20_memory.md R55) -/

/-- The same block on a host of the byte order e. -/
def State.withHostOrder (s : State) (e : Endian) : State :=
  { s with cfg := { s.cfg with hostOrder := e } }

theorem effOrder_withHostOrder {o : Order} (ho : o ≠ .native) (s : State) (e : Endian) :
    effOrder (s.withHostOrder e).cfg o = effOrder s.cfg o := by
  cases o with
  | native => exact absurd rfl ho
  | little | big => rfl

theorem readBytes_withHostOrder (s : State) (e : Endian) (a n : Nat) :
    (s.withHostOrder e).readBytes a n = s.readBytes a n :=
  memRead_congr fun _ _ => rfl

theorem memWrite_withHostOrder (s : State) (e : Endian) (m : Memory) (a : Nat) (bs : List Byte) :
    memWrite (s.withHostOrder e).cfg m a bs = memWrite s.cfg m a bs := by
  induction bs generalizing m a with
  | nil => rfl
  | cons b bs ih => exact ih _ _

theorem storeAndAdvance_withHostOrder (s : State) (e : Endian) (k : Nat) (c : Cursor)
    (bs : List Byte) :
    storeAndAdvance (s.withHostOrder e) k c bs = (storeAndAdvance s k c bs).withHostOrder e := by
  rw [storeAndAdvance, State.writeBytes, memWrite_withHostOrder]
  rfl

/-- A command that reaches MEM does the same on either host where its own part does. -/
theorem onRegion_withHostOrder {s t : State} {k : Nat} {n : Need} {f g : Cursor → State}
    {e : Endian} (hfg : ∀ c, g c = (f c).withHostOrder e) (h : onRegion s k n f = .next t) :
    onRegion (s.withHostOrder e) k n g = .next (t.withHostOrder e) := by
  obtain ⟨hbad, rfl⟩ | ⟨c, hc, hin, rfl⟩ := onRegion_eq_next.1 h
  · exact onRegion_eq_next.2 (.inl ⟨hbad, rfl⟩)
  · exact onRegion_eq_next.2 (.inr ⟨c, hc, hin, (hfg c).symm⟩)

theorem exec_readInstr_withHostOrder {ty : NumType} {s t : State} {k : Nat} {o : Order}
    (ho : o ≠ .native) (e : Endian) (h : exec (readInstr ty k o) s = .next t) :
    exec (readInstr ty k o) (s.withHostOrder e) = .next (t.withHostOrder e) := by
  rw [exec_readInstr] at h ⊢
  obtain ⟨r, hr, h⟩ := withRequest_eq_next.1 h
  refine withRequest_eq_next.2 ⟨r, hr, onRegion_withHostOrder (fun c => ?_) h⟩
  rw [effOrder_withHostOrder ho, readBytes_withHostOrder]
  split <;> rfl

theorem exec_writeInstr_withHostOrder {ty : NumType} {s t : State} {k : Nat} {o : Order}
    (ho : o ≠ .native) (e : Endian) (h : exec (writeInstr ty k o) s = .next t) :
    exec (writeInstr ty k o) (s.withHostOrder e) = .next (t.withHostOrder e) := by
  rw [exec_writeInstr] at h ⊢
  obtain ⟨r, hr, h⟩ := withRequest_eq_next.1 h
  refine withRequest_eq_next.2 ⟨r, hr, onRegion_withHostOrder (fun c => ?_) h⟩
  simp only [effOrder_withHostOrder ho, storeAndAdvance_withHostOrder]
  split <;> rfl

/-- A numeric access sees of its ORD field the byte order alone. -/
theorem exec_eq_of_effOrder_eq {s : State} {o o' : Order}
    (h : effOrder s.cfg o = effOrder s.cfg o') (ty : NumType) (k : Nat) :
    exec (readInstr ty k o) s = exec (readInstr ty k o') s ∧
      exec (writeInstr ty k o) s = exec (writeInstr ty k o') s := by
  simp only [exec_readInstr, exec_writeInstr, readNum, writeNum, h, and_self]

/-- Settles O36: with an explicit order the run on the other host is the same run, and native is the
order of the host. -/
theorem explicitOrdersDoNotDependOnTheHost : Obligations.ExplicitOrdersDoNotDependOnTheHost := by
  refine fun ty s k => ⟨fun o e t t' ho h h' => ?_, fun o e t t' ho h h' => ?_,
    fun hhost => exec_eq_of_effOrder_eq (o := .native) (o' := .little) hhost ty k,
    fun hhost => exec_eq_of_effOrder_eq (o := .native) (o' := .big) hhost ty k⟩
  · cases (exec_readInstr_withHostOrder ho e h).symm.trans h'
    rfl
  · cases (exec_writeInstr_withHostOrder ho e h).symm.trans h'
    exact ⟨rfl, fun _ => rfl⟩

end Sys2Proof.Machine
end

section
/-! Byte-range reads (43_cursor_read.md section 3): RD.BYTES, RD.SLICE and RD.STR are CheckCount
(R195) and then a count of bytes that remain; RD.CSTR finds its count by the terminator (R198). -/

namespace Sys2Proof.Machine

open Sys2Proof.Safety

/-! ## What the four share -/

/-- The words of a byte-range or string read (30_encoding.md R76). -/
theorem selectedBySlot_of_mem_rangeReadRows {w : CmdWord} {g : Group} {mk : Nat → Instr}
    (hrow : ⟨w, g, fun k _ => mk k⟩ ∈ rangeReadRows) (hcodec : g ≠ .codec)
    (hnumeric : g ≠ .numeric) : SelectedBySlot w mk :=
  selectedBySlot_of_mem_opcodeRows (by simp [opcodeRows, hrow]) hcodec hnumeric

/-- A negative count fails CheckCount (R195). -/
theorem withCount_of_neg {s : State} {r : Request} {c : Cursor} (f : Nat → State)
    (h : r.a0.toInt < 0) : withCount s r c f = s.fail .invalidArgument :=
  if_pos h

/-- A count taken from an operand fits DOUT (10_state.md R22). -/
theorem lt_of_toInt_eq {a : Word64} {n : Nat} (h : a.toInt = n) : n < 2 ^ 63 := by
  have hlt := toNat_toInt_lt a
  rwa [h, Int.toNat_natCast] at hlt

theorem zext128_toNat_of_toInt_eq {a : Word64} {n : Nat} (h : a.toInt = n) :
    (zext128 n).toNat = n :=
  zext128_toNat ((lt_of_toInt_eq h).trans (by decide))

section
variable {s : State} {i : Instr} {k n : Nat} {c : Cursor} {e : TextEncoding} {bs : List Byte}

/-- A string read of bytes that TEXT_DECODE rejects. -/
theorem fails_of_finishText (hexec : exec i s = .next (finishText s k c e bs n))
    (hdec : textDecode s.cfg e bs = none) : Fails s i .malformedData := by
  refine fails_of_exec_fail ?_
  rw [hexec, finishText, hdec]

/-- A string read of bytes that TEXT_DECODE gives a text for. -/
theorem completes_of_finishText {txt : Text}
    (hexec : exec i s = .next (finishText s k c e bs n))
    (hdec : textDecode s.cfg e bs = some txt) :
    Completes s i (textResponse (zext128 bs.length) (.bytes bs) txt)
      (rebound s.slot k (some { c with pos := c.pos + n })) s.readByte := by
  refine completes_setSlot ?_
  rw [hexec, finishText, hdec]
  rfl

end

section
variable {s : State} {r : Request} {k n : Nat} {c : Cursor}

/-! ## RD.BYTES (R196) -/

theorem completes_rdBytes (hr : s.req = some r) (hgood : GoodSlot s k .reader c) (hin : InMem s c)
    (hn : r.a0.toInt = n) (hle : n ≤ c.remaining) :
    Completes s (.rdBytes k) (payloadResponse (zext128 n) (.bytes (s.readBytes c.address n)))
      (rebound s.slot k (some { c with pos := c.pos + n })) s.readByte := by
  refine completes_setSlot ?_
  rw [exec_rdBytes hr hgood hin, withCount_of_le _ hn hle]
  rfl

/-! ## RD.SLICE (R197) -/

theorem completes_rdSlice (hr : s.req = some r) (hgood : GoodSlot s k .reader c)
    (hn : r.a0.toInt = n) (hle : n ≤ c.remaining) :
    Completes s (.rdSlice k) (valueResponse (sliceDescriptor n c.address))
      (rebound s.slot k (some { c with pos := c.pos + n })) s.readByte := by
  refine completes_setSlot ?_
  rw [exec_rdSlice hr hgood, withCount_of_le _ hn hle]
  rfl

theorem sliceDescriptor_high (hn : n < 2 ^ 64) (a : Nat) :
    (sliceDescriptor n a).toNat / 2 ^ 64 = n := by
  rw [sliceDescriptor_toNat]
  omega

theorem sliceDescriptor_low (n a : Nat) : (sliceDescriptor n a).toNat % 2 ^ 64 = a % 2 ^ 64 := by
  rw [sliceDescriptor_toNat]
  omega

/-! ## RD.STR (R199) -/

theorem exec_rdStr_of_le (hr : s.req = some r) (hgood : GoodSlot s k .reader c) (hin : InMem s c)
    (e : TextEncoding) (hn : r.a0.toInt = n) (hle : n ≤ c.remaining) :
    exec (.rdStr k e) s = .next (finishText s k c e (s.readBytes c.address n) n) := by
  rw [exec_rdStr hr hgood hin, withCount_of_le _ hn hle]

/-! ## RD.CSTR (R198) -/

theorem exec_rdCstr_of_goodSlot (hr : s.req = some r) (hgood : GoodSlot s k .reader c)
    (hin : InMem s c) : exec (.rdCstr k) s =
      .next (match s.findZero c.address c.remaining with
        | none => s.fail .malformedData
        | some n => finishText s k c .utf8 (s.readBytes c.address n) (n + 1)) :=
  (withRequest_of_req hr _).trans (onRegion_of_goodSlot _ hgood hin)

/-- With no zero byte in what remains. -/
theorem fails_rdCstr_of_unterminated (hr : s.req = some r) (hgood : GoodSlot s k .reader c)
    (hin : InMem s c) (hnone : ∀ j, j < c.remaining → s.readByte (c.address + j) ≠ 0#8) :
    Fails s (.rdCstr k) .malformedData := by
  refine fails_of_exec_fail ?_
  rw [exec_rdCstr_of_goodSlot hr hgood hin, State.findZero_eq_none.2 hnone]

/-- With the first zero byte n bytes on. -/
theorem exec_rdCstr_of_terminator (hr : s.req = some r) (hgood : GoodSlot s k .reader c)
    (hin : InMem s c) (hlt : n < c.remaining) (hzero : s.readByte (c.address + n) = 0#8)
    (hfirst : ∀ j, j < n → s.readByte (c.address + j) ≠ 0#8) :
    exec (.rdCstr k) s =
      .next (finishText s k c .utf8 (s.readBytes c.address n) (n + 1)) := by
  rw [exec_rdCstr_of_goodSlot hr hgood hin, State.findZero_eq_some.2 ⟨hlt, hzero, hfirst⟩]

end

/-! ## The obligations -/

/-- Settles O37: CheckCount, then a copy of the bytes. -/
theorem rdBytesCopiesTheBytes : Obligations.RdBytesCopiesTheBytes := by
  refine ⟨selectedBySlot_of_mem_rangeReadRows (g := .byteRange) (by simp [rangeReadRows])
    (by decide) (by decide), fun s r k hr => ⟨fails_of_badSlot .rdBytes hr rfl, ?_⟩⟩
  intro c hgood hin
  refine ⟨fun hneg => fails_of_exec_fail ?_,
    fun hshort => fails_countedRead hr hgood hin hshort (by simp), fun n hn hle => ?_⟩
  · rw [exec_rdBytes hr hgood hin, withCount_of_neg _ hneg]
  · exact ⟨_, _, zext128_toNat_of_toInt_eq hn, s.readBytes_length _ n,
      fun j hj => s.readBytes_getD hj, completes_rdBytes hr hgood hin hn hle⟩

/-- Settles O38: CheckCount, then the descriptor, whose halves do not meet. -/
theorem rdSliceGivesTheView : Obligations.RdSliceGivesTheView := by
  refine ⟨selectedBySlot_of_mem_rangeReadRows (g := .byteRange) (by simp [rangeReadRows])
    (by decide) (by decide), fun s r k hr => ⟨fails_of_badSlot .rdSlice hr rfl, ?_⟩⟩
  intro c hgood
  refine ⟨fun hneg => fails_of_exec_fail ?_, fun hshort => fails_of_exec_fail ?_,
    fun n hn hle => ?_⟩
  · rw [exec_rdSlice hr hgood, withCount_of_neg _ hneg]
  · rw [exec_rdSlice hr hgood, withCount_of_lt _ hshort]
  · exact ⟨_, sliceDescriptor_high ((lt_of_toInt_eq hn).trans (by decide)) _,
      sliceDescriptor_low _ _, completes_rdSlice hr hgood hn hle⟩

/-- Settles O39: the least offset of a zero byte, then TEXT_DECODE of the bytes before it; with the
terminator at pos there is nothing to decode. -/
theorem rdCstrReadsToTheTerminator : Obligations.RdCstrReadsToTheTerminator := by
  refine ⟨selectedBySlot_of_mem_rangeReadRows (g := .byteRange) (by simp [rangeReadRows])
    (by decide) (by decide), fun s r k hr => ⟨fails_of_badSlot .rdCstr hr rfl, ?_⟩⟩
  intro c hgood hin hlen
  refine ⟨fails_rdCstr_of_unterminated hr hgood hin, fun n hlt hzero hfirst => ?_,
    fun hlt hzero => ?_⟩
  · have hexec := exec_rdCstr_of_terminator hr hgood hin hlt hzero hfirst
    have hle : n ≤ lenMax := by omega
    refine ⟨_, _, ?_, s.readBytes_length c.address n, fun j hj => s.readBytes_getD hj,
      fails_of_finishText hexec, fun txt => completes_of_finishText hexec⟩
    rw [State.readBytes_length, zext128_toNat_of_le_lenMax hle]
  · have hexec := exec_rdCstr_of_terminator hr hgood hin hlt hzero fun j hj => by omega
    exact completes_of_finishText hexec (textDecode_nil _ _)

/-- Settles O40: CheckCount, then TEXT_DECODE of the bytes. -/
theorem rdStrReadsCountedText : Obligations.RdStrReadsCountedText := by
  refine ⟨selectedBySlot_of_mem_rangeReadRows (g := .string) (by simp [rangeReadRows])
    (by decide) (by decide), fun s r k hr => ⟨fails_of_badSlot (.rdStr .utf8) hr rfl, ?_⟩⟩
  intro c hgood hin
  refine ⟨fun hneg => fails_of_exec_fail ?_,
    fun hshort => fails_countedRead hr hgood hin hshort (by simp), fun n hn hle => ?_,
    fun h0 => answers_rdStr_zero hr hgood hin h0 .utf8⟩
  · rw [exec_rdStr hr hgood hin, withCount_of_neg _ hneg]
  · have hexec := exec_rdStr_of_le hr hgood hin .utf8 hn hle
    refine ⟨_, _, ?_, s.readBytes_length c.address n, fun j hj => s.readBytes_getD hj,
      fails_of_finishText hexec, fun txt => completes_of_finishText hexec⟩
    rw [State.readBytes_length, zext128_toNat_of_toInt_eq hn]

end Sys2Proof.Machine
end

section
/-! Cursor writes (44_cursor_write.md sections 1 to 3): the bytes a write stores, and where. -/

namespace Sys2Proof.Machine

open Sys2Proof.Safety

/-! ## The store -/

theorem completes_storeAndAdvance {s : State} {i : Instr} {k : Nat} {c : Cursor} {bs : List Byte}
    {rsp : Response} (h : exec i s = .next ((storeAndAdvance s k c bs).complete rsp)) :
    Completes s i rsp (rebound s.slot k (some { c with pos := c.pos + bs.length }))
      (patched s.readByte c.address bs) :=
  ⟨_, h, rfl, rfl, rfl, rfl, rfl, rfl,
    fun j => (s.writeBytes c.address bs).setSlot_slot k j _,
    fun a => s.writeBytes_readByte c.address a bs⟩

/-- The bytes stored are read back from where they were stored. -/
theorem readBytes_of_patched {u : State} {mem : Nat → Byte} {a : Nat} {bs : List Byte}
    (h : ∀ x, u.readByte x = patched mem a bs x) : u.readBytes a bs.length = bs := by
  refine List.ext_getElem (u.readBytes_length a _) fun j hj hj' => ?_
  have hin : a ≤ a + j ∧ a + j < a + bs.length := by omega
  have hread := u.readBytes_getD (a := a) hj'
  rwa [h, patched, if_pos hin, Nat.add_sub_cancel_left, List.getD_eq_getElem _ _ hj,
    List.getD_eq_getElem _ _ hj'] at hread

/-! ## WR.BYTES (R234) -/

theorem formed_wrBytes {cfg : Config} {k : Nat} {r : Request} {bs : List Byte}
    (hp : r.ipay = .bytes bs) (hl : bs.length ≤ lenMax) : r.formed cfg (.wrBytes k) = true := by
  simp [Request.formed, Instr.payloadKind, hp, Payload.fits, Payload.length, hl]

theorem completes_wrBytes {s : State} {r : Request} {k : Nat} {c : Cursor} {bs : List Byte}
    (hr : s.req = some r) (hp : r.ipay = .bytes bs) (hl : bs.length ≤ lenMax)
    (hgood : GoodSlot s k .writer c) (hin : InMem s c) (hle : bs.length ≤ c.remaining) :
    Completes s (.wrBytes k) (valueResponse (zext128 bs.length))
      (rebound s.slot k (some { c with pos := c.pos + bs.length }))
      (patched s.readByte c.address bs) :=
  completes_storeAndAdvance (by rw [exec_wrBytes hr hp hl hgood hin, if_neg (Nat.not_lt.2 hle)])

/-- Settles O44: the slot check, the bounds check, then the store of the payload. -/
theorem wrBytesStoresThePayload : Obligations.WrBytesStoresThePayload := by
  refine ⟨selectedBySlot_of_mem_opcodeRows (g := .byteRange)
    (by simp [opcodeRows, rangeWriteRows]) (by decide) (by decide), fun s r k bs hr hp hl =>
    ⟨fails_of_badSlot .wrBytes hr (formed_wrBytes hp hl), fun c hgood hin =>
      ⟨fails_wrBytes hr hp hl hgood hin, fun hle => ?_⟩⟩⟩
  exact ⟨_, zext128_toNat_of_le_lenMax hl, completes_wrBytes hr hp hl hgood hin hle⟩

/-! ## Numeric writes (R220 to R233) -/

/-- The words of a numeric write (30_encoding.md R71, R76). -/
theorem selectedByNumeric_writeInstr (ty : NumType) :
    SelectedByNumeric (BitVec.ofNat 32 (0x40 + numIndex ty)) (writeInstr ty) := by
  refine selectedByNumeric_of_mem_opcodeRows ?_
  cases ty <;> simp [opcodeRows, numericWriteRows, writeInstr, numIndex]

theorem writeValue_eq_mod (ty : NumType) (din : Word128) :
    writeValue ty din = din.toNat % 256 ^ numWidth ty := by
  rw [writeValue, two_pow_eight_mul]

/-- The digits below the n-th are those of the value below 256^n. -/
theorem mod_pow_digit {n j : Nat} (v : Nat) (h : j < n) :
    v % 256 ^ n / 256 ^ j % 256 = v / 256 ^ j % 256 := by
  obtain ⟨m, rfl⟩ := Nat.exists_eq_add_of_lt h
  rw [Nat.pow_succ, Nat.pow_add, Nat.mul_assoc, Nat.mod_mul_right_div_self,
    Nat.mod_mod_of_dvd _ (Nat.dvd_mul_left _ _)]

/-- The byte whose weight the order makes 256^j is the j-th base-256 digit of the value. -/
theorem valueBytes_digit (c : Config) (o : Order) {n j : Nat} (v : Nat) (h : j < n) :
    ((valueBytes (effOrder c o) n v).getD (weightOffset (isLittle c o) n j) 0#8).toNat =
      v / 256 ^ j % 256 := by
  have hdigit := bytesValue_digit c o (bs := valueBytes (effOrder c o) n v) (j := j)
    (by rwa [valueBytes_length])
  rwa [valueBytes_length, bytesValue_valueBytes, mod_pow_digit v h, eq_comm] at hdigit

/-- A numeric write that fits (44_cursor_write.md R220). -/
theorem completes_writeInstr {s : State} {r : Request} {k : Nat} {c : Cursor} {ty : NumType}
    (hr : s.req = some r) (hgood : GoodSlot s k .writer c) (hin : InMem s c)
    (hle : numWidth ty ≤ c.remaining) (o : Order) :
    Completes s (writeInstr ty k o) okResponse
      (rebound s.slot k (some { c with pos := c.pos + numWidth ty }))
      (patched s.readByte c.address
        (valueBytes (effOrder s.cfg o) (numWidth ty) (writeValue ty r.din))) := by
  have hexec := exec_writeInstr_of_goodSlot hr hgood hin ty o
  rw [if_neg (Nat.not_lt.2 hle)] at hexec
  simpa only [valueBytes_length] using completes_storeAndAdvance hexec

/-- Settles O43: the slot check, the bounds check, then the store of the digits of DIN's low W
bytes. -/
theorem numericWritesStoreTheValuesBytes : Obligations.NumericWritesStoreTheValuesBytes := by
  refine fun ty => ⟨selectedByNumeric_writeInstr ty, fun s r k o hr =>
    ⟨fails_of_badSlot (.writeNum ty o) hr ?_, fun c hgood hin => ?_⟩⟩
  · cases ty <;> rfl
  rw [← numWidth_eq_typeWidth]
  refine ⟨fun hshort => fails_writeInstr hr hgood hin hshort o, fun hle => ?_⟩
  refine ⟨_, valueBytes_length _ _ _, fun j hj => ?_, completes_writeInstr hr hgood hin hle o⟩
  rw [valueBytes_digit _ _ _ hj, writeValue_eq_mod, mod_pow_digit _ hj]

end Sys2Proof.Machine
end

section
/-! A value read back (44_cursor_write.md R235): a read of the bytes that a write stored sees the
value written, in the read's own order. -/

namespace Sys2Proof.Machine

open Sys2Proof.Safety

/-! ## The value of the stored bytes -/

/-- The bytes of one order, read in the other, give the digits in reverse. -/
theorem bytesValue_valueBytes_reversed_digit {e e' : Endian} {n x : Nat} (v : Nat) (he : e ≠ e')
    (hx : x < n) :
    bytesValue e' (valueBytes e n v) / 256 ^ x % 256 = v / 256 ^ (n - 1 - x) % 256 := by
  have hrev : bytesValue e' (valueBytes e n v) = leValue (toLE n v).reverse := by
    cases e <;> cases e'
    case little.big | big.little => rfl
    all_goals exact absurd rfl he
  rw [hrev, leValue_digit, getD_reverse (by rwa [toLE_length]), toLE_length,
    toLE_getD n v _ (by omega)]

/-! ## Its extension to DOUT -/

/-- The low W bytes of DOUT are the value read, whatever the extension. -/
theorem extendRead_setWidth (ty : NumType) (raw : Nat) :
    (extendRead ty raw).setWidth (8 * numWidth ty) = BitVec.ofNat (8 * numWidth ty) raw := by
  have hwidth : 8 * numWidth ty ≤ 128 := Nat.mul_le_mul_left 8 (numWidth_le ty)
  rw [extendRead_eq_ite]
  split
  · ext i hi
    have hi128 : i < 128 := hi.trans_le hwidth
    rw [BitVec.getElem_setWidth, BitVec.getLsbD_signExtend, decide_eq_true hi128, if_pos hi,
      Bool.true_and, BitVec.getLsbD_eq_getElem hi]
  · exact BitVec.setWidth_ofNat_of_le hwidth raw

theorem extendRead_digit {ty : NumType} {x : Nat} (raw : Nat) (hx : x < numWidth ty) :
    (extendRead ty raw).toNat / 256 ^ x % 256 = raw / 256 ^ x % 256 := by
  have hlow := congrArg BitVec.toNat (extendRead_setWidth ty raw)
  rw [BitVec.toNat_setWidth, BitVec.toNat_ofNat, two_pow_eight_mul] at hlow
  rw [← mod_pow_digit _ hx, hlow, mod_pow_digit _ hx]

/-- The value written, sign-extended, is the signed reading of DIN's low W bytes. -/
theorem extendRead_writeValue_toInt {ty : NumType} (h : isSigned ty = true) (din : Word128) :
    (extendRead ty (writeValue ty din)).toInt = (din.setWidth (8 * numWidth ty)).toInt := by
  have hwidth : 8 * numWidth ty ≤ 128 := Nat.mul_le_mul_left 8 (numWidth_le ty)
  have hlow : BitVec.ofNat (8 * numWidth ty) (writeValue ty din) =
      din.setWidth (8 * numWidth ty) :=
    BitVec.eq_of_toNat_eq (by
      rw [BitVec.toNat_ofNat, BitVec.toNat_setWidth, writeValue, Nat.mod_mod])
  rw [extendRead_eq_ite, if_pos h, hlow, BitVec.toInt_signExtend_of_le hwidth]

theorem writeValue_lt (ty : NumType) (din : Word128) : writeValue ty din < 256 ^ numWidth ty := by
  rw [writeValue_eq_mod]
  exact Nat.mod_lt _ (Nat.pow_pos (by decide))

/-! ## The read -/

/-- A numeric read, in any order, of the bytes that a numeric write of the type stored. -/
theorem completes_readInstr_of_written {ty : NumType} {o : Order} {s t u : State}
    {r r' : Request} {k j : Nat} {c d : Cursor} (hr : s.req = some r)
    (hgood : GoodSlot s k .writer c) (hin : InMem s c) (hle : numWidth ty ≤ c.remaining)
    (hexec : exec (writeInstr ty k o) s = .next t) (hcfg : u.cfg = t.cfg)
    (hmem : ∀ a, u.readByte a = t.readByte a) (hr' : u.req = some r')
    (hgood' : GoodSlot u j .reader d) (hin' : InMem u d) (hat : d.address = c.address)
    (hle' : numWidth ty ≤ d.remaining) (o' : Order) :
    Completes u (readInstr ty j o')
      (valueResponse (extendRead ty (bytesValue (effOrder u.cfg o')
        (valueBytes (effOrder u.cfg o) (numWidth ty) (writeValue ty r.din)))))
      (rebound u.slot j (some { d with pos := d.pos + numWidth ty })) u.readByte := by
  obtain ⟨t', hexec', -, -, -, hcfg', -, -, -, hmem'⟩ := completes_writeInstr hr hgood hin hle o
  obtain rfl : t = t' := by simpa [hexec] using hexec'
  have hbytes := readBytes_of_patched fun x => (hmem x).trans (hmem' x)
  rw [valueBytes_length, ← hcfg', ← hcfg, ← hat] at hbytes
  rw [← hbytes]
  exact completes_readInstr hr' hgood' hin' hle' o'

/-- Settles O46: the same order gives the value stored, the other its digits in reverse; the
extension keeps both. -/
theorem valueWrittenIsReadBack : Obligations.ValueWrittenIsReadBack := by
  intro ty o s t r k c hr hgood hin hle hexec u r' j d hcfg hmem hr' hgood' hin' hat hle'
  rw [← numWidth_eq_typeWidth] at hle hle' ⊢
  have hread := completes_readInstr_of_written hr hgood hin hle hexec hcfg hmem hr' hgood' hin' hat
    hle'
  refine ⟨⟨extendRead ty (writeValue ty r.din), fun hu => ?_,
    fun hs => extendRead_writeValue_toInt hs r.din, ?_⟩, fun o' ho => ⟨_, fun x hx => ?_, hread o'⟩⟩
  · rw [extendRead_toNat (writeValue_lt ty r.din) hu, writeValue_eq_mod]
  · have hsame := hread o
    rwa [bytesValue_valueBytes, Nat.mod_eq_of_lt (writeValue_lt ty r.din)] at hsame
  · have hother : effOrder u.cfg o ≠ effOrder u.cfg o' := by
      obtain ⟨rfl, rfl⟩ | ⟨rfl, rfl⟩ := ho <;> exact Endian.noConfusion
    have hrev : numWidth ty - 1 - x < numWidth ty := by omega
    rw [extendRead_digit _ hx, bytesValue_valueBytes_reversed_digit _ hother hx, writeValue_eq_mod,
      mod_pow_digit _ hrev]

end Sys2Proof.Machine
end

section
/-! What a failure leaves and what is kept of it (60_exceptions.md R256, R262): every pending
request ends in `State.complete`, and one that fails completes the state it found. -/

namespace Sys2Proof.Machine

open Sys2Proof.Safety

/-- What a command does to the slots and to MEM is no record of a failure. -/
theorem Effect.history_eq {i : Instr} {s u : State} {r : Request} (he : Effect i s r u) :
    u.history = s.history := by
  cases he <;> rfl

/-- A pending request ends in a completion, which on a failure is that of the state it found. -/
theorem step_completes {s t : State} {r : Request} (hr : s.req = some r)
    (hstep : step s = .next t) :
    ∃ rsp u, t = u.complete rsp ∧ u.history = s.history ∧ (rsp.status ≠ .ok → u = s) := by
  cases hd : decode r.cmd with
  | some i =>
    rw [step_of_decode hr hd] at hstep
    obtain ⟨r', -, rsp, u, rfl, -, heff, hfail⟩ := exec_next hstep
    exact ⟨rsp, u, rfl, heff.history_eq, hfail⟩
  | none =>
    rw [step_of_illegal hr hd] at hstep
    cases hstep
    exact ⟨_, s, rfl, rfl, fun _ => rfl⟩

/-- Settles O53: the state completed is the one the request was found in, and completion touches
neither the slots nor MEM. -/
theorem failureChangesNoPersistentState : Obligations.FailureChangesNoPersistentState := by
  intro s t r rsp hr hstep hrsp hst
  obtain ⟨rsp', u, rfl, -, hfail⟩ := step_completes hr hstep
  cases hrsp
  rw [hfail hst]
  exact ⟨rfl, rfl, rfl, fun _ => rfl, fun _ => rfl⟩

/-- No action of the host changes the history (60_exceptions.md R262). -/
theorem hostStep_history {s t : State} {a : HostAction} (h : hostStep s a = .next t) :
    t.history = s.history := by
  obtain ⟨r, -, rfl⟩ | ⟨x, bs, -, -, rfl⟩ | ⟨f, -, rfl⟩ | ⟨-, rfl⟩ := hostStep_cases h
  all_goals rfl

/-- Settles O54: completion is what appends to the history, and only a pending request completes. -/
theorem historyKeepsEveryFailure : Obligations.HistoryKeepsEveryFailure := by
  refine ⟨fun s t r hr hstep => ?_, fun s t hr hstep => ?_⟩
  · obtain ⟨rsp, u, rfl, hhist, -⟩ := step_completes hr hstep
    exact ⟨rsp, rfl, by rw [State.complete_history, hhist]⟩
  · cases hh : s.host with
    | nil =>
      simp only [step, hr, hh] at hstep
      cases hstep
      rfl
    | cons a rest =>
      rw [step_of_host hr hh] at hstep
      exact hostStep_history (s := { s with host := rest }) hstep

end Sys2Proof.Machine
end

section
/-! The order of the failures (60_exceptions.md R259), read off each command: its meaning is a chain
of checks, and the checks stand in the order of the list. An entry of the list whose status the
command cannot report (R250) does not apply to it, so the list of a command is short. -/

namespace Sys2Proof.Machine

open Sys2Proof.Safety

/-! ## The list of one command -/

/-- The codec commands have no slot (30_encoding.md R72). -/
theorem isCodec_eq_false_of_slot? {i : Instr} {k : Nat} (h : i.slot? = some k) :
    isCodec i = false := by
  cases i with
  | b32Enclen | b32Declen | b32Encode | b32Decode | b32Strip | b32Decodep => cases h
  | _ => rfl

theorem canRaise_of_operandFails {s : State} {r : Request} {i : Instr} (h : operandFails s r i) :
    canRaise i .invalidArgument = true := by
  cases i with
  | b32Enclen | b32Declen | b32Encode | b32Decode | b32Decodep => rfl
  | curOpenr | curOpenw | curSetpos | rdBytes | rdSlice | rdStr => rfl
  | _ => exact h.elim

theorem canRaise_of_capacityFails {r : Request} {i : Instr} (h : capacityFails r i) :
    canRaise i .invalidArgument = true := by
  cases i with
  | b32Encode | b32Decode | b32Decodep => rfl
  | _ => exact h.elim

theorem canRaise_of_underruns {s : State} {r : Request} {i : Instr} (h : underruns s r i) :
    canRaise i .bufferUnderrun = true := by
  obtain ⟨k, c, -, ⟨ty, o, rfl, -⟩ | ⟨hi, -⟩⟩ := h
  · cases ty <;> rfl
  · simp only [List.mem_cons, List.not_mem_nil, or_false] at hi
    obtain rfl | rfl | rfl := hi <;> rfl

theorem canRaise_of_textFails {s : State} {r : Request} {i : Instr} (h : textFails s r i) :
    canRaise i .malformedData = true := by
  obtain ⟨k, c, -, ⟨rfl, -⟩ | ⟨rfl, -⟩⟩ := h <;> rfl

theorem canRaise_of_firstBadChar {r : Request} {i : Instr} {j : Nat} {c : CodeUnit}
    (h : firstBadChar r i j c) : canRaise i .invalidCharacter = true := by
  obtain ⟨cs, -, rfl | ⟨rfl, -⟩, -⟩ := h <;> rfl

/-- An entry of the list applies only to a command that can report its status. -/
theorem canRaise_of_mem_failureOrder {s : State} {r : Request} {i : Instr} {e : Prop × Status}
    (he : e ∈ failureOrder s r (some i)) (h : e.1) : canRaise i e.2 = true := by
  simp only [failureOrder, List.mem_cons, List.not_mem_nil, or_false] at he
  obtain rfl | rfl | rfl | rfl | rfl | rfl | rfl := he
  · obtain ⟨k, hk, -⟩ := h
    simp only [canRaise, isCodec_eq_false_of_slot? hk, Bool.not_false]
  · exact canRaise_of_operandFails h
  · exact canRaise_of_capacityFails h
  · exact canRaise_of_underruns h
  · obtain ⟨k, c, -, -, hwrite, -⟩ := h
    exact hwrite
  · exact canRaise_of_textFails h
  · obtain ⟨j, c, hbad⟩ := h
    exact canRaise_of_firstBadChar hbad

/-- The entries of the list whose status the command can report. -/
def ownFailures (s : State) (r : Request) (i : Instr) : List (Prop × Status) :=
  (failureOrder s r (some i)).filter fun e => canRaise i e.2

/-- Entries that do not apply may be left out. -/
theorem firstThatApplies_of_filter (q : Status → Bool) {st : Status} {l : List (Prop × Status)}
    (hq : ∀ e ∈ l, e.1 → q e.2 = true)
    (h : firstThatApplies (l.filter fun e => q e.2) st) : firstThatApplies l st := by
  induction l with
  | nil => exact h
  | cons e l ih =>
    have ih := ih fun f hf => hq f (List.mem_cons_of_mem e hf)
    rw [List.filter_cons] at h
    by_cases he : q e.2 = true
    · rw [if_pos he] at h
      obtain ⟨hpos, hneg⟩ := h
      exact ⟨hpos, fun hp => ih (hneg hp)⟩
    · rw [if_neg he] at h
      exact ⟨fun hp => absurd (hq e List.mem_cons_self hp) he, fun _ => ih h⟩

/-! ## A chain of checks -/

/-- The response, if there is one, has the first status of the list that applies. -/
def Reports (t : State) (l : List (Prop × Status)) : Prop :=
  ∀ rsp, t.resp = some rsp → firstThatApplies l rsp.status

section
variable {s t u : State} {p q p' : Prop} {f : Status} {l : List (Prop × Status)}

theorem Reports.ok (u : State) {rsp : Response} (h : rsp.status = .ok) :
    Reports (u.complete rsp) [] := by
  rintro _ ⟨⟩
  exact h

theorem Reports.fail (s : State) (hp : p) : Reports (s.fail f) ((p, f) :: l) := by
  rintro _ ⟨⟩
  exact ⟨fun _ => rfl, fun hn => absurd hp hn⟩

theorem Reports.skip (hp : ¬ p) (h : Reports t l) : Reports t ((p, f) :: l) :=
  fun rsp hrsp => ⟨fun h' => absurd h' hp, fun _ => h rsp hrsp⟩

/-- A check that the meaning makes before the rest. -/
theorem Reports.check [Decidable q] (hq : q ↔ p) (h : ¬ p → Reports u l) :
    Reports (if q then s.fail f else u) ((p, f) :: l) := by
  split
  · next hc => exact .fail s (hq.1 hc)
  · next hc => exact .skip (mt hq.2 hc) (h (mt hq.2 hc))

/-- A check of the meaning that stands for two entries of one status. -/
theorem Reports.check_or [Decidable q] (hq : q ↔ p ∨ p') (h : Reports u l) :
    Reports (if q then s.fail f else u) ((p, f) :: (p', f) :: l) := by
  by_cases hp : p
  · rw [if_pos (hq.2 (.inl hp))]
    exact .fail s hp
  · exact .skip hp (.check (hq.trans (or_iff_right hp)) fun _ => h)

end

/-- A meaning with its request pending runs on that request. -/
theorem next_of_withRequest {s t : State} {r : Request} {g : Request → Result}
    (hr : s.req = some r) (h : withRequest s g = .next t) : g r = .next t :=
  (withRequest_of_req hr g).symm.trans h

/-! ## The slot check -/

theorem slot?_of_checksSlot {i : Instr} {k : Nat} {n : Need} (h : ChecksSlot k n i) :
    i.slot? = some k := by
  cases h with
  | readNum ty | writeNum ty => cases ty <;> rfl
  | _ => rfl

theorem needOf_of_checksSlot {i : Instr} {k : Nat} {n : Need} (h : ChecksSlot k n i) :
    needOf i = some n := by
  cases h with
  | readNum ty | writeNum ty => cases ty <;> rfl
  | _ => rfl

/-- For the commands that run CheckSlot, item 2 of the list is its failure. -/
theorem slotFails_iff_badSlot {s : State} {i : Instr} {k : Nat} {n : Need}
    (h : ChecksSlot k n i) : slotFails s i ↔ BadSlot s k n := by
  simp [slotFails, slot?_of_checksSlot h, needOf_of_checksSlot h]

/-- For a construction, item 2 of the list is its index check (42_cursor_control.md R152). -/
theorem slotFails_openInstr (s : State) (m : Mode) (k : Nat) :
    slotFails s (openInstr m k) ↔ s.cfg.nslot ≤ k := by
  cases m <;> simp [slotFails, openInstr, Instr.slot?, needOf, isRead, isWrite]

theorem goodSlot_not_bad {s : State} {k : Nat} {n : Need} {c : Cursor} (h : GoodSlot s k n c) :
    ¬ BadSlot s k n := by
  rw [← checkSlot_bad, checkSlot_good.2 h]
  exact Option.some_ne_none c

section
variable {s t : State} {i : Instr} {k : Nat} {n : Need} {f : Cursor → State}
  {l : List (Prop × Status)}

theorem reports_onSlot (hi : ChecksSlot k n i) (hexec : onSlot s k n f = .next t)
    (h : ∀ c, GoodSlot s k n c → Reports (f c) l) :
    Reports t ((slotFails s i, .illegalCommand) :: l) := by
  obtain ⟨hc, rfl⟩ | ⟨c, hc, rfl⟩ := onSlot_eq_next.1 hexec
  · exact .fail s ((slotFails_iff_badSlot hi).2 (checkSlot_bad.1 hc))
  · have hgood := checkSlot_good.1 hc
    exact .skip (mt (slotFails_iff_badSlot hi).1 (goodSlot_not_bad hgood)) (h c hgood)

theorem reports_onRegion (hi : ChecksSlot k n i) (hexec : onRegion s k n f = .next t)
    (h : ∀ c, GoodSlot s k n c → Reports (f c) l) :
    Reports t ((slotFails s i, .illegalCommand) :: l) := by
  refine reports_onSlot (f := f) hi ?_ h
  obtain ⟨hc, rfl⟩ | ⟨c, hc, -, rfl⟩ := onRegion_eq_next.1 hexec
  · exact onSlot_of_badSlot f (checkSlot_bad.1 hc)
  · exact onSlot_of_goodSlot f (checkSlot_good.1 hc)

end

/-! ## Items 5 and 6 on a slot that holds a cursor -/

/-- The type of a numeric read. -/
def readType? : Instr → Option NumType
  | .rdU8 _ _ => some .u8 | .rdI8 _ _ => some .i8 | .rdU16 _ _ => some .u16
  | .rdI16 _ _ => some .i16 | .rdU32 _ _ => some .u32 | .rdI32 _ _ => some .i32
  | .rdU64 _ _ => some .u64 | .rdI64 _ _ => some .i64 | .rdU128 _ _ => some .u128
  | .rdI128 _ _ => some .i128 | .rdF32 _ _ => some .f32 | .rdF64 _ _ => some .f64
  | _ => none

theorem readType?_readInstr (ty : NumType) (k : Nat) (o : Order) :
    readType? (readInstr ty k o) = some ty := by
  cases ty <;> rfl

/-- The counted reads have a slot, and are no numeric reads. -/
theorem countedRead_fields {i : Instr} {k : Nat}
    (h : i ∈ [.rdBytes k, .rdSlice k, .rdStr k .utf8]) :
    i.slot? = some k ∧ readType? i = none := by
  simp only [List.mem_cons, List.not_mem_nil, or_false] at h
  obtain rfl | rfl | rfl := h <;> exact ⟨rfl, rfl⟩

section
variable {s : State} {k : Nat} {c : Cursor} (hslot : s.slot k = some c)
include hslot

theorem underruns_readInstr (r : Request) (ty : NumType) (o : Order) :
    underruns s r (readInstr ty k o) ↔ c.remaining < numWidth ty := by
  constructor
  · rintro ⟨k', c', hslot', ⟨ty', o', hi, hlt⟩ | ⟨hmem, -⟩⟩
    · have hk := congrArg Instr.slot? hi
      have hty := congrArg readType? hi
      rw [slot?_of_checksSlot (.readNum ty o), slot?_of_checksSlot (.readNum ty' o')] at hk
      rw [readType?_readInstr, readType?_readInstr] at hty
      cases hk
      cases hty
      cases hslot.symm.trans hslot'
      rwa [← numWidth_eq_typeWidth] at hlt
    · have hty := (countedRead_fields hmem).2
      rw [readType?_readInstr] at hty
      cases hty
  · exact fun h => ⟨k, c, hslot, .inl ⟨ty, o, rfl, numWidth_eq_typeWidth ty ▸ h⟩⟩

theorem underruns_countedRead (r : Request) {i : Instr}
    (hi : i ∈ [.rdBytes k, .rdSlice k, .rdStr k .utf8]) :
    underruns s r i ↔ (c.remaining : Int) < r.a0.toInt := by
  obtain ⟨hk, hty⟩ := countedRead_fields hi
  constructor
  · rintro ⟨k', c', hslot', ⟨ty', o', rfl, -⟩ | ⟨hmem, hlt⟩⟩
    · rw [readType?_readInstr] at hty
      cases hty
    · cases hk.symm.trans (countedRead_fields hmem).1
      cases hslot.symm.trans hslot'
      exact hlt
  · exact fun h => ⟨k, c, hslot, .inr ⟨hi, h⟩⟩

theorem overruns_iff (r : Request) {i : Instr} (hk : i.slot? = some k) (hi : isWrite i = true) :
    overruns s r i ↔ c.remaining < storeWidth r i := by
  constructor
  · rintro ⟨k', c', hk', hslot', -, hlt⟩
    cases hk.symm.trans hk'
    cases hslot.symm.trans hslot'
    exact hlt
  · exact fun h => ⟨k, c, hk, hslot, hi, h⟩

theorem textFails_rdStr (r : Request) :
    textFails s r (.rdStr k .utf8) ↔
      textDecode s.cfg .utf8 (s.readBytes c.address r.a0.toInt.toNat) = none := by
  constructor
  · rintro ⟨k', c', hslot', ⟨hi, -⟩ | ⟨hi, hdec⟩⟩ <;> cases hi
    cases hslot.symm.trans hslot'
    exact hdec
  · exact fun h => ⟨k, c, hslot, .inr ⟨rfl, h⟩⟩

/-- The terminator of item 6 is the zero byte that `findZero` finds (43_cursor_read.md R198). -/
theorem textFails_rdCstr (r : Request) :
    textFails s r (.rdCstr k) ↔ s.findZero c.address c.remaining = none ∨
      ∃ n, s.findZero c.address c.remaining = some n ∧
        textDecode s.cfg .utf8 (s.readBytes c.address n) = none := by
  simp only [State.findZero_eq_none, State.findZero_eq_some, and_assoc]
  constructor
  · rintro ⟨k', c', hslot', ⟨hi, htext⟩ | ⟨hi, -⟩⟩ <;> cases hi
    cases hslot.symm.trans hslot'
    exact htext
  · exact fun h => ⟨k, c, hslot, .inl ⟨rfl, h⟩⟩

end

/-! ## Reads, writes and position -/

theorem ownFailures_readInstr (s : State) (r : Request) (ty : NumType) (k : Nat) (o : Order) :
    ownFailures s r (readInstr ty k o) = [(slotFails s (readInstr ty k o), .illegalCommand),
      (underruns s r (readInstr ty k o), .bufferUnderrun)] := by
  cases ty <;> rfl

theorem ownFailures_writeInstr (s : State) (r : Request) (ty : NumType) (k : Nat) (o : Order) :
    ownFailures s r (writeInstr ty k o) = [(slotFails s (writeInstr ty k o), .illegalCommand),
      (overruns s r (writeInstr ty k o), .bufferOverrun)] := by
  cases ty <;> rfl

theorem isWrite_writeInstr (ty : NumType) (k : Nat) (o : Order) :
    isWrite (writeInstr ty k o) = true := by
  cases ty <;> rfl

/-- CheckCount is items 3 and 5 of a counted read (43_cursor_read.md R195); item 4 is the
codec's. -/
theorem reports_withCount {s : State} {r : Request} {k : Nat} {n : Need} {c : Cursor} {i : Instr}
    {f : Nat → State} {l : List (Prop × Status)} (hgood : GoodSlot s k n c)
    (hi : i ∈ [.rdBytes k, .rdSlice k, .rdStr k .utf8]) (h : Reports (f r.a0.toInt.toNat) l) :
    Reports (withCount s r c f) ((operandFails s r i, .invalidArgument) ::
      (capacityFails r i, .invalidArgument) :: (underruns s r i, .bufferUnderrun) :: l) := by
  obtain ⟨-, hslot, -⟩ := hgood
  have hunder := underruns_countedRead hslot r hi
  simp only [List.mem_cons, List.not_mem_nil, or_false] at hi
  refine .check ?_ fun _ => .skip ?_ (.check hunder.symm fun _ => h)
  · obtain rfl | rfl | rfl := hi <;> rfl
  · obtain rfl | rfl | rfl := hi <;> exact id

/-- The end of a string read makes the check of item 6. -/
theorem reports_finishText {s : State} {k n : Nat} {c : Cursor} {e : TextEncoding}
    {bs : List Byte} {p : Prop} (h : textDecode s.cfg e bs = none ↔ p) :
    Reports (finishText s k c e bs n) [(p, .malformedData)] := by
  unfold finishText
  split
  · next hdec => exact .fail s (h.1 hdec)
  · next hdec => exact .skip (fun hp => by simp [h.2 hp] at hdec) (.ok _ rfl)

/-- The commands that run CheckSlot. -/
theorem reports_of_checksSlot {s t : State} {r : Request} {k : Nat} {n : Need} {i : Instr}
    (hr : s.req = some r) (hi : ChecksSlot k n i) (hexec : exec i s = .next t) :
    Reports t (ownFailures s r i) := by
  have hcheck := hi
  cases hi with
  | getpos | rem | close =>
    exact reports_onSlot hcheck (next_of_withRequest hr hexec) fun _ _ => .ok _ rfl
  | setpos =>
    refine reports_onSlot hcheck (next_of_withRequest hr hexec) fun c ⟨_, hslot, _⟩ => ?_
    refine .check ?_ fun _ => .skip id (.ok _ rfl)
    simp [operandFails, hslot, signedOperand]
  | readNum ty o =>
    rw [exec_readInstr] at hexec
    rw [ownFailures_readInstr]
    refine reports_onRegion hcheck (next_of_withRequest hr hexec) fun c ⟨_, hslot, _⟩ => ?_
    exact .check (underruns_readInstr hslot r ty o).symm fun _ => .ok _ rfl
  | rdBytes =>
    exact reports_onRegion hcheck (next_of_withRequest hr hexec) fun c hgood =>
      reports_withCount hgood (by simp) (.ok _ rfl)
  | rdSlice =>
    exact reports_onSlot hcheck (next_of_withRequest hr hexec) fun c hgood =>
      reports_withCount hgood (by simp) (.ok _ rfl)
  | rdCstr =>
    refine reports_onRegion hcheck (next_of_withRequest hr hexec) fun c ⟨_, hslot, _⟩ => ?_
    have htext := textFails_rdCstr hslot r
    split
    · next hz => exact .fail s (htext.2 (.inl hz))
    · next n hz => exact reports_finishText (by simp [htext, hz])
  | rdStr e =>
    cases e
    refine reports_onRegion hcheck (next_of_withRequest hr hexec)
      fun c hgood => reports_withCount hgood (by simp) (reports_finishText ?_)
    obtain ⟨-, hslot, -⟩ := hgood
    exact (textFails_rdStr hslot r).symm
  | writeNum ty o =>
    rw [exec_writeInstr] at hexec
    rw [ownFailures_writeInstr]
    refine reports_onRegion hcheck (next_of_withRequest hr hexec)
      fun c ⟨_, hslot, _⟩ => .check ?_ fun _ => .ok _ rfl
    rw [overruns_iff hslot r (slot?_of_checksSlot hcheck) (isWrite_writeInstr ty k o),
      storeWidth_writeInstr]
  | wrBytes =>
    obtain ⟨bs, hp, -, hbytes⟩ := withBytes_eq_next.1 (next_of_withRequest hr hexec)
    refine reports_onRegion hcheck hbytes fun c ⟨_, hslot, _⟩ => .check ?_ fun _ => .ok _ rfl
    rw [overruns_iff hslot r rfl rfl, storeWidth, hp, Payload.length]

/-! ## Construction -/

theorem ownFailures_openInstr (s : State) (r : Request) (m : Mode) (k : Nat) :
    ownFailures s r (openInstr m k) = [(slotFails s (openInstr m k), .illegalCommand),
      (operandFails s r (openInstr m k), .invalidArgument), (False, .invalidArgument)] := by
  cases m <;> rfl

theorem operandFails_openInstr (s : State) (r : Request) (m : Mode) (k : Nat) :
    operandFails s r (openInstr m k) ↔ badRegion s.cfg r.a0.toNat r.a1.toInt = true := by
  rw [badRegion_iff]
  cases m <;> rfl

theorem reports_openInstr {s t : State} {r : Request} {m : Mode} {k : Nat} (hr : s.req = some r)
    (hexec : exec (openInstr m k) s = .next t) : Reports t (ownFailures s r (openInstr m k)) := by
  rw [exec_openInstr_of_req hr, Host.Outcome.next.injEq] at hexec
  rw [ownFailures_openInstr, ← hexec]
  exact .check (slotFails_openInstr s m k).symm fun _ =>
    .check (operandFails_openInstr s r m k).symm fun _ => .skip id (.ok _ rfl)

/-! ## The codec -/

/-- The command decodes the text src: the whole payload, or the stripped one (41_base32.md R109,
R111). -/
inductive Decodes (r : Request) : Instr → List CodeUnit → Prop
  | whole {cs : List CodeUnit} (hp : r.ipay = .chars cs) : Decodes r .b32Decode cs
  | stripped {cs : List CodeUnit} {m : Nat} (hp : r.ipay = .chars cs) (hm : IsStripped cs m) :
      Decodes r .b32Decodep (cs.take m)

theorem getD_take_of_lt (cs : List CodeUnit) {l m : Nat} (h : l < m) :
    (cs.take m).getD l 0 = cs.getD l 0 := by
  rw [List.getD_eq_getElem?_getD, List.getElem?_take_of_lt h, ← List.getD_eq_getElem?_getD]

/-- The decoder fails exactly at the first character outside the alphabet (41_base32.md R126). -/
theorem decRun_eq_error_iff {w : Nat} {cs : List CodeUnit} {j : Nat} {c : CodeUnit} :
    decRun w cs = .error { char := c, index := j } ↔ cs[j]? = some c ∧ charToValue c = none ∧
      ∀ l, l < j → charToValue (cs.getD l 0) ≠ none := by
  refine ⟨fun h => ?_, fun ⟨hj, hc, hfirst⟩ => decRun_of_first_bad hj hc hfirst⟩
  obtain ⟨d, hd, -⟩ | ⟨e, he, hlt, hchar, hbad, hfirst⟩ := decRun_cases (w := w) cs
  · cases hd.symm.trans h
  · cases he.symm.trans h
    rw [List.getD_eq_getElem _ _ hlt] at hchar
    exact ⟨List.getElem?_eq_some_iff.2 ⟨hlt, hchar⟩, hbad, hfirst⟩

section
variable {s t : State} {r : Request} {i : Instr} {src : List CodeUnit}

/-- Item 7 is the decoder's failure. -/
theorem firstBadChar_iff {j : Nat} {c : CodeUnit} (hd : Decodes r i src) :
    firstBadChar r i j c ↔ decRun accW src = .error { char := c, index := j } := by
  rw [decRun_eq_error_iff]
  cases hd with
  | whole hp => simp [firstBadChar, hp]
  | @stripped cs m hp hm =>
    constructor
    · rintro ⟨cs', hp', hi | ⟨-, m', hm', hj⟩, hget, hbad, hfirst⟩
      · cases hi
      · cases hp.symm.trans hp'
        cases isStripped_unique hm hm'
        refine ⟨by rwa [List.getElem?_take_of_lt hj], hbad, fun l hl => ?_⟩
        rw [getD_take_of_lt cs (hl.trans hj)]
        exact hfirst l hl
    · rintro ⟨hget, hbad, hfirst⟩
      obtain ⟨hlt, -⟩ := List.getElem?_eq_some_iff.1 hget
      have hj : j < m := by
        rw [List.length_take] at hlt
        omega
      rw [List.getElem?_take_of_lt hj] at hget
      refine ⟨cs, hp, .inr ⟨rfl, m, hm, hj⟩, hget, hbad, fun l hl => ?_⟩
      rw [← getD_take_of_lt cs (hl.trans hj)]
      exact hfirst l hl

/-- Item 4 of a command that decodes src. -/
theorem capacityFails_iff (hd : Decodes r i src) :
    capacityFails r i ↔ r.a0.toInt < (decodedLength src.length : Int) := by
  cases hd with
  | whole hp => simp [capacityFails, hp, Payload.length]
  | @stripped cs m hp hm =>
    rw [List.length_take_of_le hm.1]
    constructor
    · rintro ⟨cs', m', hp', hm', hlt⟩
      cases hp.symm.trans hp'
      cases isStripped_unique hm hm'
      exact hlt
    · exact fun h => ⟨cs, m, hp, hm, h⟩

/-- The two commands that decode: the capacity check, then the decoder's run. -/
theorem eq_of_decodes (hr : s.req = some r) (hd : Decodes r i src) (hexec : exec i s = .next t) :
    t = if capTooSmall r.a0 (decodedLength src.length) then s.fail .invalidArgument
      else s.runDecoder src := by
  cases hd with
  | whole hp =>
    obtain ⟨cs, hp', hf, -⟩ := withChars_eq_next.1 (next_of_withRequest hr hexec)
    cases hp.symm.trans hp'
    rw [exec_b32Decode hr hp hf, Host.Outcome.next.injEq] at hexec
    exact hexec.symm
  | stripped hp hm =>
    obtain ⟨cs, hp', hf, -⟩ := withChars_eq_next.1 (next_of_withRequest hr hexec)
    cases hp.symm.trans hp'
    rw [exec_b32Decodep hr hp hf hm, Host.Outcome.next.injEq] at hexec
    rw [List.length_take_of_le hm.1]
    exact hexec.symm

theorem reports_runDecoder (s : State) (hd : Decodes r i src) :
    Reports (s.runDecoder src) [(∃ j c, firstBadChar r i j c, .invalidCharacter)] := by
  cases hrun : decRun accW src with
  | error e =>
    rw [State.runDecoder_of_error hrun]
    rintro _ ⟨⟩
    exact ⟨fun _ => rfl, fun hn => absurd ⟨e.index, e.char, (firstBadChar_iff hd).2 hrun⟩ hn⟩
  | ok d =>
    rw [State.runDecoder_of_ok hrun]
    refine .skip ?_ (.ok s rfl)
    rintro ⟨j, c, hbad⟩
    cases hrun.symm.trans ((firstBadChar_iff hd).1 hbad)

theorem reports_of_decodes (hr : s.req = some r) (hd : Decodes r i src)
    (hexec : exec i s = .next t) : Reports t (ownFailures s r i) := by
  have hcap : capTooSmall r.a0 (decodedLength src.length) = true ↔
      r.a0.toInt < 0 ∨ capacityFails r i := by
    rw [capTooSmall_iff, capacityFails_iff hd]
  have hrun := reports_runDecoder s hd
  rw [eq_of_decodes hr hd hexec]
  cases hd <;> exact .check_or hcap hrun

/-- A command that reports InvalidCharacter names the first offender. -/
theorem resp_of_firstBadChar {rsp : Response} {j : Nat} {c : CodeUnit} (hr : s.req = some r)
    (hexec : exec i s = .next t) (hrsp : t.resp = some rsp)
    (hst : rsp.status = .invalidCharacter) (hbad : firstBadChar r i j c) :
    rsp = badCharResponse c j := by
  have hd : ∃ src, Decodes r i src := by
    obtain ⟨cs, hp, rfl | ⟨rfl, m, hm, -⟩, -⟩ := hbad
    · exact ⟨cs, .whole hp⟩
    · exact ⟨cs.take m, .stripped hp hm⟩
  obtain ⟨src, hd⟩ := hd
  rw [eq_of_decodes hr hd hexec] at hrsp
  split at hrsp
  · cases hrsp
    cases hst
  · rw [State.runDecoder_of_error ((firstBadChar_iff hd).1 hbad)] at hrsp
    cases hrsp
    rfl

theorem reports_sizeCommand {size : Nat → Nat} (hr : s.req = some r)
    (hexec : sizeCommand s size = .next t) :
    Reports t [(r.a0.toInt < 0, .invalidArgument), (False, .invalidArgument)] := by
  rw [sizeCommand, withRequest_of_req hr, Host.Outcome.next.injEq] at hexec
  rw [← hexec]
  exact .check Iff.rfl fun _ => .skip id (.ok s rfl)

/-- The codec commands. -/
theorem reports_of_slot?_none (hi : i.slot? = none) (hr : s.req = some r)
    (hexec : exec i s = .next t) : Reports t (ownFailures s r i) := by
  cases i <;> cases hi
  case b32Enclen => exact reports_sizeCommand hr hexec
  case b32Declen => exact reports_sizeCommand hr hexec
  case b32Encode =>
    obtain ⟨bs, hp, hl, -⟩ := withBytes_eq_next.1 (next_of_withRequest hr hexec)
    rw [exec_b32Encode hr hp hl, Host.Outcome.next.injEq] at hexec
    rw [← hexec]
    refine .check_or ?_ (.ok s rfl)
    rw [capTooSmall_iff, operandFails, capacityFails, hp, Payload.length]
  case b32Decode =>
    obtain ⟨cs, hp, -⟩ := withChars_eq_next.1 (next_of_withRequest hr hexec)
    exact reports_of_decodes hr (.whole hp) hexec
  case b32Strip =>
    obtain ⟨cs, hp, hf, -⟩ := withChars_eq_next.1 (next_of_withRequest hr hexec)
    rw [exec_b32Strip hr hp hf, Host.Outcome.next.injEq] at hexec
    rw [← hexec]
    exact .ok s rfl
  case b32Decodep =>
    obtain ⟨cs, hp, -⟩ := withChars_eq_next.1 (next_of_withRequest hr hexec)
    exact reports_of_decodes hr (.stripped hp (strippedCount_isStripped cs)) hexec

end

/-! ## Every command -/

theorem openInstr_of_needOf_none {i : Instr} {k : Nat} (hk : i.slot? = some k)
    (hn : needOf i = none) : ∃ m, i = openInstr m k := by
  cases i <;> cases hk <;> cases hn
  case curOpenr => exact ⟨.reader, rfl⟩
  case curOpenw => exact ⟨.writer, rfl⟩

/-- A command has no slot and is the codec's, has one and no CheckSlot and is a construction, or
runs CheckSlot. -/
theorem exec_reports {s t : State} {r : Request} {i : Instr} (hr : s.req = some r)
    (hexec : exec i s = .next t) : Reports t (ownFailures s r i) := by
  cases hk : i.slot? with
  | none => exact reports_of_slot?_none hk hr hexec
  | some k =>
    cases hn : needOf i with
    | none =>
      obtain ⟨m, rfl⟩ := openInstr_of_needOf_none hk hn
      exact reports_openInstr hr hexec
    | some n => exact reports_of_checksSlot hr (checksSlot_of_needOf hk hn) hexec

/-- The rule itself: a completed request, legal or not, has the first status that applies. -/
theorem step_reports {s t : State} {r : Request} (hr : s.req = some r)
    (hstep : step s = .next t) : Reports t (failureOrder s r (decode r.cmd)) := by
  cases hd : decode r.cmd with
  | some i =>
    rw [step_of_decode hr hd] at hstep
    exact fun rsp hrsp => firstThatApplies_of_filter (canRaise i)
      (fun e => canRaise_of_mem_failureOrder) (exec_reports hr hstep rsp hrsp)
  | none =>
    rw [step_of_illegal hr hd] at hstep
    cases hstep
    exact .fail s trivial

/-! ## Conflicts -/

/-- A negative count fails before the bounds do (43_cursor_read.md R195). -/
theorem fails_negativeCount {s : State} {r : Request} {k : Nat} {c : Cursor} {i : Instr}
    (hr : s.req = some r) (hgood : GoodSlot s k .reader c) (hin : InMem s c)
    (hneg : r.a0.toInt < 0) (hi : i ∈ [.rdBytes k, .rdSlice k, .rdStr k .utf8]) :
    Fails s i .invalidArgument := by
  simp only [List.mem_cons, List.not_mem_nil, or_false] at hi
  refine fails_of_exec_fail ?_
  obtain rfl | rfl | rfl := hi
  · rw [exec_rdBytes hr hgood hin, withCount_of_neg _ hneg]
  · rw [exec_rdSlice hr hgood, withCount_of_neg _ hneg]
  · rw [exec_rdStr hr hgood hin, withCount_of_neg _ hneg]

/-- Settles O57: each command's chain of checks, then the conflicts, each decided by the first check
that fails. -/
theorem theFirstFailureInOrderIsReported : Obligations.TheFirstFailureInOrderIsReported := by
  refine ⟨fun s t r rsp hr hstep hrsp => ⟨step_reports hr hstep rsp hrsp, ?_⟩, ?_, ?_, ?_, ?_, ?_⟩
  · intro i j c hd hst hbad
    rw [step_of_decode hr hd] at hstep
    rw [resp_of_firstBadChar hr hstep hrsp hst hbad]
    exact ⟨rfl, rfl⟩
  · intro s r k n i hi hn hr hbad _
    simp only [List.mem_cons, List.not_mem_nil, or_false] at hi
    obtain rfl | rfl | rfl | rfl := hi <;>
      exact fails_of_badSlot (checksSlot_of_needOf rfl hn) hr rfl hbad
  · intro s r m k hr hk _
    exact fails_of_exec_fail (by rw [exec_openInstr_of_req hr, if_pos hk])
  · intro s r k c i hi hr hgood hin _ hneg
    exact fails_negativeCount hr hgood hin hneg hi
  · intro s r cs e hr hp hf
    refine ⟨fun _ hcap => fails_of_exec_fail ?_, fun m hm _ hcap => fails_of_exec_fail ?_⟩
    · rw [exec_b32Decode hr hp hf, if_pos (capTooSmall_iff.2 (.inr hcap))]
    · rw [exec_b32Decodep hr hp hf hm, if_pos (capTooSmall_iff.2 (.inr hcap))]
  · intro s r k c hr hgood hin _ hshort
    exact fails_countedRead hr hgood hin hshort (by simp)

end Sys2Proof.Machine
end

section
/-! Reset, and who takes the host's actions (70_reset_and_hazards.md R280, R282; 20_memory.md R64): a
step that runs a command takes none, so a reset the host asserts falls between commands. -/

namespace Sys2Proof.Machine

/-- What a command does to the slots and to MEM is no action of the host. -/
theorem Effect.host_eq {i : Instr} {s u : State} {r : Request} (he : Effect i s r u) :
    u.host = s.host := by
  cases he <;> rfl

/-- A step with a request pending takes no action of the host (20_memory.md R64). -/
theorem step_host_of_req {s t : State} {r : Request} (hr : s.req = some r)
    (hstep : step s = .next t) : t.host = s.host := by
  cases hd : decode r.cmd with
  | some i =>
    rw [step_of_decode hr hd] at hstep
    obtain ⟨r', -, rsp, u, rfl, -, heff, -⟩ := exec_next hstep
    rw [State.complete_host, heff.host_eq]
  | none =>
    rw [step_of_illegal hr hd] at hstep
    cases hstep
    rfl

/-- With no request pending, the host's reset is the next step (70_reset_and_hazards.md R280). -/
theorem step_of_host_reset {s : State} {rest : List HostAction} (hr : s.req = none)
    (hh : s.host = .reset :: rest) :
    step s = .next ({ s with host := rest } : State).resetBlock :=
  step_of_host hr hh

/-- Settles O1: the state after reset, what `State.resetBlock` leaves of the state the host resets,
and the host's actions under a command. -/
theorem resetUnbindsEverySlotAndKeepsMem : Obligations.ResetUnbindsEverySlotAndKeepsMem := by
  refine ⟨fun _ => rfl, rfl, rfl, rfl, fun s rest hr hh => ?_, fun s t r => step_host_of_req⟩
  exact ⟨_, step_of_host_reset hr hh, State.resetBlock_slot _, rfl, rfl, rfl, fun _ => rfl, rfl,
    rfl, rfl⟩

end Sys2Proof.Machine
end

section
/-! The invariant (10_state.md R30 to R32, R40; 20_memory.md R50; 00_scope.md R7). Each update of
the state keeps it under its own bound, and everything a command can do (`Effect`) or the host does
is such an update. -/

namespace Sys2Proof.Machine

open Sys2Proof.Safety

/-! ## The updates -/

section
variable {s : State}

theorem inv_setSlot {k : Nat} {c : Cursor} (h : Inv s) (hk : k < s.cfg.nslot)
    (hc : cursorOk s.cfg c = true) : Inv (s.setSlot k c) := by
  obtain ⟨hparams, hslots, hmem, hinside, hcodec⟩ := h
  obtain ⟨hrising, hall⟩ := slotsOk_iff.1 hslots
  refine ⟨hparams, slotsOk_iff.2 ⟨assocRising_put k c hrising, fun e he => ?_⟩, hmem, hinside,
    hcodec⟩
  obtain rfl | he := mem_assocPut he
  · exact ⟨hk, hc⟩
  · exact hall e he

theorem inv_clearSlot (h : Inv s) (k : Nat) : Inv (s.clearSlot k) := by
  obtain ⟨hparams, hslots, hmem, hinside, hcodec⟩ := h
  obtain ⟨hrising, hall⟩ := slotsOk_iff.1 hslots
  exact ⟨hparams, slotsOk_iff.2 ⟨assocRising_del k hrising, fun e he => hall e (mem_assocDel he)⟩,
    hmem, hinside, hcodec⟩

theorem inv_writeBytes {a : Nat} {bs : List Byte} (h : Inv s)
    (hin : a + bs.length ≤ 2 ^ s.cfg.addrW) : Inv (s.writeBytes a bs) := by
  obtain ⟨hparams, hslots, hmem, hinside, hcodec⟩ := h
  refine ⟨hparams, hslots, memWrite_wf a bs hmem, memInside_iff.2 fun e he => ?_, hcodec⟩
  obtain he | ⟨-, hlt⟩ := mem_memWrite he
  · exact memInside_iff.1 hinside e he
  · exact hlt.trans_le hin

theorem inv_complete (h : Inv s) (rsp : Response) : Inv (s.complete rsp) :=
  ⟨h.params, h.slots, h.mem, h.inside, rfl⟩

theorem inv_resetBlock (h : Inv s) : Inv s.resetBlock :=
  ⟨h.params, rfl, h.mem, h.inside, rfl⟩

end

/-! ## Cursors -/

/-- A cursor that advances over bytes that remain stays in its region (10_state.md R31). -/
theorem cursorOk_advance {cfg : Config} {c : Cursor} {n : Nat} (h : cursorOk cfg c = true)
    (hn : n ≤ c.remaining) : cursorOk cfg (c.advance n) = true := by
  obtain ⟨hpos, hlen, horg, hin⟩ := cursorOk_iff.1 h
  have hle : c.pos + n ≤ c.length := by
    unfold Cursor.remaining at hn
    omega
  exact cursorOk_iff.2 ⟨hle, hlen, horg, hin⟩

/-- What a command does to the slots and to MEM keeps the invariant. -/
theorem Effect.inv {i : Instr} {s u : State} {r : Request} (he : Effect i s r u) (h : Inv s) :
    Inv u := by
  cases he with
  | keep => exact h
  | openSlot m k len _ hk hlen horg hin =>
    exact inv_setSlot h hk (cursorOk_iff.2 ⟨Nat.zero_le _, hlen, horg, hin⟩)
  | setPos k p c _ hs hp =>
    obtain ⟨hk, hc⟩ := cursorOk_of_checkSlot h.slots hs
    obtain ⟨-, hbounds⟩ := cursorOk_iff.1 hc
    exact inv_setSlot h hk (cursorOk_iff.2 ⟨hp, hbounds⟩)
  | close k => exact inv_clearSlot h k
  | read k n c _ _ hs hn =>
    obtain ⟨hk, hc⟩ := cursorOk_of_checkSlot h.slots hs
    exact inv_setSlot h hk (cursorOk_advance hc hn)
  | write k c bs _ _ hs _ _ hn =>
    obtain ⟨hk, hc⟩ := cursorOk_of_checkSlot h.slots hs
    obtain ⟨hpos, -, -, hin⟩ := cursorOk_iff.1 hc
    have hstore : c.address + bs.length ≤ 2 ^ s.cfg.addrW := by
      unfold Cursor.remaining at hn
      unfold Cursor.address
      omega
    exact inv_setSlot (inv_writeBytes h hstore) hk (cursorOk_advance hc hn)

/-! ## Every step -/

theorem exec_inv {i : Instr} {s t : State} (h : Inv s) (hexec : exec i s = .next t) : Inv t := by
  obtain ⟨r, -, rsp, u, rfl, -, heff, -⟩ := exec_next hexec
  exact inv_complete (heff.inv h) rsp

theorem hostStep_inv {s t : State} {a : HostAction} (h : Inv s) (hstep : hostStep s a = .next t) :
    Inv t := by
  obtain ⟨r, -, rfl⟩ | ⟨x, bs, -, hin, rfl⟩ | ⟨f, -, rfl⟩ | ⟨-, rfl⟩ := hostStep_cases hstep
  · exact ⟨h.params, h.slots, h.mem, h.inside, h.codec⟩
  · exact inv_writeBytes h (Config.inMem_iff.1 hin)
  · exact h
  · exact inv_resetBlock h

/-- Settles O3: a command is one of the effects and a completion, and the host's actions are updates
within their bounds. -/
theorem everyStepKeepsInvariant : Obligations.EveryStepKeepsInvariant := by
  intro s t h hstep
  obtain ⟨r, i, -, -, heq⟩ | ⟨r, -, -, heq⟩ | ⟨-, -, heq⟩ | ⟨a, rest, -, -, heq⟩ := step_cases s
  all_goals rw [heq] at hstep
  · exact exec_inv h hstep
  · cases hstep
    exact inv_complete h _
  · cases hstep
    exact h
  · exact hostStep_inv (s := { s with host := rest })
      ⟨h.params, h.slots, h.mem, h.inside, h.codec⟩ hstep

/-- The parameters at launch are within their bounds (00_scope.md R7). -/
theorem launch_wf : Config.launch.wf = true := by
  have hslots : Config.launchNslotExtra.val < 16 := Config.launchNslotExtra.isLt
  rw [Config.wf, Bool.and_eq_true, Bool.and_eq_true]
  exact ⟨⟨decide_eq_true (Nat.le_add_right 8 _), decide_eq_true (Nat.le_add_left 1 _)⟩,
    decide_eq_true hslots⟩

/-- Settles O2: no slot is bound and no byte is listed. -/
theorem resetMeetsInvariant : Obligations.ResetMeetsInvariant :=
  ⟨launch_wf, rfl, rfl, rfl, rfl⟩

end Sys2Proof.Machine
end

section
/-! Decoding and encoding (30_encoding.md sections 1 and 2). A word is its fields, and a row of the
opcode map together with SLOT and ORD is one word: decoding that word finds the row, and the word of
what a row builds is the word it was built from. -/

namespace Sys2Proof.Machine

open Sys2Proof.Safety

/-! ## The rows decide (R78) -/

theorem decode_eq_some_iff {w : CmdWord} {i : Instr} :
    decode w = some i ↔ ∃ row ∈ opcodeRows, ∃ o, row.matches w = true ∧
      orderOfField (ordField w) = some o ∧ i = row.build (slotField w) o := by
  constructor
  · intro h
    obtain ⟨row, hrow, hm, -⟩ := decode_eq_some h
    have hord : orderOfField (ordField w) ≠ none := fun hnone => by
      rw [decode_eq_none_iff.2 (.inr ((orderOfField_eq_none_iff _).1 hnone))] at h
      cases h
    obtain ⟨o, ho⟩ := Option.ne_none_iff_exists'.1 hord
    rw [decode_of_matches hrow hm ho, Option.some.injEq] at h
    exact ⟨row, hrow, o, hm, ho, h.symm⟩
  · rintro ⟨row, hrow, o, hm, ho, rfl⟩
    exact decode_of_matches hrow hm ho

/-- Settles O10: the decoder's own search, and no two rows share an OPC. -/
theorem oneRowDecidesEachWord : Obligations.OneRowDecidesEachWord := by
  refine ⟨fun w i => ?_, fun w row hrow row' hrow' hm hm' => ?_, by decide⟩
  · simp only [decode_eq_some_iff, Row.matches, beq_iff_eq]
  · rw [row_eq_of_matches hrow hrow' (beq_iff_eq.2 hm) (beq_iff_eq.2 hm')]

/-! ## The fields of a word that a row builds (R70) -/

/-- The fields of a command word stand beside each other. -/
theorem cmdWord_toNat {opc ord : BitVec 32} {k : Nat} (hopc : opc.toNat < 2 ^ 8) (hk : k < 2 ^ 4)
    (hord : ord.toNat < 2 ^ 2) :
    (cmdWord opc k ord 0#32).toNat = 2 ^ 12 * ord.toNat + (2 ^ 8 * k + opc.toNat) := by
  have hk32 : k % 2 ^ 32 = k := Nat.mod_eq_of_lt (by omega)
  have hslot : 2 ^ 8 * k % 2 ^ 32 = 2 ^ 8 * k := Nat.mod_eq_of_lt (by omega)
  have hfield : 2 ^ 12 * ord.toNat % 2 ^ 32 = 2 ^ 12 * ord.toNat := Nat.mod_eq_of_lt (by omega)
  have hlow : 2 ^ 8 * k + opc.toNat < 2 ^ 12 := by omega
  rw [Nat.two_pow_add_eq_or_of_lt hlow, Nat.two_pow_add_eq_or_of_lt hopc, Nat.or_comm,
    Nat.or_comm (2 ^ 8 * k)]
  simp only [cmdWord, BitVec.toNat_or, BitVec.toNat_shiftLeft, BitVec.toNat_ofNat,
    Nat.shiftLeft_eq, Nat.mul_comm _ (2 ^ 8), Nat.mul_comm _ (2 ^ 12), hk32, hslot, hfield,
    Nat.zero_mod, Nat.zero_mul, Nat.or_zero]

/-- The fields of a command word are what it was made from (R70), and RSV and ENC are zero. -/
theorem cmdWord_fields {opc ord : BitVec 32} {k : Nat} (hopc : opc.toNat < 2 ^ 8) (hk : k < 2 ^ 4)
    (hord : ord.toNat < 2 ^ 2) :
    slotField (cmdWord opc k ord 0#32) = k ∧
      ordField (cmdWord opc k ord 0#32) = ord.setWidth 2 ∧
      encField (cmdWord opc k ord 0#32) = 0#2 ∧ rsvField (cmdWord opc k ord 0#32) = 0#16 := by
  have hword := cmdWord_toNat hopc hk hord
  simp only [slotField, ordField, encField, rsvField, ← BitVec.toNat_inj, BitVec.extractLsb'_toNat,
    BitVec.toNat_setWidth, BitVec.toNat_ofNat, Nat.shiftRight_eq_div_pow, hword]
  omega

theorem opcodeRows_pattern_lt : ∀ row ∈ opcodeRows, row.pattern.toNat < 2 ^ 8 := by decide

/-- The SLOT that the words of a group carry (R72). -/
def slotUsed (g : Group) (k : Nat) : Nat := if g = .codec then 0 else k

/-- The ORD that the words of a group carry (R73). -/
def ordUsed (g : Group) (o : Order) : BitVec 32 := if g = .numeric then o.field else 0#32

theorem slotUsed_lt {k : Nat} (g : Group) (hk : k < 2 ^ 4) : slotUsed g k < 2 ^ 4 := by
  unfold slotUsed
  split
  · decide
  · exact hk

theorem ordUsed_lt (g : Group) (o : Order) : (ordUsed g o).toNat < 2 ^ 2 := by
  cases g <;> cases o <;> decide

/-- The word of what a row builds: the row's match value, with the SLOT and the ORD that its group
uses. -/
theorem encode_build : ∀ row ∈ opcodeRows, ∀ k o, encode (row.build k o) =
    cmdWord row.pattern (slotUsed row.group k) (ordUsed row.group o) 0#32 := by
  simp [opcodeRows, codecRows, controlRows, numericReadRows, rangeReadRows, numericWriteRows,
    rangeWriteRows, encode, bareWord, slotWord, numWord, slotUsed, ordUsed, TextEncoding.field]

/-- What a row builds depends on SLOT and ORD as far as its group uses them. -/
theorem build_used : ∀ row ∈ opcodeRows, ∀ k o o',
    (row.group = .numeric → o = o') → row.build (slotUsed row.group k) o' = row.build k o := by
  simp [opcodeRows, codecRows, controlRows, numericReadRows, rangeReadRows, numericWriteRows,
    rangeWriteRows, slotUsed, eq_comm]

section
variable {row : Row} (hrow : row ∈ opcodeRows) {k : Nat} (hk : k < 2 ^ 4) (o : Order)
include hrow hk

/-- The fields of the word of what a row builds. -/
theorem encode_build_fields :
    slotField (encode (row.build k o)) = slotUsed row.group k ∧
      ordField (encode (row.build k o)) = (ordUsed row.group o).setWidth 2 ∧
      encField (encode (row.build k o)) = 0#2 ∧ rsvField (encode (row.build k o)) = 0#16 := by
  rw [encode_build row hrow]
  exact cmdWord_fields (opcodeRows_pattern_lt row hrow) (slotUsed_lt _ hk) (ordUsed_lt _ o)

theorem matches_encode_build : row.matches (encode (row.build k o)) = true := by
  obtain ⟨hslot, hord, henc, hrsv⟩ := encode_build_fields hrow hk o
  refine (matches_iff_fields hrow).2 ⟨opcField_encode_build row hrow k o, fun hg => ?_,
    fun hg => ?_, henc, hrsv⟩
  · rw [hslot, slotUsed, if_pos hg]
  · rw [hord, ordUsed, if_neg hg]
    rfl

/-- Decoding the word of what a row builds finds the row, the slot and the order. -/
theorem decode_encode_build : decode (encode (row.build k o)) = some (row.build k o) := by
  obtain ⟨hslot, hord, -, -⟩ := encode_build_fields hrow hk o
  have hm := matches_encode_build hrow hk o
  by_cases hg : row.group = .numeric
  · rw [ordUsed, if_pos hg] at hord
    rw [decode_of_matches hrow hm ((orderOfField_eq_some_iff o _).2 hord), hslot,
      build_used row hrow k o o fun _ => rfl]
  · rw [ordUsed, if_neg hg] at hord
    rw [decode_of_matches hrow hm ((orderOfField_eq_some_iff .native _).2 hord), hslot,
      build_used row hrow k o .native fun h => absurd h hg]

end

/-! ## Decoding undoes encoding -/

/-- The codec's rows build its commands (R76). -/
theorem exists_codec_row {i : Instr} (hi : i.slot? = none) :
    ∃ row ∈ opcodeRows, ∀ k o, i = row.build k o := by
  cases i <;> cases hi
  case b32Enclen => exact ⟨⟨0x01#32, .codec, _⟩, by simp [opcodeRows, codecRows], fun _ _ => rfl⟩
  case b32Declen => exact ⟨⟨0x02#32, .codec, _⟩, by simp [opcodeRows, codecRows], fun _ _ => rfl⟩
  case b32Encode => exact ⟨⟨0x03#32, .codec, _⟩, by simp [opcodeRows, codecRows], fun _ _ => rfl⟩
  case b32Decode => exact ⟨⟨0x04#32, .codec, _⟩, by simp [opcodeRows, codecRows], fun _ _ => rfl⟩
  case b32Strip => exact ⟨⟨0x05#32, .codec, _⟩, by simp [opcodeRows, codecRows], fun _ _ => rfl⟩
  case b32Decodep => exact ⟨⟨0x06#32, .codec, _⟩, by simp [opcodeRows, codecRows], fun _ _ => rfl⟩

/-- The rows of construction (R76). -/
theorem exists_open_row (m : Mode) (k : Nat) :
    ∃ row ∈ opcodeRows, ∃ o, openInstr m k = row.build k o := by
  cases m
  · exact ⟨⟨0x10#32, .control, fun k _ => .curOpenr k⟩, by simp [opcodeRows, controlRows],
      .native, rfl⟩
  · exact ⟨⟨0x11#32, .control, fun k _ => .curOpenw k⟩, by simp [opcodeRows, controlRows],
      .native, rfl⟩

theorem readRow_mem (ty : NumType) :
    ⟨BitVec.ofNat 32 (0x20 + numIndex ty), .numeric, readInstr ty⟩ ∈ opcodeRows := by
  cases ty <;> simp [opcodeRows, numericReadRows, readInstr, numIndex]

theorem writeRow_mem (ty : NumType) :
    ⟨BitVec.ofNat 32 (0x40 + numIndex ty), .numeric, writeInstr ty⟩ ∈ opcodeRows := by
  cases ty <;> simp [opcodeRows, numericWriteRows, writeInstr, numIndex]

/-- The rows of the commands that run CheckSlot (R76). -/
theorem exists_checksSlot_row {i : Instr} {k : Nat} {n : Need} (hi : ChecksSlot k n i) :
    ∃ row ∈ opcodeRows, ∃ o, i = row.build k o := by
  cases hi with
  | getpos =>
    exact ⟨⟨0x12#32, .control, fun k _ => .curGetpos k⟩, by simp [opcodeRows, controlRows],
      .native, rfl⟩
  | setpos =>
    exact ⟨⟨0x13#32, .control, fun k _ => .curSetpos k⟩, by simp [opcodeRows, controlRows],
      .native, rfl⟩
  | rem =>
    exact ⟨⟨0x14#32, .control, fun k _ => .curRem k⟩, by simp [opcodeRows, controlRows],
      .native, rfl⟩
  | close =>
    exact ⟨⟨0x15#32, .control, fun k _ => .curClose k⟩, by simp [opcodeRows, controlRows],
      .native, rfl⟩
  | readNum ty o => exact ⟨_, readRow_mem ty, o, rfl⟩
  | rdBytes =>
    exact ⟨⟨0x30#32, .byteRange, fun k _ => .rdBytes k⟩, by simp [opcodeRows, rangeReadRows],
      .native, rfl⟩
  | rdSlice =>
    exact ⟨⟨0x31#32, .byteRange, fun k _ => .rdSlice k⟩, by simp [opcodeRows, rangeReadRows],
      .native, rfl⟩
  | rdCstr =>
    exact ⟨⟨0x32#32, .byteRange, fun k _ => .rdCstr k⟩, by simp [opcodeRows, rangeReadRows],
      .native, rfl⟩
  | rdStr e =>
    cases e
    exact ⟨⟨0x33#32, .string, fun k _ => .rdStr k .utf8⟩, by simp [opcodeRows, rangeReadRows],
      .native, rfl⟩
  | writeNum ty o => exact ⟨_, writeRow_mem ty, o, rfl⟩
  | wrBytes =>
    exact ⟨⟨0x50#32, .byteRange, fun k _ => .wrBytes k⟩, by simp [opcodeRows, rangeWriteRows],
      .native, rfl⟩

/-- A well-formed command is what a row builds from a SLOT field. -/
theorem exists_row_of_wf {i : Instr} (h : i.wf = true) :
    ∃ row ∈ opcodeRows, ∃ k o, k < 2 ^ 4 ∧ i = row.build k o := by
  cases hk : i.slot? with
  | none =>
    obtain ⟨row, hrow, hbuild⟩ := exists_codec_row hk
    exact ⟨row, hrow, 0, .native, by decide, hbuild 0 .native⟩
  | some k =>
    have hlt : k < 2 ^ 4 := by simpa [Instr.wf, hk] using h
    have hcursor : ∃ row ∈ opcodeRows, ∃ o, i = row.build k o := by
      cases hn : needOf i with
      | none =>
        obtain ⟨m, rfl⟩ := openInstr_of_needOf_none hk hn
        exact exists_open_row m k
      | some n => exact exists_checksSlot_row (checksSlot_of_needOf hk hn)
    obtain ⟨row, hrow, o, hbuild⟩ := hcursor
    exact ⟨row, hrow, k, o, hlt, hbuild⟩

/-- Settles O8: a well-formed command is what a row builds. -/
theorem decodeUndoesEncode : Obligations.DecodeUndoesEncode := by
  intro i hi
  obtain ⟨row, hrow, k, o, hk, rfl⟩ := exists_row_of_wf hi
  exact decode_encode_build hrow hk o

/-! ## Encoding undoes decoding -/

theorem slotField_lt (w : CmdWord) : slotField w < 2 ^ 4 := BitVec.isLt _

/-- A row of the codec builds a command that has no slot. -/
theorem slot?_build_of_codec : ∀ row ∈ opcodeRows, row.group = .codec → ∀ k o,
    (row.build k o).slot? = none := by
  simp [opcodeRows, codecRows, controlRows, numericReadRows, rangeReadRows, numericWriteRows,
    rangeWriteRows, Instr.slot?]

/-- A row builds a command of the slot it is given, or of none. -/
theorem wf_build {row : Row} (hrow : row ∈ opcodeRows) {k : Nat} (hk : k < 2 ^ 4) (o : Order) :
    (row.build k o).wf = true := by
  have hslot : (row.build k o).slot? = none ∨ (row.build k o).slot? = some k := by
    by_cases hg : row.group = .codec
    · exact .inl (slot?_build_of_codec row hrow hg k o)
    · exact .inr (slot?_build row hrow hg k o)
  obtain h | h := hslot
  · rw [Instr.wf, h]
  · rw [Instr.wf, h]
    exact decide_eq_true hk

/-- Settles O9: the word and the encoding of what it decodes to match one row, and agree on the
fields the row leaves free. -/
theorem encodeUndoesDecode : Obligations.EncodeUndoesDecode := by
  intro w i h
  obtain ⟨row, hrow, o, hm, ho, rfl⟩ := decode_eq_some_iff.1 h
  have hk := slotField_lt w
  obtain ⟨hopc, hslot, hord, henc, hrsv⟩ := (matches_iff_fields hrow).1 hm
  obtain ⟨hslot', hord', henc', hrsv'⟩ := encode_build_fields hrow hk o
  refine ⟨wf_build hrow hk o, cmdWord_eq_iff_fields.2 ⟨?_, BitVec.eq_of_toNat_eq ?_, ?_,
    henc'.trans henc.symm, hrsv'.trans hrsv.symm⟩⟩
  · exact (opcField_encode_build row hrow _ o).trans hopc.symm
  · refine hslot'.trans ?_
    unfold slotUsed
    split
    · next hg => exact (hslot hg).symm
    · rfl
  · rw [hord']
    unfold ordUsed
    split
    · exact ((orderOfField_eq_some_iff o _).1 ho).symm
    · next hg => exact (hord hg).symm

end Sys2Proof.Machine
end

section
/-! What commands and steps leave unchanged: the parameters and the host's actions always, every
slot but a command's own, and MEM but for the bytes a write stores (00_scope.md R7; 20_memory.md R51,
R56, R64, R68; 42_cursor_control.md R166; 43_cursor_read.md R200; 44_cursor_write.md R236). -/

namespace Sys2Proof.Machine

open Sys2Proof.Safety

/-! ## A slot that is set -/

/-- A bound slot stays bound when a slot is set. -/
theorem State.setSlot_bound (s : State) {j : Nat} {c : Cursor} (k : Nat) (d : Cursor)
    (hc : s.slot j = some c) : ∃ d', (s.setSlot k d).slot j = some d' := by
  rw [State.setSlot_slot]
  split
  · exact ⟨d, rfl⟩
  · exact ⟨c, hc⟩

/-- A slot whose cursor is advanced was bound, and keeps all of its cursor but the position. -/
theorem State.setSlot_advance_moves (s : State) {k : Nat} {d : Cursor} (n : Nat)
    (hd : s.slot k = some d) :
    (s.slot k = none → (s.setSlot k (d.advance n)).slot k = none) ∧
      ∀ c, s.slot k = some c →
        ∃ p, c.pos ≤ p ∧ (s.setSlot k (d.advance n)).slot k = some { c with pos := p } := by
  rw [State.setSlot_slot, if_pos rfl, hd]
  refine ⟨fun h => (Option.some_ne_none d h).elim, ?_⟩
  rintro _ ⟨⟩
  exact ⟨d.pos + n, Nat.le_add_right _ _, rfl⟩

/-! ## The effect of a command, field by field -/

section
variable {i : Instr} {s u : State} {r : Request}

theorem Effect.cfg_eq (he : Effect i s r u) : u.cfg = s.cfg := by
  cases he <;> rfl

/-- A slot that a command does not name is as before (20_memory.md R68). -/
theorem Effect.slot_eq_of_ne (he : Effect i s r u) {j : Nat} (hj : i.slot? ≠ some j) :
    u.slot j = s.slot j := by
  have hne {k : Nat} (hk : i.slot? = some k) : j ≠ k := by
    rintro rfl
    exact hj hk
  cases he with
  | keep => rfl
  | openSlot m k len hi =>
    rw [State.setSlot_slot, if_neg (hne (by rw [hi]; cases m <;> rfl))]
  | setPos k p c hi => rw [State.setSlot_slot, if_neg (hne (by rw [hi]; rfl))]
  | close k c hi => rw [State.clearSlot_slot, if_neg (hne (by rw [hi]; rfl))]
  | read k n c _ hk => rw [State.setSlot_slot, if_neg (hne hk)]
  | write k c bs _ hk => exact (State.setSlot_slot _ k j _).trans (if_neg (hne hk))

/-- Only a release unbinds a slot (42_cursor_control.md R166). -/
theorem Effect.slot_bound (he : Effect i s r u) {j : Nat} {c : Cursor} (hc : s.slot j = some c)
    (hi : i ≠ .curClose j) : ∃ d, u.slot j = some d := by
  cases he with
  | keep => exact ⟨c, hc⟩
  | openSlot | setPos | read => exact s.setSlot_bound _ _ hc
  | close k =>
    have hjk : j ≠ k := by
      rintro rfl
      exact hi ‹_›
    exact ⟨c, by rw [State.clearSlot_slot, if_neg hjk, hc]⟩
  | write k d bs => exact (s.writeBytes d.address bs).setSlot_bound _ _ hc

/-- A read or a write moves the cursor of its slot forward and binds no other (43_cursor_read.md
R200, 44_cursor_write.md R236). -/
theorem Effect.slot_of_access (he : Effect i s r u) {k : Nat}
    (hi : isRead i = true ∨ isWrite i = true) (hk : i.slot? = some k) :
    (s.slot k = none → u.slot k = none) ∧
      ∀ c, s.slot k = some c → ∃ p, c.pos ≤ p ∧ u.slot k = some { c with pos := p } := by
  cases he with
  | keep => exact ⟨id, fun c hc => ⟨c.pos, Nat.le_refl _, hc⟩⟩
  | openSlot m k' len hi' => cases m <;> simp [hi', openInstr, isRead, isWrite] at hi
  | setPos k' p c hi' => simp [hi', isRead, isWrite] at hi
  | close k' c hi' => simp [hi', isRead, isWrite] at hi
  | read k' n d _ hk' hs =>
    cases hk.symm.trans hk'
    exact s.setSlot_advance_moves n (checkSlot_good.1 hs).2.1
  | write k' d bs _ hk' hs =>
    cases hk.symm.trans hk'
    exact (s.writeBytes d.address bs).setSlot_advance_moves _ (checkSlot_good.1 hs).2.1

/-- A command changes no byte of MEM, but for a write the bytes of its width from the address that
it stores to (20_memory.md R51, 44_cursor_write.md R236). -/
theorem Effect.readByte_cases (he : Effect i s r u) :
    (∀ x, u.readByte x = s.readByte x) ∨
      ∃ k a, isWrite i = true ∧ i.slot? = some k ∧ s.storeAddress k = some a ∧
        ∀ x, x < a ∨ a + storeWidth r i ≤ x → u.readByte x = s.readByte x := by
  cases he with
  | keep | openSlot | setPos | close | read => exact .inl fun _ => rfl
  | write k c bs hi hk hs _ hb =>
    refine .inr ⟨k, c.address, hi, hk, by rw [State.storeAddress, hs]; rfl, fun x hx => ?_⟩
    refine (s.writeBytes_readByte c.address x bs).trans (if_neg ?_)
    omega

end

/-! ## Commands -/

section
variable {i : Instr} {s t : State}

/-- The fields that no command changes, and the completion. -/
theorem exec_frame (h : exec i s = .next t) :
    t.cfg = s.cfg ∧ t.host = s.host ∧ t.req = none ∧
      ∃ rsp, t.resp = some rsp ∧ (rsp.status ≠ .ok → t.slots = s.slots) ∧
        t.history = (if rsp.status = .ok then s.history else s.history ++ [rsp]) := by
  obtain ⟨r, -, rsp, u, rfl, -, heff, hfail⟩ := exec_next h
  refine ⟨heff.cfg_eq, heff.host_eq, rfl, rsp, rfl, fun hst => ?_, ?_⟩
  · rw [hfail hst, State.complete_slots]
  · rw [State.complete_history, heff.history_eq]

theorem exec_slot_eq_of_ne (h : exec i s = .next t) {j : Nat} (hj : i.slot? ≠ some j) :
    t.slot j = s.slot j := by
  obtain ⟨r, -, rsp, u, rfl, -, heff, -⟩ := exec_next h
  exact heff.slot_eq_of_ne hj

theorem exec_slot_of_access (h : exec i s = .next t) {k : Nat}
    (hi : isRead i = true ∨ isWrite i = true) (hk : i.slot? = some k) :
    (s.slot k = none → t.slot k = none) ∧
      ∀ c, s.slot k = some c → ∃ p, c.pos ≤ p ∧ t.slot k = some { c with pos := p } := by
  obtain ⟨r, -, rsp, u, rfl, -, heff, -⟩ := exec_next h
  exact heff.slot_of_access hi hk

theorem exec_readByte_eq (hi : isWrite i = false) (h : exec i s = .next t) (a : Nat) :
    t.readByte a = s.readByte a := by
  obtain ⟨r, -, rsp, u, rfl, -, heff, -⟩ := exec_next h
  obtain hsame | ⟨k, x, hwrite, -⟩ := heff.readByte_cases
  · exact hsame a
  · rw [hi] at hwrite
    cases hwrite

theorem isWrite_eq_false_of_isRead (hi : isRead i = true) : isWrite i = false := by
  by_contra hw
  rw [Bool.not_eq_false] at hw
  cases i <;> cases hi <;> cases hw

end

/-- Settles O48: what a command does to the slots, it does to its own. -/
theorem otherSlotsAreUntouched : Obligations.OtherSlotsAreUntouched :=
  fun _ _ _ _ h hj => exec_slot_eq_of_ne h hj

/-- Settles O51: the effects other than a write's store are effects on the slots. -/
theorem onlyWritesChangeMem : Obligations.OnlyWritesChangeMem :=
  fun _ _ _ hi h => exec_readByte_eq hi h

/-- Settles O29: a codec command names no slot and is no write. -/
theorem codecTouchesNoSlotAndNoMem : Obligations.CodecTouchesNoSlotAndNoMem := by
  intro i s t hi h
  obtain ⟨hcfg, hhost, hreq, rsp, hrsp, -, hhist⟩ := exec_frame h
  have hslot : i.slot? = none ∧ isWrite i = false := by
    cases i
    case b32Enclen | b32Declen | b32Encode | b32Decode | b32Strip | b32Decodep => exact ⟨rfl, rfl⟩
    all_goals cases hi
  exact ⟨fun k => exec_slot_eq_of_ne h (by simp [hslot.1]), exec_readByte_eq hslot.2 h, hcfg, hhost,
    hreq, rsp, hrsp, hhist⟩

/-- Settles O41: the frame of every command, and the one effect of a read. -/
theorem readsChangeOnlyTheirPosition : Obligations.ReadsChangeOnlyTheirPosition := by
  intro i s t k hi hk h
  obtain ⟨hunbound, hbound⟩ := exec_slot_of_access h (.inl hi) hk
  refine ⟨exec_readByte_eq (isWrite_eq_false_of_isRead hi) h,
    fun j hj => exec_slot_eq_of_ne h ?_, hunbound, hbound, exec_frame h⟩
  rw [hk, ne_eq, Option.some.injEq]
  exact hj.symm

/-- Settles O56: the codes by the table, and the statuses of each command's responses. -/
theorem statusesComeFromTheCommandsThatRaiseThem :
    Obligations.StatusesComeFromTheCommandsThatRaiseThem := by
  refine ⟨rfl, fun i s t rsp h hrsp => ?_⟩
  obtain ⟨r, -, rsp', u, rfl, hans, -⟩ := exec_next h
  cases hrsp
  exact hans.status

/-! ## Steps -/

/-- Settles O5: the decoded command, at the state the step is taken in. -/
theorem stepRunsTheDecodedCommand : Obligations.StepRunsTheDecodedCommand :=
  fun _ _ _ => step_of_decode

theorem hostStep_cfg {s t : State} {a : HostAction} (h : hostStep s a = .next t) :
    t.cfg = s.cfg := by
  obtain ⟨r, -, rfl⟩ | ⟨x, bs, -, -, rfl⟩ | ⟨f, -, rfl⟩ | ⟨-, rfl⟩ := hostStep_cases h
  all_goals rfl

/-- Settles O52: no effect, no completion and no action of the host writes the parameters. -/
theorem parametersNeverChange : Obligations.ParametersNeverChange := by
  intro s t hstep
  obtain ⟨r, i, -, -, heq⟩ | ⟨r, -, -, heq⟩ | ⟨-, -, heq⟩ | ⟨a, rest, -, -, heq⟩ := step_cases s
  all_goals rw [heq] at hstep
  · exact (exec_frame hstep).1
  · cases hstep
    rfl
  · cases hstep
    rfl
  · exact hostStep_cfg (s := { s with host := rest }) hstep

/-- No action of the host but reset unbinds a slot (42_cursor_control.md R166). -/
theorem hostStep_slot {s t : State} {a : HostAction} (h : hostStep s a = .next t) (ha : a ≠ .reset)
    (j : Nat) : t.slot j = s.slot j := by
  obtain ⟨r, -, rfl⟩ | ⟨x, bs, -, -, rfl⟩ | ⟨f, -, rfl⟩ | ⟨hreset, -⟩ := hostStep_cases h
  case inr.inr.inr => exact absurd hreset ha
  all_goals rfl

/-- Settles O50: a release is the one effect that unbinds, and a reset the one action. -/
theorem boundSlotsStayBound : Obligations.BoundSlotsStayBound := by
  intro s t j c hstep hc hclose hreset
  obtain ⟨r, i, hr, hd, heq⟩ | ⟨r, -, -, heq⟩ | ⟨-, -, heq⟩ | ⟨a, rest, hr, hh, heq⟩ := step_cases s
  all_goals rw [heq] at hstep
  · obtain ⟨r', -, rsp, u, rfl, -, heff, -⟩ := exec_next hstep
    refine heff.slot_bound hc ?_
    rintro rfl
    exact hclose r hr hd
  · cases hstep
    exact ⟨c, hc⟩
  · cases hstep
    exact ⟨c, hc⟩
  · refine ⟨c, (hostStep_slot hstep ?_ j).trans hc⟩
    rintro rfl
    exact hreset rest hr hh

/-- A host store inside MEM (20_memory.md R64). -/
theorem hostStep_store_of_le {s : State} {a : Nat} {bs : List Byte}
    (h : a + bs.length ≤ 2 ^ s.cfg.addrW) :
    hostStep s (.store a bs) = .next (s.writeBytes a bs) :=
  if_pos (Config.inMem_iff.2 h)

/-- A host store past the top of MEM (20_memory.md R50). -/
theorem hostStep_store_of_lt {s : State} {a : Nat} {bs : List Byte}
    (h : 2 ^ s.cfg.addrW < a + bs.length) : hostStep s (.store a bs) = .fault .outsideMem :=
  if_neg (mt Config.inMem_iff.1 (Nat.not_le.2 h))

/-- Settles O6: a step with a request pending is a command's, and one without is the next action's,
or idle. -/
theorem hostActsOnlyBetweenCommands : Obligations.HostActsOnlyBetweenCommands := by
  refine ⟨fun s t r => step_host_of_req, fun s hr hh => by simp [step, hr, hh],
    fun s r rest hr hh => step_of_host hr hh, fun s a bs rest hr hh => ?_⟩
  rw [step_of_host hr hh]
  refine ⟨fun hlt => hostStep_store_of_lt hlt, fun hle => ⟨_, hostStep_store_of_le hle, fun x => ?_,
    rfl, rfl, hr, rfl, rfl, rfl, rfl⟩⟩
  exact s.writeBytes_readByte a x bs

end Sys2Proof.Machine
end

section
/-! Where the model stops, and that it stops nowhere else (10_state.md R20, R24, R32). Each meaning
reaches its request by `withRequest`, its payload by `withBytes` or `withChars`, and MEM by
`onRegion`; each of the three has one stop of its own, and the rest of a meaning has none. -/

namespace Sys2Proof.Machine

open Sys2Proof.Safety

/-! ## No request (log 13) -/

theorem exec_eq_withRequest (i : Instr) (s : State) : ∃ f, exec i s = withRequest s f := by
  cases i <;> exact ⟨_, rfl⟩

theorem withRequest_of_none {s : State} (h : s.req = none) (f : Request → Result) :
    withRequest s f = .fault .noRequest := by
  simp only [withRequest, h]

/-! ## A request that cannot be formed (log 7) -/

section
variable {s : State} {r : Request} {i : Instr}

theorem exec_of_payloadKind_bytes (hr : s.req = some r) (hi : i.payloadKind = .bytes) :
    ∃ f, exec i s = withBytes s r f := by
  cases i
  case b32Encode | wrBytes => exact ⟨_, withRequest_of_req hr _⟩
  all_goals cases hi

theorem exec_of_payloadKind_chars (hr : s.req = some r) (hi : i.payloadKind = .chars) :
    ∃ f, exec i s = withChars s r f := by
  cases i
  case b32Decode | b32Strip | b32Decodep => exact ⟨_, withRequest_of_req hr _⟩
  all_goals cases hi

theorem withBytes_of_unformed (hi : i.payloadKind = .bytes) (hf : r.formed s.cfg i = false)
    (f : List Byte → Result) : withBytes s r f = .refused .unformedRequest := by
  unfold withBytes
  cases hp : r.ipay with
  | chars cs => rfl
  | bytes bs =>
    simp only [Request.formed, hi, hp] at hf
    simp only [hf, Bool.false_eq_true, if_false]

theorem withChars_of_unformed (hi : i.payloadKind = .chars) (hf : r.formed s.cfg i = false)
    (f : List CodeUnit → Result) : withChars s r f = .refused .unformedRequest := by
  unfold withChars
  cases hp : r.ipay with
  | bytes bs => rfl
  | chars cs =>
    simp only [Request.formed, hi, hp] at hf
    simp only [hf, Bool.false_eq_true, if_false]

theorem exec_of_unformed (hr : s.req = some r) (hf : r.formed s.cfg i = false) :
    exec i s = .refused .unformedRequest := by
  cases hi : i.payloadKind with
  | ignored =>
    rw [Request.formed, hi] at hf
    cases hf
  | bytes =>
    obtain ⟨f, hexec⟩ := exec_of_payloadKind_bytes hr hi
    rw [hexec, withBytes_of_unformed hi hf]
  | chars =>
    obtain ⟨f, hexec⟩ := exec_of_payloadKind_chars hr hi
    rw [hexec, withChars_of_unformed hi hf]

end

/-! ## A region outside MEM (log 12) -/

theorem onRegion_of_outside {s : State} {k : Nat} {n : Need} {c : Cursor} (hgood : GoodSlot s k n c)
    (hout : 2 ^ s.cfg.addrW < c.origin + c.length) (f : Cursor → State) :
    onRegion s k n f = .fault .outsideMem := by
  have hregion : ¬ c.regionInMem s.cfg = true :=
    mt Cursor.regionInMem_iff.1 (Nat.not_le.2 hout)
  simp only [onRegion, checkSlot_good.2 hgood, if_neg hregion]

/-- The commands that reach MEM do so by `onRegion` (20_memory.md R51). -/
theorem exec_eq_onRegion {i : Instr} {k : Nat} {n : Need} {s : State} {r : Request}
    (hi : ChecksSlot k n i) (htouch : touchesMem i = true) (hr : s.req = some r)
    (hf : r.formed s.cfg i = true) : ∃ f, exec i s = onRegion s k n f := by
  cases hi with
  | getpos | setpos | rem | close | rdSlice => cases htouch
  | readNum ty o => exact ⟨_, (exec_readInstr ty k o s).trans (withRequest_of_req hr _)⟩
  | rdBytes | rdCstr | rdStr => exact ⟨_, withRequest_of_req hr _⟩
  | writeNum ty o => exact ⟨_, (exec_writeInstr ty k o s).trans (withRequest_of_req hr _)⟩
  | wrBytes =>
    obtain ⟨bs, hp, hl⟩ := ipay_of_formed_wrBytes hf
    exact ⟨_, (withRequest_of_req hr _).trans (withBytes_of_ipay hp hl _)⟩

/-- Settles O59: the stop of `withRequest`, of `withBytes` and `withChars`, and of `onRegion`. -/
theorem stopsAreNamed : Obligations.StopsAreNamed := by
  refine ⟨fun i s hr => ?_, fun i s r => exec_of_unformed,
    fun i s r k n c hr hf htouch hk hn hgood hout => ?_⟩
  · obtain ⟨f, hexec⟩ := exec_eq_withRequest i s
    rw [hexec, withRequest_of_none hr]
  · obtain ⟨f, hexec⟩ := exec_eq_onRegion (checksSlot_of_needOf hk hn) htouch hr hf
    rw [hexec, onRegion_of_outside hgood hout]

/-! ## No other stop -/

/-- The text of a request that can be formed for a command that reads one (10_state.md R24). -/
theorem ipay_of_formed_chars {c : Config} {i : Instr} {r : Request} (hi : i.payloadKind = .chars)
    (h : r.formed c i = true) :
    ∃ cs, r.ipay = .chars cs ∧ (Payload.chars cs).fits c = true := by
  cases hp : r.ipay with
  | bytes bs => simp [Request.formed, hi, hp] at h
  | chars cs => exact ⟨cs, rfl, by simpa only [Request.formed, hi, hp] using h⟩

/-- The bytes of a request that can be formed for a command that reads them (10_state.md R24). -/
theorem ipay_of_formed_bytes {c : Config} {i : Instr} {r : Request} (hi : i.payloadKind = .bytes)
    (h : r.formed c i = true) : ∃ bs, r.ipay = .bytes bs ∧ bs.length ≤ lenMax := by
  rw [Request.formed, hi] at h
  exact ipay_of_formed_wrBytes (k := 0) h

section
variable {s : State} {r : Request} {i : Instr}

/-- A codec command answers every request that can be formed. -/
theorem exec_next_of_slot?_none (hi : i.slot? = none) (hr : s.req = some r)
    (hf : r.formed s.cfg i = true) : ∃ t, exec i s = .next t := by
  cases i <;> cases hi
  case b32Enclen | b32Declen => exact ⟨_, withRequest_of_req hr _⟩
  case b32Encode =>
    obtain ⟨bs, hp, hl⟩ := ipay_of_formed_bytes (i := .b32Encode) rfl hf
    exact ⟨_, exec_b32Encode hr hp hl⟩
  case b32Decode =>
    obtain ⟨cs, hp, hfits⟩ := ipay_of_formed_chars rfl hf
    exact ⟨_, exec_b32Decode hr hp hfits⟩
  case b32Strip =>
    obtain ⟨cs, hp, hfits⟩ := ipay_of_formed_chars rfl hf
    exact ⟨_, exec_b32Strip hr hp hfits⟩
  case b32Decodep =>
    obtain ⟨cs, hp, hfits⟩ := ipay_of_formed_chars rfl hf
    exact ⟨_, exec_b32Decodep hr hp hfits (strippedCount_isStripped cs)⟩

/-- A command that runs CheckSlot answers every request that can be formed: under the invariant a
slot that passes has its region in MEM (10_state.md R32). -/
theorem exec_next_of_checksSlot {k : Nat} {n : Need} (hslots : slotsOk s = true)
    (hi : ChecksSlot k n i) (hr : s.req = some r) (hf : r.formed s.cfg i = true) :
    ∃ t, exec i s = .next t := by
  obtain ⟨f, -, hexec | hexec⟩ := exec_eq_of_checksSlot hi hr hf
  · exact ⟨_, hexec⟩
  · cases hc : s.checkSlot k n with
    | none => exact ⟨_, hexec.trans (onRegion_of_badSlot f (checkSlot_bad.1 hc))⟩
    | some c =>
      obtain ⟨-, hok⟩ := cursorOk_of_checkSlot hslots hc
      obtain ⟨-, -, -, hin⟩ := cursorOk_iff.1 hok
      exact ⟨_, hexec.trans (onRegion_of_goodSlot f (checkSlot_good.1 hc) hin)⟩

theorem exec_next_of_formed (hslots : slotsOk s = true) (hr : s.req = some r)
    (hf : r.formed s.cfg i = true) : ∃ t, exec i s = .next t := by
  cases hk : i.slot? with
  | none => exact exec_next_of_slot?_none hk hr hf
  | some k =>
    cases hn : needOf i with
    | none =>
      obtain ⟨m, rfl⟩ := openInstr_of_needOf_none hk hn
      exact ⟨_, exec_openInstr_of_req hr m k⟩
    | some n => exact exec_next_of_checksSlot hslots (checksSlot_of_needOf hk hn) hr hf

end

/-- Settles O4: a legal command answers a next state, and every answer is a completion. -/
theorem everyFormedRequestCompletes : Obligations.EveryFormedRequestCompletes := by
  intro s r hinv hr hf
  have hnext : ∃ t, step s = .next t := by
    cases hd : decode r.cmd with
    | some i =>
      rw [step_of_decode hr hd]
      exact exec_next_of_formed hinv.slots hr (hf i hd)
    | none => exact ⟨_, step_of_illegal hr hd⟩
  obtain ⟨t, hstep⟩ := hnext
  have hhost := step_host_of_req hr hstep
  obtain ⟨rsp, u, rfl, -⟩ := step_completes hr hstep
  exact ⟨_, rsp, hstep, rfl, rfl, hhost⟩

end Sys2Proof.Machine
end

section
/-! What a command sees of MEM (20_memory.md R52, R64; 43_cursor_read.md R200; 44_cursor_write.md
R236): a read the bytes that remain of its region, a write none. The same command is run on two
memories that agree on those bytes, and its meaning is compared check by check. -/

namespace Sys2Proof.Machine

open Sys2Proof.Safety

/-! ## Two runs of one command -/

/-- The block with the memory m. -/
def State.withMem (s : State) (m : Memory) : State := { s with mem := m }

/-- The response and the slot file are the same. -/
def SameAnswer (t t' : State) : Prop := t'.resp = t.resp ∧ t'.slots = t.slots

/-- The memory m agrees with that of s on the bytes that remain of c's region (20_memory.md R52). -/
def AgreesOn (s : State) (m : Memory) (c : Cursor) : Prop :=
  ∀ j, j < c.remaining → (s.withMem m).readByte (c.address + j) = s.readByte (c.address + j)

section
variable {s t t' : State} {m : Memory} {k : Nat} {c : Cursor}

theorem sameAnswer_ite {p : Prop} [Decidable p] {u u' : State} (h : p → SameAnswer t t')
    (h' : ¬ p → SameAnswer u u') :
    SameAnswer (if p then t else u) (if p then t' else u') := by
  split
  · next hp => exact h hp
  · next hp => exact h' hp

theorem sameAnswer_withRequest {f f' : Request → Result}
    (h : withRequest s f = .next t) (h' : withRequest (s.withMem m) f' = .next t')
    (hf : ∀ r, f r = .next t → f' r = .next t' → SameAnswer t t') : SameAnswer t t' := by
  obtain ⟨r, hr, hr'⟩ := withRequest_next_both (s' := s.withMem m) rfl h h'
  exact hf r hr hr'

theorem sameAnswer_onSlot {n : Need} {f f' : Cursor → State} (h : onSlot s k n f = .next t)
    (h' : onSlot (s.withMem m) k n f' = .next t')
    (hf : ∀ c, s.slot k = some c → SameAnswer (f c) (f' c)) : SameAnswer t t' := by
  obtain ⟨hc, rfl⟩ | ⟨c, hc, rfl⟩ := onSlot_eq_next.1 h <;>
    obtain ⟨hc', rfl⟩ | ⟨c', hc', rfl⟩ := onSlot_eq_next.1 h'
  · exact ⟨rfl, rfl⟩
  · cases hc.symm.trans hc'
  · cases hc.symm.trans hc'
  · cases hc.symm.trans hc'
    exact hf c (checkSlot_good.1 hc).2.1

theorem sameAnswer_onRegion {n : Need} {f f' : Cursor → State} (h : onRegion s k n f = .next t)
    (h' : onRegion (s.withMem m) k n f' = .next t')
    (hf : ∀ c, s.slot k = some c → SameAnswer (f c) (f' c)) : SameAnswer t t' := by
  obtain ⟨hc, rfl⟩ | ⟨c, hc, -, rfl⟩ := onRegion_eq_next.1 h <;>
    obtain ⟨hc', rfl⟩ | ⟨c', hc', -, rfl⟩ := onRegion_eq_next.1 h'
  · exact ⟨rfl, rfl⟩
  · cases hc.symm.trans hc'
  · cases hc.symm.trans hc'
  · cases hc.symm.trans hc'
    exact hf c (checkSlot_good.1 hc).2.1

theorem sameAnswer_withCount {r : Request} {f f' : Nat → State}
    (hf : ∀ n, n ≤ c.remaining → SameAnswer (f n) (f' n)) :
    SameAnswer (withCount s r c f) (withCount (s.withMem m) r c f') := by
  unfold withCount
  refine sameAnswer_ite (fun _ => ⟨rfl, rfl⟩) fun hneg =>
    sameAnswer_ite (fun _ => ⟨rfl, rfl⟩) fun hle => hf _ ?_
  omega

/-! ## Reads -/

theorem AgreesOn.readBytes_eq (h : AgreesOn s m c) {n : Nat} (hn : n ≤ c.remaining) :
    (s.withMem m).readBytes c.address n = s.readBytes c.address n :=
  memRead_congr fun j hj => h j (hj.trans_le hn)

theorem State.findZero_congr_of_lt {s s' : State} {a n : Nat}
    (h : ∀ j, j < n → s.readByte (a + j) = s'.readByte (a + j)) :
    s.findZero a n = s'.findZero a n := by
  induction n generalizing a with
  | zero => rfl
  | succ n ih =>
    have hfirst : s.readByte a = s'.readByte a := h 0 (Nat.succ_pos n)
    have hnext : s.findZero (a + 1) n = s'.findZero (a + 1) n := ih fun j hj => by
      rw [Nat.add_assoc, Nat.add_comm 1 j]
      exact h (j + 1) (Nat.succ_lt_succ hj)
    simp only [State.findZero, hfirst, hnext]

theorem sameAnswer_finishText (e : TextEncoding) (bs : List Byte) (n : Nat) :
    SameAnswer (finishText s k c e bs n) (finishText (s.withMem m) k c e bs n) := by
  unfold finishText
  rw [show (s.withMem m).cfg = s.cfg from rfl]
  split <;> exact ⟨rfl, rfl⟩

theorem sameAnswer_readNum {ty : NumType} {o : Order} (h : readNum ty k o s = .next t)
    (h' : readNum ty k o (s.withMem m) = .next t')
    (hagree : ∀ c, s.slot k = some c → AgreesOn s m c) : SameAnswer t t' := by
  refine sameAnswer_withRequest h h' fun r h h' => sameAnswer_onRegion h h' fun c hc => ?_
  refine sameAnswer_ite (fun _ => ⟨rfl, rfl⟩) fun hle => ?_
  rw [(hagree c hc).readBytes_eq (Nat.not_lt.1 hle)]
  exact ⟨rfl, rfl⟩

/-- A read answers the same on two memories that agree on what remains of its region
(43_cursor_read.md R200). -/
theorem sameAnswer_of_read {i : Instr} (hi : ChecksSlot k .reader i) (h : exec i s = .next t)
    (h' : exec i (s.withMem m) = .next t') (hagree : ∀ c, s.slot k = some c → AgreesOn s m c) :
    SameAnswer t t' := by
  cases hi with
  | readNum ty o =>
    rw [exec_readInstr] at h h'
    exact sameAnswer_readNum h h' hagree
  | rdBytes =>
    refine sameAnswer_withRequest h h' fun r h h' => sameAnswer_onRegion h h' fun c hc =>
      sameAnswer_withCount fun n hn => ?_
    rw [(hagree c hc).readBytes_eq hn]
    exact ⟨rfl, rfl⟩
  | rdSlice =>
    exact sameAnswer_withRequest h h' fun r h h' => sameAnswer_onSlot h h' fun c _ =>
      sameAnswer_withCount fun n _ => ⟨rfl, rfl⟩
  | rdCstr =>
    refine sameAnswer_withRequest h h' fun r h h' => sameAnswer_onRegion h h' fun c hc => ?_
    rw [State.findZero_congr_of_lt (hagree c hc)]
    split
    · exact ⟨rfl, rfl⟩
    · next n hz =>
      rw [(hagree c hc).readBytes_eq (State.findZero_eq_some.1 hz).1.le]
      exact sameAnswer_finishText .utf8 _ (n + 1)
  | rdStr e =>
    refine sameAnswer_withRequest h h' fun r h h' => sameAnswer_onRegion h h' fun c hc =>
      sameAnswer_withCount fun n hn => ?_
    rw [(hagree c hc).readBytes_eq hn]
    exact sameAnswer_finishText e _ n

/-! ## Writes -/

/-- A write answers the same on every memory (44_cursor_write.md R236). -/
theorem sameAnswer_of_write {i : Instr} (hi : ChecksSlot k .writer i) (h : exec i s = .next t)
    (h' : exec i (s.withMem m) = .next t') : SameAnswer t t' := by
  cases hi with
  | writeNum ty o =>
    rw [exec_writeInstr] at h h'
    exact sameAnswer_withRequest h h' fun r h h' => sameAnswer_onRegion h h' fun c _ =>
      sameAnswer_ite (fun _ => ⟨rfl, rfl⟩) fun _ => ⟨rfl, rfl⟩
  | wrBytes =>
    refine sameAnswer_withRequest h h' fun r h h' => ?_
    obtain ⟨bs, h, h'⟩ := withBytes_next_both h h'
    exact sameAnswer_onRegion h h' fun c _ =>
      sameAnswer_ite (fun _ => ⟨rfl, rfl⟩) fun _ => ⟨rfl, rfl⟩

end

/-- A write changes no byte of MEM outside its width from the address that it stores to, and none
where its slot check fails (44_cursor_write.md R236). -/
theorem exec_readByte_of_write {i : Instr} {s t : State} {r : Request} {k : Nat}
    (h : exec i s = .next t) (hr : s.req = some r) (hk : i.slot? = some k) :
    (∀ a, s.storeAddress k = some a → ∀ x, x < a ∨ a + storeWidth r i ≤ x →
      t.readByte x = s.readByte x) ∧
    (s.storeAddress k = none → ∀ x, t.readByte x = s.readByte x) := by
  obtain ⟨r', hr', rsp, u, rfl, -, heff, -⟩ := exec_next h
  cases hr.symm.trans hr'
  obtain hsame | ⟨k', a, -, hk', ha, hout⟩ := heff.readByte_cases
  · exact ⟨fun _ _ x _ => hsame x, fun _ => hsame⟩
  · cases hk.symm.trans hk'
    rw [ha]
    refine ⟨?_, fun hnone => (Option.some_ne_none a hnone).elim⟩
    rintro _ ⟨⟩
    exact hout

/-! ## The obligations -/

theorem needOf_of_isRead {i : Instr} (hi : isRead i = true) : needOf i = some .reader := by
  cases i <;> cases hi <;> rfl

theorem needOf_of_isWrite {i : Instr} (hi : isWrite i = true) : needOf i = some .writer := by
  cases i <;> cases hi <;> rfl

/-- Settles O42: the bytes a read takes in lie between its position and the end of its region. -/
theorem readsSeeOnlyTheirRegion : Obligations.ReadsSeeOnlyTheirRegion := by
  intro i s t t' m k c hi hk hc hagree h h'
  refine sameAnswer_of_read (checksSlot_of_needOf hk (needOf_of_isRead hi)) h h' ?_
  rintro d hd j hj
  cases hc.symm.trans hd
  unfold Cursor.remaining at hj
  exact hagree _ (Nat.le_add_right _ _) (by unfold Cursor.address; omega)

/-- Settles O45: the frame of every command, the one effect of a write, and the same run on another
memory. -/
theorem writesChangeOnlyTheirBytesAndPosition :
    Obligations.WritesChangeOnlyTheirBytesAndPosition := by
  intro i s t r k hi hk hr h
  obtain ⟨hunbound, hbound⟩ := exec_slot_of_access h (.inr hi) hk
  obtain ⟨hcfg, hhost, hreq, rsp, hrsp, -, hhist⟩ := exec_frame h
  have hother (j : Nat) (hj : j ≠ k) : t.slot j = s.slot j :=
    exec_slot_eq_of_ne h (by rw [hk, ne_eq, Option.some.injEq]; exact hj.symm)
  obtain ⟨hinside, houtside⟩ := exec_readByte_of_write h hr hk
  exact ⟨hinside, houtside, hother, hunbound, hbound, hcfg, hhost, hreq, ⟨rsp, hrsp, hhist⟩,
    fun m t' h' => sameAnswer_of_write (checksSlot_of_needOf hk (needOf_of_isWrite hi)) h h'⟩

/-- Settles O47: the payload stands in MEM where it was stored, and RD.BYTES copies it. -/
theorem bytesWrittenAreReadBack : Obligations.BytesWrittenAreReadBack := by
  intro s t r k c bs hr hp hgood hin hle hexec u r' j d hcfg hmem hr' hgood' hin' hat hle' hcount
  obtain ⟨bs', hp', hl, -⟩ := withBytes_eq_next.1 (next_of_withRequest hr hexec)
  cases hp.symm.trans hp'
  obtain ⟨t', hexec', -, -, -, -, -, -, -, hmem'⟩ := completes_wrBytes hr hp hl hgood hin hle
  obtain rfl : t = t' := by simpa [hexec] using hexec'
  have hbytes := readBytes_of_patched fun x => (hmem x).trans (hmem' x)
  have hread := completes_rdBytes hr' hgood' hin' hcount hle'
  rw [show d.address = c.address from hat, hbytes] at hread
  exact ⟨_, hread⟩

end Sys2Proof.Machine
end

section
/-! The encoder as arithmetic (41_base32.md sections 1 and 3). The bytes, with zero bits appended up
to a multiple of 5, are one string of bits; the accumulator's REM low bits are the last of those
taken in so far, so the five on top of them are the next digit in base 32. -/

namespace Sys2Proof.Machine

open Sys2Proof.Safety

/-! ## Bits in an accumulator -/

/-- Shifting the n bits of v into an accumulator appends them to its low bits. -/
theorem shiftIn_mod {w rem n v : Nat} (acc : BitVec w) (hw : rem + n ≤ w) (hv : v < 2 ^ n) :
    ((acc <<< n) ||| BitVec.ofNat w v).toNat % 2 ^ (rem + n) =
      (acc.toNat * 2 ^ n + v) % 2 ^ (rem + n) := by
  have hdvd : 2 ^ (rem + n) ∣ 2 ^ w := Nat.pow_dvd_pow 2 hw
  rw [BitVec.toNat_or, BitVec.toNat_shiftLeft, BitVec.toNat_ofNat, Nat.or_mod_two_pow,
    Nat.mod_mod_of_dvd _ hdvd, Nat.mod_mod_of_dvd _ hdvd, ← Nat.or_mod_two_pow, Nat.shiftLeft_eq,
    Nat.mul_comm, ← Nat.two_pow_add_eq_or_of_lt hv]

/-- An accumulator whose low bits are those of x holds those of x with n bits appended. -/
theorem shiftIn_mod_congr {w rem n v x : Nat} {acc : BitVec w} (hw : rem + n ≤ w) (hv : v < 2 ^ n)
    (h : acc.toNat % 2 ^ rem = x % 2 ^ rem) :
    ((acc <<< n) ||| BitVec.ofNat w v).toNat % 2 ^ (rem + n) = (x * 2 ^ n + v) % 2 ^ (rem + n) := by
  rw [shiftIn_mod acc hw hv, Nat.pow_add]
  exact (Nat.ModEq.mul_right' (2 ^ n) h).add_right v

/-- Numbers with the same low k + n bits have the same n bits above the low k. -/
theorem window_congr {x y k n : Nat} (h : x % 2 ^ (k + n) = y % 2 ^ (k + n)) :
    x / 2 ^ k % 2 ^ n = y / 2 ^ k % 2 ^ n := by
  rw [Nat.pow_add] at h
  rw [← Nat.mod_mul_right_div_self, h, Nat.mod_mul_right_div_self]

/-! ## The string of bits -/

/-- How many bits the symbols of n bytes hold. -/
def bitCount (n : Nat) : Nat := 5 * symbolCount n

/-- The number of the bytes, with zero bits appended up to a multiple of 5. -/
def bitsValue (bs : List Byte) : Nat := beValue bs * 2 ^ (bitCount bs.length - 8 * bs.length)

/-- The number that the first m bits spell. -/
def leadingBits (bs : List Byte) (m : Nat) : Nat := bitsValue bs / 2 ^ (bitCount bs.length - m)

theorem bitCount_bounds (n : Nat) : 8 * n ≤ bitCount n ∧ bitCount n < 8 * n + 5 := by
  unfold bitCount symbolCount
  omega

section
variable (bs : List Byte)

/-- The bits of the first i bytes spell the number of those bytes. -/
theorem leadingBits_bytes {i : Nat} (hi : i ≤ bs.length) :
    leadingBits bs (8 * i) = beValue bs / 256 ^ (bs.length - i) := by
  obtain ⟨hle, -⟩ := bitCount_bounds bs.length
  have hsplit : bitCount bs.length - 8 * i =
      bitCount bs.length - 8 * bs.length + 8 * (bs.length - i) := by omega
  rw [leadingBits, bitsValue, hsplit, Nat.pow_add, ← Nat.div_div_eq_div_mul,
    Nat.mul_div_cancel _ (Nat.two_pow_pos _), two_pow_eight_mul]

/-- One more byte is appended to the bits before it (R118). -/
theorem leadingBits_load {i : Nat} (hi : i < bs.length) :
    leadingBits bs (8 * (i + 1)) = leadingBits bs (8 * i) * 2 ^ 8 + (bs.getD i 0#8).toNat := by
  have hexp : bs.length - i = bs.length - (i + 1) + 1 := by omega
  have hdigit := beValue_digit (bs := bs) (j := bs.length - (i + 1)) (by omega)
  rw [show bs.length - 1 - (bs.length - (i + 1)) = i by omega] at hdigit
  rw [leadingBits_bytes bs hi, leadingBits_bytes bs hi.le, hexp, Nat.pow_succ,
    ← Nat.div_div_eq_div_mul, ← hdigit]
  exact (Nat.div_add_mod' _ 256).symm

/-- The appended zero bits stand after those of all the bytes (R119). -/
theorem leadingBits_flush : leadingBits bs (bitCount bs.length) =
    leadingBits bs (8 * bs.length) * 2 ^ (bitCount bs.length - 8 * bs.length) := by
  rw [leadingBits_bytes bs (Nat.le_refl _), leadingBits, Nat.sub_self, Nat.sub_self, Nat.pow_zero,
    Nat.pow_zero, Nat.div_one, Nat.div_one, bitsValue]

/-- The first m bits are got from more of them by dropping the last. -/
theorem leadingBits_div {m k : Nat} (hm : m + k ≤ bitCount bs.length) :
    leadingBits bs (m + k) / 2 ^ k = leadingBits bs m := by
  have hsplit : bitCount bs.length - m = bitCount bs.length - (m + k) + k := by omega
  rw [leadingBits, leadingBits, Nat.div_div_eq_div_mul, ← Nat.pow_add, ← hsplit]

/-- The i-th base-32 digit is the last of the first i + 1. -/
theorem refSymbols_eq : refSymbols bs =
    (List.range (symbolCount bs.length)).map fun i =>
      alphabet (leadingBits bs (5 * (i + 1)) % 2 ^ 5) := by
  refine List.map_congr_left fun i hi => ?_
  have hlt := List.mem_range.1 hi
  have hexp : bitCount bs.length - 5 * (i + 1) = 5 * (symbolCount bs.length - 1 - i) := by
    unfold bitCount
    omega
  rw [leadingBits, hexp, Nat.pow_mul]
  rfl

end

/-! ## The LOOP phase -/

/-- In LOOP: the bits held are the last REM of the bits taken in, and what is out are the digits of
the bits before them. -/
structure EncHolds {w : Nat} (src : List Byte) (r : EncRegs w) : Prop where
  taken : r.rem + 5 * r.o ≤ bitCount src.length
  held : r.acc.toNat % 2 ^ r.rem = leadingBits src (r.rem + 5 * r.o) % 2 ^ r.rem
  out : r.out = (List.range r.o).map fun i => alphabet (leadingBits src (5 * (i + 1)) % 2 ^ 5)

section
variable {w : Nat} {src : List Byte} {r : EncRegs w}

theorem encHolds_start (hw : 8 ≤ w) (hsrc : src ≠ []) : EncHolds src (encStart w src) := by
  have hlen : 0 < src.length := List.length_pos_iff.2 hsrc
  have hlead := leadingBits_load src hlen
  obtain ⟨hle, -⟩ := bitCount_bounds src.length
  refine ⟨?_, ?_, rfl⟩
  · show 8 ≤ bitCount src.length
    omega
  · show ((src.getD 0 0#8).setWidth w).toNat % 2 ^ 8 = leadingBits src (8 * (0 + 1)) % 2 ^ 8
    rw [hlead, Nat.mul_add_mod_self_right, BitVec.toNat_setWidth,
      Nat.mod_mod_of_dvd _ (Nat.pow_dvd_pow 2 hw)]

/-- The load appends a byte to the bits taken in and to the accumulator alike (R118). -/
theorem EncHolds.load (hw : 12 ≤ w) (h : EncHolds src r) (hrem : r.rem < 5)
    (hi : r.i < src.length) (htaken : r.rem + 5 * r.o = 8 * r.i) :
    EncHolds src (encFill src r) := by
  have hnext : r.rem + 8 + 5 * r.o = 8 * (r.i + 1) := by omega
  obtain ⟨hle, -⟩ := bitCount_bounds src.length
  rw [encFill_of_load ⟨hrem, hi⟩]
  refine ⟨?_, ?_, h.out⟩ <;> dsimp only <;> rw [hnext]
  · omega
  · rw [leadingBits_load src hi, ← BitVec.ofNat_toNat]
    exact shiftIn_mod_congr (by omega) (src.getD r.i 0#8).isLt (htaken ▸ h.held)

/-- The flush appends the zero bits that fill the last symbol (R119). -/
theorem EncHolds.flush (hw : 12 ≤ w) (h : EncHolds src r) (hrem : r.rem < 5)
    (hi : r.i = src.length) (htaken : r.rem + 5 * r.o = 8 * r.i)
    (hlast : 5 + 5 * r.o = bitCount src.length) : EncHolds src (encFill src r) := by
  have hfill : r.rem + (5 - r.rem) = 5 := by omega
  have hzeros : bitCount src.length - 8 * src.length = 5 - r.rem := by omega
  have hlead : leadingBits src (bitCount src.length) =
      leadingBits src (r.rem + 5 * r.o) * 2 ^ (5 - r.rem) := by
    rw [leadingBits_flush, hzeros, htaken, hi]
  rw [encFill_of_flush hrem (by omega)]
  refine ⟨hlast.le, ?_, h.out⟩
  have hshift := shiftIn_mod_congr (w := w) (n := 5 - r.rem) (v := 0) (by omega)
    (Nat.two_pow_pos _) h.held
  rw [hfill, BitVec.or_zero, Nat.add_zero] at hshift
  dsimp only
  rw [hlast, hlead, hshift]

/-- Before a symbol is emitted its bits are taken in (R118, R119). -/
theorem EncHolds.fill (hw : 12 ≤ w) (hloop : EncLoop src.length r) (h : EncHolds src r)
    (ho : r.o < symbolCount src.length) : EncHolds src (encFill src r) := by
  rcases Nat.lt_or_ge r.rem 5 with hrem | hrem
  · have htaken : r.rem + 5 * r.o = 8 * r.i := by
      have hbits := hloop.bits
      omega
    have hloaded := hloop.loaded
    by_cases hi : r.i < src.length
    · exact h.load hw hrem hi htaken
    · refine h.flush hw hrem (by omega) htaken ?_
      unfold bitCount symbolCount at *
      omega
  · rwa [encFill_of_five_le hrem]

/-- The symbol emitted is the next digit (R120). -/
theorem EncHolds.emit (hw : 12 ≤ w) (h : EncHolds src r) (h5 : 5 ≤ r.rem) :
    EncHolds src (encEmit r) := by
  obtain ⟨htaken, hheld, hout⟩ := h
  have hrem : r.rem - 5 + 5 = r.rem := by omega
  have hbits : r.rem - 5 + 5 * (r.o + 1) = r.rem + 5 * r.o := by omega
  have hsymbol : ((r.acc >>> (r.rem - 5)) &&& BitVec.ofNat w 0x1F).toNat =
      leadingBits src (5 * (r.o + 1)) % 2 ^ 5 := by
    have hdrop := leadingBits_div src (m := 5 * (r.o + 1)) (k := r.rem - 5) (by omega)
    rw [Nat.add_comm, hbits] at hdrop
    have hwindow : r.acc.toNat % 2 ^ (r.rem - 5 + 5) =
        leadingBits src (r.rem + 5 * r.o) % 2 ^ (r.rem - 5 + 5) := by rwa [hrem]
    rw [← hdrop, ← window_congr hwindow]
    exact window_toNat (n := 5) (by omega) r.acc
  refine ⟨?_, ?_, ?_⟩
  · rw [encEmit_rem, encEmit_o, hbits]
    exact htaken
  · rw [encEmit_rem, encEmit_o, hbits]
    exact Nat.ModEq.of_dvd (Nat.pow_dvd_pow 2 (Nat.sub_le _ _)) hheld
  · rw [encEmit_o, List.range_succ, List.map_append, ← hout, encEmit, hsymbol]
    rfl

theorem EncHolds.step (hw : 12 ≤ w) (hloop : EncLoop src.length r) (h : EncHolds src r)
    (ho : r.o < symbolCount src.length) : EncHolds src (encStep src r) := by
  rw [encStep_of_emit hloop.phase (hloop.not_spent ho)]
  exact (h.fill hw hloop ho).emit hw (five_le_encFill_rem src r)

theorem EncHolds.steps (hw : 12 ≤ w) {k : Nat} (hloop : EncLoop src.length r) (h : EncHolds src r)
    (hk : r.o + k ≤ symbolCount src.length) : EncHolds src (encSteps src k r) := by
  induction k generalizing r with
  | zero => exact h
  | succ k ih =>
    obtain ⟨hstep, ho⟩ := hloop.step (by omega)
    exact ih hstep (h.step hw hloop (by omega)) (by omega)

/-! ## The whole run -/

/-- The encoder of any width from 12 up writes the digits and then the pad characters. -/
theorem encRun_out (hw : 12 ≤ w) (hsrc : src ≠ []) : (encRun w src).out = refEncode src := by
  obtain ⟨-, ho⟩ := encLoop_of_le (w := w) hsrc (Nat.le_refl (symbolCount src.length))
  have hholds := (encHolds_start (w := w) (by omega) hsrc).steps hw (encLoop_start hsrc)
    (k := symbolCount src.length) (Nat.zero_add _).le
  rw [(encRun_done hsrc).out, hholds.out, ho, ← refSymbols_eq]
  rfl

end

/-- Settles O16: what the accumulator holds is a part of the bytes' bits. -/
theorem encoderSpellsTheBytesInBase32 : Obligations.EncoderSpellsTheBytesInBase32 :=
  fun _ hsrc => encRun_out (by decide) hsrc

end Sys2Proof.Machine
end

section
/-! The decoder as arithmetic (41_base32.md section 4), and the round trip (R128). Each character
appends its five bits to a number; the bytes out are that number without the bits still held. -/

namespace Sys2Proof.Machine

open Sys2Proof.Safety

/-! ## Numbers in base 32 and in base 256 -/

theorem base32Value_append (vs : List Nat) (v : Nat) :
    base32Value (vs ++ [v]) = base32Value vs * 2 ^ 5 + v := by
  rw [base32Value, List.foldl_append, Nat.mul_comm]
  rfl

/-- The last byte of a number in base 256. -/
theorem toBE_succ (n v : Nat) : toBE (n + 1) v = toBE n (v / 256) ++ [BitVec.ofNat 8 v] :=
  List.reverse_cons

theorem toLE_leValue (bs : List Byte) : toLE bs.length (leValue bs) = bs := by
  induction bs with
  | nil => rfl
  | cons b bs ih =>
    have hlow : BitVec.ofNat 8 (b.toNat + 256 * leValue bs) = b := by
      refine BitVec.eq_of_toNat_eq ?_
      rw [BitVec.toNat_ofNat, Nat.add_mul_mod_self_left, Nat.mod_eq_of_lt b.isLt]
    have hhigh : (b.toNat + 256 * leValue bs) / 256 = leValue bs := by
      have hb := b.isLt
      omega
    rw [leValue, List.length_cons, toLE, hlow, hhigh, ih]

theorem toBE_beValue (bs : List Byte) : toBE bs.length (beValue bs) = bs := by
  have h := toLE_leValue bs.reverse
  rw [List.length_reverse] at h
  rw [toBE, beValue, h, List.reverse_reverse]

/-! ## The LOOP phase -/

/-- After the values vs in LOOP: the bits held are the last of their number, and the bytes out are
those of the bits before them. -/
structure DecHolds {w : Nat} (vs : List Nat) (r : DecRegs w) : Prop where
  loop : DecLoop r
  index : r.j = vs.length
  held : r.acc.toNat % 2 ^ r.rem = base32Value vs % 2 ^ r.rem
  out : r.out = toBE r.o (base32Value vs / 2 ^ r.rem)

section
variable {w : Nat} {cs : List CodeUnit} {vs : List Nat} {r : DecRegs w} {v : Nat}

theorem decHolds_start : DecHolds [] (decStart w) :=
  ⟨decLoop_start, rfl, Nat.mod_one _, rfl⟩

theorem decTake_of_lt (h : r.rem + 5 < 8) : decTake r v =
    { r with acc := (r.acc <<< 5) ||| BitVec.ofNat w v, rem := r.rem + 5, j := r.j + 1 } :=
  if_neg (Nat.not_le.2 h)

theorem decTake_of_le (h : 8 ≤ r.rem + 5) : decTake r v =
    { r with
      acc := (r.acc <<< 5) ||| BitVec.ofNat w v
      rem := r.rem + 5 - 8
      j := r.j + 1
      o := r.o + 1
      out := r.out ++ [((((r.acc <<< 5) ||| BitVec.ofNat w v) >>> (r.rem + 5 - 8)) &&&
        BitVec.ofNat w 0xFF).setWidth 8] } :=
  if_pos h

/-- The byte emitted is the eight bits above the low k, whichever number the accumulator holds the
low bits of. -/
theorem emitted_byte_eq {acc : BitVec w} {x k : Nat} (hw : 8 ≤ w)
    (h : acc.toNat % 2 ^ (k + 8) = x % 2 ^ (k + 8)) :
    ((acc >>> k) &&& BitVec.ofNat w 0xFF).setWidth 8 = BitVec.ofNat 8 (x / 2 ^ k) := by
  have hbyte : ((acc >>> k) &&& BitVec.ofNat w 0xFF).toNat = acc.toNat / 2 ^ k % 2 ^ 8 :=
    window_toNat (n := 8) hw acc
  refine BitVec.eq_of_toNat_eq ?_
  rw [BitVec.toNat_setWidth, BitVec.toNat_ofNat, hbyte, Nat.mod_mod, window_congr h]

/-- The bits of a value are appended to the bits held. -/
theorem DecHolds.shiftIn (hw : 12 ≤ w) (h : DecHolds vs r) (hv : v < 2 ^ 5) :
    ((r.acc <<< 5) ||| BitVec.ofNat w v).toNat % 2 ^ (r.rem + 5) =
      base32Value (vs ++ [v]) % 2 ^ (r.rem + 5) := by
  have hrem : r.rem < 8 := h.loop.held.trans_lt (Nat.mod_lt _ (by decide))
  rw [base32Value_append]
  exact shiftIn_mod_congr (by omega) hv h.held

/-- The bits before the bits held are the same with a value appended. -/
theorem base32Value_append_div (k : Nat) (hv : v < 2 ^ 5) :
    base32Value (vs ++ [v]) / 2 ^ (k + 5) = base32Value vs / 2 ^ k := by
  rw [base32Value_append, Nat.add_comm k, Nat.pow_add, ← Nat.div_div_eq_div_mul]
  congr 1
  omega

/-- R124: five more bits, and a byte out when eight are held. -/
theorem DecHolds.take (hw : 12 ≤ w) (h : DecHolds vs r) (hv : v < 2 ^ 5) :
    DecHolds (vs ++ [v]) (decTake r v) := by
  have hacc := h.shiftIn hw hv
  have hbefore := base32Value_append_div (vs := vs) r.rem hv
  have hj : (decTake r v).j = (vs ++ [v]).length := by
    rw [decTake_j, h.index, List.length_append]
    rfl
  rcases Nat.lt_or_ge (r.rem + 5) 8 with h8 | h8
  · refine ⟨h.loop.take v, hj, ?_, ?_⟩ <;> rw [decTake_of_lt h8]
    · exact hacc
    · exact h.out.trans (by rw [hbefore])
  · have hsplit : r.rem + 5 - 8 + 8 = r.rem + 5 := Nat.sub_add_cancel h8
    refine ⟨h.loop.take v, hj, ?_, ?_⟩ <;> rw [decTake_of_le h8]
    · exact Nat.ModEq.of_dvd (Nat.pow_dvd_pow 2 (Nat.sub_le _ 8)) hacc
    · dsimp only
      rw [toBE_succ, emitted_byte_eq (by omega) (hsplit.symm ▸ hacc), Nat.div_div_eq_div_mul,
        show 256 = 2 ^ 8 from rfl, ← Nat.pow_add, hsplit, hbefore, h.out]

/-- R125: after k characters the decoder holds their k values. -/
theorem decSteps_of_values (hw : 12 ≤ w) (hcs : cs.map charToValue = vs.map some) {k : Nat}
    (hk : k ≤ cs.length) : ∃ d : DecRegs w, DecHolds (vs.take k) d ∧
      ∀ m, decSteps cs (k + m) (decStart w) = decSteps cs m d := by
  have hlen : cs.length = vs.length := by simpa using congrArg List.length hcs
  induction k with
  | zero => exact ⟨decStart w, decHolds_start, fun m => by rw [Nat.zero_add]⟩
  | succ k ih =>
    obtain ⟨d, hd, hsteps⟩ := ih (by omega)
    have hkv : k < vs.length := by omega
    have hj : d.j = k := by rw [hd.index, List.length_take]; omega
    have hvalue : charToValue (cs.getD d.j 0) = some vs[k] := by
      have hget := congrArg (·[k]?) hcs
      rw [hj, List.getD_eq_getElem _ _ (by omega)]
      simpa [show k < cs.length by omega, hkv] using hget
    obtain ⟨hlt, -⟩ := alphabet_of_charToValue hvalue
    refine ⟨decTake d vs[k], ?_, fun m => ?_⟩
    · rw [← List.take_append_getElem hkv]
      exact hd.take hw hlt
    · rw [Nat.add_assoc, hsteps, Nat.add_comm 1 m,
        decSteps_of_loop hd.loop.phase (decStep_of_value (by omega) hvalue)]

/-- The decoder of any width from 12 up gives the bytes of the number. -/
theorem decRun_of_values (hw : 12 ≤ w) (hcs : cs.map charToValue = vs.map some) :
    ∃ d : DecRegs w, decRun w cs = .ok d ∧ d.phase = .done ∧ d.out = refDecode vs := by
  have hlen : cs.length = vs.length := by simpa using congrArg List.length hcs
  obtain ⟨d, hd, hsteps⟩ := decSteps_of_values hw hcs (Nat.le_refl _)
  rw [List.take_of_length_le hlen.ge] at hd
  refine ⟨_, (hsteps 1).trans (decSteps_of_end hd.loop.phase (hd.index.trans hlen.symm)), rfl, ?_⟩
  show d.out = _
  rw [hd.out, hd.loop.held, hd.loop.written, hd.index, refDecode, decodedLength, Nat.mul_comm]

end

/-- Settles O21: what the accumulator holds is a part of the characters' bits. -/
theorem decoderReadsTheNumberInBase32 : Obligations.DecoderReadsTheNumberInBase32 :=
  fun _ _ hcs => decRun_of_values (by decide) hcs

/-! ## The digits of a text give the bytes back -/

/-- The d base-32 digits of v, most significant first. -/
def base32Digits (d v : Nat) : List Nat := (List.range d).map fun i => v / 32 ^ (d - 1 - i) % 32

theorem base32Digits_succ (d v : Nat) :
    base32Digits (d + 1) v = base32Digits d (v / 32) ++ [v % 32] := by
  rw [base32Digits, List.range_succ, List.map_append]
  congr 1
  · refine List.map_congr_left fun i hi => ?_
    have hlt := List.mem_range.1 hi
    rw [Nat.div_div_eq_div_mul, ← Nat.pow_succ', show d + 1 - 1 - i = d - 1 - i + 1 by omega]
  · simp

/-- A number below 32^d is what its d digits spell. -/
theorem base32Value_digits (d v : Nat) : base32Value (base32Digits d v) = v % 32 ^ d := by
  induction d generalizing v with
  | zero => exact (Nat.mod_one v).symm
  | succ d ih =>
    rw [base32Digits_succ, base32Value_append, ih, show 2 ^ 5 = 32 from rfl, Nat.pow_succ',
      Nat.mod_mul, Nat.add_comm, Nat.mul_comm]

section
variable (bs : List Byte)

/-- The values of the symbols of a byte list. -/
theorem refSymbols_values : (refSymbols bs).map charToValue =
    (base32Digits (symbolCount bs.length) (bitsValue bs)).map some := by
  rw [refSymbols, base32Digits, List.map_map, List.map_map]
  exact List.map_congr_left fun i _ => charToValue_alphabet (Nat.mod_lt _ (by decide))

theorem bitsValue_lt : bitsValue bs < 32 ^ symbolCount bs.length := by
  obtain ⟨hle, -⟩ := bitCount_bounds bs.length
  have hexp : bitCount bs.length = 8 * bs.length + (bitCount bs.length - 8 * bs.length) := by omega
  have hpow : 32 ^ symbolCount bs.length =
      256 ^ bs.length * 2 ^ (bitCount bs.length - 8 * bs.length) := by
    rw [← two_pow_eight_mul, ← Nat.pow_add, ← hexp, bitCount, Nat.pow_mul]
  rw [hpow, bitsValue]
  exact Nat.mul_lt_mul_of_pos_right (beValue_lt bs) (Nat.two_pow_pos _)

/-- The stripped text of n bytes decodes to n bytes (R105, R111). -/
theorem decodedLength_symbolCount (n : Nat) : decodedLength (symbolCount n) = n := by
  unfold decodedLength symbolCount
  omega

/-- The digits of a byte list, read in base 32 and written in base 256, are its bytes. -/
theorem refDecode_digits :
    refDecode (base32Digits (symbolCount bs.length) (bitsValue bs)) = bs := by
  have hlen (d v : Nat) : (base32Digits d v).length = d := by simp [base32Digits]
  have hleft : 5 * symbolCount bs.length % 8 = bitCount bs.length - 8 * bs.length := by
    obtain ⟨hle, hlt⟩ := bitCount_bounds bs.length
    unfold bitCount at *
    omega
  rw [refDecode, hlen, decodedLength_symbolCount, base32Value_digits,
    Nat.mod_eq_of_lt (bitsValue_lt bs), hleft, bitsValue, Nat.mul_div_cancel _ (Nat.two_pow_pos _),
    toBE_beValue]

/-! ## The text of B32.ENCODE -/

theorem encodedText_eq_refEncode : encodedText bs = refEncode bs := by
  rcases eq_or_ne bs [] with rfl | h
  · rfl
  · rw [encodedText_of_ne_nil h, encRun_out (by decide) h]

theorem refSymbols_length : (refSymbols bs).length = symbolCount bs.length := by
  simp [refSymbols]

/-- A character of the alphabet is no pad character, and is below 2^8 (R102, R103). -/
theorem alphabet_bounds : ∀ v, v < 32 → alphabet v ≠ padChar ∧ alphabet v < 2 ^ 8 := by decide

theorem mem_refSymbols {c : CodeUnit} (h : c ∈ refSymbols bs) : c ≠ padChar ∧ c < 2 ^ 8 := by
  obtain ⟨i, -, rfl⟩ := List.mem_map.1 h
  exact alphabet_bounds _ (Nat.mod_lt _ (by decide))

/-- Stripping the text leaves its symbols (R110). -/
theorem refEncode_isStripped : IsStripped (refEncode bs) (symbolCount bs.length) := by
  have hlen := refSymbols_length bs
  have hle : symbolCount bs.length ≤ (refEncode bs).length := by
    rw [refEncode, List.length_append, hlen]
    exact Nat.le_add_right _ _
  refine ⟨hle, fun i hi hlt => ?_, ?_⟩
  · rw [List.getD_eq_getElem _ _ hlt]
    simp only [refEncode]
    rw [List.getElem_append_right (by omega), List.getElem_replicate]
  · rcases Nat.eq_zero_or_pos (symbolCount bs.length) with h0 | hpos
    · exact .inl h0
    · have hi : symbolCount bs.length - 1 < (refSymbols bs).length := by omega
      have hmem := List.getElem_mem hi
      rw [List.getD_eq_getElem _ _ (by omega)]
      simp only [refEncode]
      rw [List.getElem_append_left hi]
      exact .inr (mem_refSymbols bs hmem).1

theorem refEncode_take : (refEncode bs).take (symbolCount bs.length) = refSymbols bs := by
  rw [← refSymbols_length]
  exact List.take_left

/-- Every text that is not too long fits every code unit of 8 bits or more (00_scope.md R7). -/
theorem refEncode_fits {c : Config} (hc : c.wf = true) (hlen : (refEncode bs).length ≤ lenMax) :
    (Payload.chars (refEncode bs)).fits c = true := by
  rw [Config.wf, Bool.and_eq_true, Bool.and_eq_true, decide_eq_true_iff] at hc
  have hpow : 2 ^ 8 ≤ 2 ^ c.charW := Nat.pow_le_pow_right (by decide) hc.1.1
  have hunit (u : CodeUnit) (hu : u ∈ refEncode bs) : u < 2 ^ 8 := by
    obtain hu | hu := List.mem_append.1 hu
    · exact (mem_refSymbols bs hu).2
    · rw [List.eq_of_mem_replicate hu]
      decide
  rw [Payload.fits, Bool.and_eq_true, List.all_eq_true]
  exact ⟨decide_eq_true hlen, fun u hu => decide_eq_true ((hunit u hu).trans_le hpow)⟩

end

/-! ## The obligations -/

/-- B32.DECODEP gives the bytes back, with the capacity that R111 asks for. -/
theorem exec_b32Decodep_refEncode {s : State} {r : Request} {bs : List Byte} (hr : s.req = some r)
    (hp : r.ipay = .chars (refEncode bs)) (hf : (Payload.chars (refEncode bs)).fits s.cfg = true)
    (hcap : (bs.length : Int) ≤ r.a0.toInt) :
    exec .b32Decodep s =
      .next (s.complete (payloadResponse (zext128 bs.length) (.bytes bs))) := by
  obtain ⟨d, hd, -, hout⟩ := decRun_of_values (w := accW) (by decide) (refSymbols_values bs)
  rw [refDecode_digits] at hout
  rw [exec_b32Decodep hr hp hf (refEncode_isStripped bs), decodedLength_symbolCount,
    if_neg (capTooSmall_eq_false hcap), refEncode_take, State.runDecoder_of_ok hd, hout]

/-- Settles O25: the text's stripped count is that of its symbols, whose values are the digits of
the bytes' number. -/
theorem decodeOfEncodeGivesTheBytesBack : Obligations.DecodeOfEncodeGivesTheBytesBack := by
  intro s r bs hr hp hcap
  have hlong := lt_of_toInt_eq hcap
  have hle : bs.length ≤ encodedLength bs.length := by
    unfold encodedLength
    omega
  have hlen : encodedLength bs.length ≤ lenMax := Nat.le_sub_one_of_lt hlong
  have htext := encodedText_eq_refEncode bs
  have hsize : (refEncode bs).length = encodedLength bs.length := by
    rw [← htext, encodedText_length]
  refine ⟨zext128 (refEncode bs).length, refEncode bs, answers_of_exec_complete ?_, ?_⟩
  · rw [exec_b32Encode hr hp (hle.trans hlen), if_neg (capTooSmall_eq_false hcap.ge), htext]
    rfl
  · intro s' r' hwf hr' hp' hcap'
    have hfits := refEncode_fits bs hwf (hsize.trans_le hlen)
    exact ⟨_, zext128_toNat_of_le_lenMax (hle.trans hlen),
      answers_of_exec_complete (exec_b32Decodep_refEncode hr' hp' hfits hcap'.ge)⟩

/-- Settles O26: the stripped text decodes to as many bytes as were encoded, and 5/8 of a positive
count is less. -/
theorem decodedLengthOfTheByteCountIsTooSmallACapacity :
    Obligations.DecodedLengthOfTheByteCountIsTooSmallACapacity := by
  intro s r bs hne hr hp hf hcap
  have hpos : 0 < bs.length := List.length_pos_iff.2 hne
  rw [encRun_out (by decide) hne] at hp hf
  have hsmall : r.a0.toInt < (bs.length : Int) := by
    unfold decodedLength at hcap
    omega
  refine fails_of_exec_fail ?_
  rw [exec_b32Decodep hr hp hf (refEncode_isStripped bs), decodedLength_symbolCount,
    if_pos (capTooSmall_iff.2 (.inr hsmall))]

end Sys2Proof.Machine
end
